-- ==== Sys2Proof/Word.lean ====
section
/-! DEFINITION. Word.lean: the unit's data widths (00_scope.md R9, R15): a byte, which is also a FieldElement, and a 32-bit
register-port word, address or length. All values are unsigned. -/

namespace Sys2Proof

/-- A byte; also a FieldElement, "a single byte (0–255)" (00_scope.md R14, R15). -/
abbrev Byte := BitVec 8

/-- A 32-bit word of the register port: a command word, an address or a length (10_state.md R36). -/
abbrev Word := BitVec 32

/-- A general-register index, 4 bits (30_encoding.md R113). -/
abbrev Reg := BitVec 4

end Sys2Proof
end

