-- ==== Sys2Proof/Syntax.lean ====
section
/-! DEFINITION. Syntax.lean: the SSU command set, version 1: one constructor per row of spec/opcode_table.json
(30_encoding.md R115), the formats (R112) and the raw fields of a command word (R111). -/

namespace Sys2Proof

/-- The 13 commands (30_encoding.md R115). Operands carry their width, so every term is within range (R113, R114). -/
inductive Instr where
  | nop
  | ldi (rd : Reg) (imm : Byte)
  | gadd (rd ra rb : Reg)
  | gmul (rd ra rb : Reg)
  | gdiv (rd ra rb : Reg)
  | ginv (rd ra : Reg)
  | pnew (ra : Reg) (degree : Byte)
  | pseti (ra : Reg)
  | peval (rd ra : Reg)
  | split
  | combine
  | ssplit
  | scomb
  deriving DecidableEq, Repr

/-- The command formats (30_encoding.md R112). -/
inductive Format where
  | n | r3 | r2 | r1a | i | ai
  deriving DecidableEq, Repr

/-- The fields of a command word (30_encoding.md R111). -/
structure Fields where
  opc  : BitVec 8
  rd   : Reg
  ra   : Reg
  rb   : Reg
  rsv  : BitVec 4
  imm8 : Byte
  deriving DecidableEq, Repr

end Sys2Proof
end

