-- ==== Sys2Proof/WellFormed.lean ====
section
/-! DEFINITION. WellFormed.lean: which fields of a command word must be zero, format by format (30_encoding.md R112), and which
opcodes exist (R115). The decoder is written from the mask and match values instead, so the two can be held against each other.
Instr itself needs no check: its operands carry their width. -/

namespace Sys2Proof

/-- The must-be-zero fields of each format are zero (30_encoding.md R112). -/
def Fields.wellFormed (f : Fields) : Format → Bool
  | .n   => f.rd == 0 && f.ra == 0 && f.rb == 0 && f.rsv == 0 && f.imm8 == 0
  | .r3  => f.rsv == 0 && f.imm8 == 0
  | .r2  => f.rb == 0 && f.rsv == 0 && f.imm8 == 0
  | .r1a => f.rd == 0 && f.rb == 0 && f.rsv == 0 && f.imm8 == 0
  | .i   => f.ra == 0 && f.rb == 0 && f.rsv == 0
  | .ai  => f.rd == 0 && f.rb == 0 && f.rsv == 0

/-- The format of each defined opcode; none for a reserved one (30_encoding.md R115, R117). -/
def Format.ofOpcode (opc : BitVec 8) : Option Format :=
  match opc.toNat with
  | 0x00 => some .n
  | 0x01 => some .i
  | 0x10 => some .r3
  | 0x11 => some .r3
  | 0x12 => some .r3
  | 0x13 => some .r2
  | 0x20 => some .ai
  | 0x21 => some .r1a
  | 0x22 => some .r2
  | 0x30 => some .n
  | 0x31 => some .n
  | 0x40 => some .n
  | 0x41 => some .n
  | _    => none

/-- A legal command word, field by field: its opcode is defined and its format's must-be-zero fields are zero. -/
def Fields.legal (f : Fields) : Bool :=
  match Format.ofOpcode f.opc with
  | some fmt => f.wellFormed fmt
  | none     => false

end Sys2Proof
end

