-- ==== Sys2Proof/Decode.lean ====
section
/-! DEFINITION. Decode.lean: the decoder, by mask and match (30_encoding.md R115, R116), total over all 2^32 words and refusing an
ILLEGAL word with the reason R116 gives; then the encoder, by fields (R111, R112). -/

namespace Sys2Proof

/-- Why a word is ILLEGAL: "its opcode is not in the table, or its opcode is in the table but a must-be-zero bit of its format is
1" (30_encoding.md R116). -/
inductive Illegal where
  | reservedOpcode
  | reservedBitSet
  deriving DecidableEq, Repr

/-- One row of the opcode map (30_encoding.md R115): its mask, its match value, and the command it builds from a word. -/
structure OpRow where
  mask   : Word
  pattern : Word
  build  : Word → Instr

/-- Field OPC, bits 31:24 (30_encoding.md R111). -/
def opcOf (w : Word) : BitVec 8 := w.extractLsb' 24 8

/-- Field RD, bits 23:20 (30_encoding.md R111). -/
def rdOf (w : Word) : Reg := w.extractLsb' 20 4

/-- Field RA, bits 19:16 (30_encoding.md R111). -/
def raOf (w : Word) : Reg := w.extractLsb' 16 4

/-- Field RB, bits 15:12 (30_encoding.md R111). -/
def rbOf (w : Word) : Reg := w.extractLsb' 12 4

/-- Field RSV, bits 11:8 (30_encoding.md R111). -/
def rsvOf (w : Word) : BitVec 4 := w.extractLsb' 8 4

/-- Field IMM8, bits 7:0, unsigned (30_encoding.md R111, R114). -/
def immOf (w : Word) : Byte := w.extractLsb' 0 8

/-- All fields of a word (30_encoding.md R111). -/
def fieldsOf (w : Word) : Fields :=
  { opc := opcOf w, rd := rdOf w, ra := raOf w, rb := rbOf w, rsv := rsvOf w, imm8 := immOf w }

/-- The opcode map (30_encoding.md R115). -/
def opRows : List OpRow :=
  [ ⟨0xFFFFFFFF, 0x00000000, fun _ => .nop⟩,
    ⟨0xFF0FFF00, 0x01000000, fun w => .ldi (rdOf w) (immOf w)⟩,
    ⟨0xFF000FFF, 0x10000000, fun w => .gadd (rdOf w) (raOf w) (rbOf w)⟩,
    ⟨0xFF000FFF, 0x11000000, fun w => .gmul (rdOf w) (raOf w) (rbOf w)⟩,
    ⟨0xFF000FFF, 0x12000000, fun w => .gdiv (rdOf w) (raOf w) (rbOf w)⟩,
    ⟨0xFF00FFFF, 0x13000000, fun w => .ginv (rdOf w) (raOf w)⟩,
    ⟨0xFFF0FF00, 0x20000000, fun w => .pnew (raOf w) (immOf w)⟩,
    ⟨0xFFF0FFFF, 0x21000000, fun w => .pseti (raOf w)⟩,
    ⟨0xFF00FFFF, 0x22000000, fun w => .peval (rdOf w) (raOf w)⟩,
    ⟨0xFFFFFFFF, 0x30000000, fun _ => .split⟩,
    ⟨0xFFFFFFFF, 0x31000000, fun _ => .combine⟩,
    ⟨0xFFFFFFFF, 0x40000000, fun _ => .ssplit⟩,
    ⟨0xFFFFFFFF, 0x41000000, fun _ => .scomb⟩ ]

/-- "A word w selects a row when (w & mask) = match" (30_encoding.md R115). -/
def OpRow.selects (r : OpRow) (w : Word) : Bool := (w &&& r.mask) == r.pattern

/-- Decoding (30_encoding.md R116): the first row the word selects, else ILLEGAL with its reason. -/
def decode (w : Word) : Except Illegal Instr :=
  match opRows.find? (fun r => r.selects w) with
  | some r => .ok (r.build w)
  | none   => if opRows.any (fun r => opcOf r.pattern == opcOf w) then .error .reservedBitSet else .error .reservedOpcode

/-- The opcode of each command (30_encoding.md R115). -/
def opcodeOf : Instr → BitVec 8
  | .nop        => 0x00
  | .ldi _ _    => 0x01
  | .gadd _ _ _ => 0x10
  | .gmul _ _ _ => 0x11
  | .gdiv _ _ _ => 0x12
  | .ginv _ _   => 0x13
  | .pnew _ _   => 0x20
  | .pseti _    => 0x21
  | .peval _ _  => 0x22
  | .split      => 0x30
  | .combine    => 0x31
  | .ssplit     => 0x40
  | .scomb      => 0x41

/-- The format of each command (30_encoding.md R112). -/
def formatOf : Instr → Format
  | .nop | .split | .combine | .ssplit | .scomb => .n
  | .ldi _ _                                    => .i
  | .gadd _ _ _ | .gmul _ _ _ | .gdiv _ _ _     => .r3
  | .ginv _ _ | .peval _ _                      => .r2
  | .pnew _ _                                   => .ai
  | .pseti _                                    => .r1a

/-- The fields an assembler places for a command, "with every other bit 0" (30_encoding.md R112, R119). -/
def fieldsFor (i : Instr) : Fields :=
  let z : Fields := { opc := opcodeOf i, rd := 0, ra := 0, rb := 0, rsv := 0, imm8 := 0 }
  match i with
  | .nop | .split | .combine | .ssplit | .scomb => z
  | .ldi rd imm     => { z with rd := rd, imm8 := imm }
  | .gadd rd ra rb  => { z with rd := rd, ra := ra, rb := rb }
  | .gmul rd ra rb  => { z with rd := rd, ra := ra, rb := rb }
  | .gdiv rd ra rb  => { z with rd := rd, ra := ra, rb := rb }
  | .ginv rd ra     => { z with rd := rd, ra := ra }
  | .pnew ra degree => { z with ra := ra, imm8 := degree }
  | .pseti ra       => { z with ra := ra }
  | .peval rd ra    => { z with rd := rd, ra := ra }

/-- A word from its fields (30_encoding.md R111): OPC, RD, RA, RB, RSV, IMM8 from the top bit down. -/
def packFields (f : Fields) : Word :=
  f.opc ++ f.rd ++ f.ra ++ f.rb ++ f.rsv ++ f.imm8

/-- The command word of a command (30_encoding.md R119). -/
def encode (i : Instr) : Word := packFields (fieldsFor i)

/-- The host's question about one row of spec/opcode_table.json: what the decoder reads from a word whose bits above `nbits` are
zero. A command is one 32-bit word on the register port, so the table's bit numbers are the word's own. -/
def decodeTableWord (nbits w : Nat) : Option Instr :=
  (decode (BitVec.ofNat 32 (w % 2 ^ nbits))).toOption

end Sys2Proof
end

