-- ==== Sys2Proof/Config.lean ====
section
/-! DEFINITION. Config.lean: what one implementation of the SSU fixes (00_scope.md R6, R7) and the free values of the model.
The free values are opaque: nothing in Lean can evaluate them or prove a value of them. -/

namespace Sys2Proof

/-- The legal reduction polynomials (00_scope.md R7): degree exactly 8 and irreducible over GF(2). There are exactly 30
(93_implementation_defined.md G1); each constructor is named after the value's hexadecimal digits. A POLY outside this list is
"outside this spec" and cannot be written down here, so the model never computes with one (log 2). -/
inductive Poly where
  | p11B | p11D | p12B | p12D | p139 | p13F | p14D | p15F | p163 | p165
  | p169 | p171 | p177 | p17B | p187 | p18B | p18D | p19F | p1A3 | p1A9
  | p1B1 | p1BD | p1C3 | p1CF | p1D7 | p1DD | p1E7 | p1F3 | p1F5 | p1F9
  deriving DecidableEq, Repr, Inhabited

/-- POLY as its 9-bit value: bit i is the coefficient of x^i (00_scope.md R6). -/
def Poly.bits : Poly → BitVec 9
  | .p11B => 0x11B | .p11D => 0x11D | .p12B => 0x12B | .p12D => 0x12D | .p139 => 0x139
  | .p13F => 0x13F | .p14D => 0x14D | .p15F => 0x15F | .p163 => 0x163 | .p165 => 0x165
  | .p169 => 0x169 | .p171 => 0x171 | .p177 => 0x177 | .p17B => 0x17B | .p187 => 0x187
  | .p18B => 0x18B | .p18D => 0x18D | .p19F => 0x19F | .p1A3 => 0x1A3 | .p1A9 => 0x1A9
  | .p1B1 => 0x1B1 | .p1BD => 0x1BD | .p1C3 => 0x1C3 | .p1CF => 0x1CF | .p1D7 => 0x1D7
  | .p1DD => 0x1DD | .p1E7 => 0x1E7 | .p1F3 => 0x1F3 | .p1F5 => 0x1F5 | .p1F9 => 0x1F9

/-- All legal polynomials, in the order of 93_implementation_defined.md G1. -/
def Poly.all : List Poly :=
  [.p11B, .p11D, .p12B, .p12D, .p139, .p13F, .p14D, .p15F, .p163, .p165,
   .p169, .p171, .p177, .p17B, .p187, .p18B, .p18D, .p19F, .p1A3, .p1A9,
   .p1B1, .p1BD, .p1C3, .p1CF, .p1D7, .p1DD, .p1E7, .p1F3, .p1F5, .p1F9]

/-- The polynomial of a 9-bit configuration value, or none: an illegal configuration is refused (00_scope.md R7). -/
def Poly.ofBits (b : BitVec 9) : Option Poly :=
  Poly.all.find? fun p => p.bits == b

/-- Remainder of `a` modulo `d` over GF(2), one quotient bit at a time from bit `k` down; `len` is the bit length of `d`. -/
def Poly.remainder (a d len : Nat) : Nat → Nat
  | 0 => a
  | k + 1 =>
    let top := k + len
    Poly.remainder (if a.testBit (top - 1) then a ^^^ (d <<< k) else a) d len k

/-- The criterion of 00_scope.md R7: bit 8 is 1, and no polynomial of degree 1 to 4 divides POLY. -/
def Poly.legalBits (b : BitVec 9) : Bool :=
  b.getLsbD 8 &&
    (List.range 30).all fun i =>
      let d := i + 2
      let len := d.log2 + 1
      Poly.remainder b.toNat d len (10 - len) != 0

/-- The implementation parameters the unit itself uses (00_scope.md R6), in a form that holds only legal values: POLY one of the
legal polynomials; MEM_BYTES = MEMLAST + 1, so 1 to 2^32; BLOCK_MAX = blockMaxPred + 1, so 1 to 2^32 - 1. They are also the
constant registers POLYREG, MEMLAST and BLKMAX (10_state.md R44). -/
structure Params where
  poly         : Poly
  memLast      : BitVec 32
  blockMaxPred : Fin 4294967295
  deriving DecidableEq, Repr, Inhabited

/-- MEM_BYTES, the size of MEM in bytes (00_scope.md R6). -/
def Params.memBytes (p : Params) : Nat := p.memLast.toNat + 1

/-- BLOCK_MAX, the largest legal streaming block size (00_scope.md R6). -/
def Params.blockMax (p : Params) : Nat := p.blockMaxPred.val + 1

/-- The parameters of the machine that reset describes: OPEN (00_scope.md R6), a free value (log 1). -/
opaque Config.params : Params

/-- What MEM byte `addr` holds after hard reset number `epoch` while nothing has written it: "an arbitrary byte, a universally
quantified parameter of the run" (70_reset_and_hazards.md R343), a free value (log 4). -/
opaque Config.memInit (epoch addr : Nat) : Byte

/-- The unspecified byte that the n-th read of a coordinate-table entry at or above XCOUNT returns: "a model should treat as a
draw" (10_state.md R46), a free value (log 5). -/
opaque Config.freeByte (n : Nat) : Byte

end Sys2Proof
end

