-- ==== Sys2Proof/Machine/State.lean ====
section
/-! DEFINITION. Machine/State.lean: everything the spec gives the machine (10_state.md), the requests and answers of its ports
(44_streaming.md R250, 60_exceptions.md R326), the events that step it (40_unit.md R140), and the state after a hard reset
(10_state.md R56). Plain data throughout. -/

namespace Sys2Proof.Machine

/-- CTRL.POLICY (10_state.md R41): 0 per-byte, 1 per-block coefficient refresh. -/
inductive Policy where
  | perByte | perBlock
  deriving DecidableEq, Repr

/-- CTRL.EOFPOL (10_state.md R41): 0 LEADER_ONLY, 1 SYMMETRIC end-of-stream rule. -/
inductive EofPolicy where
  | leaderOnly | symmetric
  deriving DecidableEq, Repr

/-- The error kinds a command can end with (60_exceptions.md R301). -/
inductive ErrorKind where
  | validation | arithmetic | entropy | sizeMismatch | prematureEof | io | illegalCommand | state | bounds
  deriving DecidableEq, Repr

/-- A channel of the stream port (44_streaming.md R251): CH_MAIN or CH_PART(k). -/
inductive Channel where
  | main
  | part (k : Nat)
  deriving DecidableEq, Repr

/-- A stream-port request (44_streaming.md R250). -/
inductive StreamRequest where
  | read (ch : Channel) (max : Nat)
  | write (ch : Channel) (bytes : List Byte)
  deriving DecidableEq, Repr

/-- A stream-port response (44_streaming.md R250). -/
inductive StreamAnswer where
  | chunk (bytes : List Byte)
  | eof
  | ok
  | err
  deriving DecidableEq, Repr

/-- An entropy-port response (60_exceptions.md R326): BYTE(b) or FAIL. -/
inductive EntropyAnswer where
  | byte (b : Byte)
  | fail
  deriving DecidableEq, Repr

/-- A request the unit has outstanding on one of its ports (44_streaming.md R252). -/
inductive Request where
  | draw
  | stream (r : StreamRequest)
  deriving DecidableEq, Repr

/-- A MEM-port transaction of the host (20_memory.md R83). -/
inductive MemTxn where
  | read (addr : Word)
  | write (addr : Word) (v : Byte)
  deriving DecidableEq, Repr

/-- What happened at the unit's ports, oldest first: an answered request, or a value that a host read returned (log 12, log 21). -/
inductive Transaction where
  | draw (answer : EntropyAnswer)
  | stream (request : StreamRequest) (answer : StreamAnswer)
  | regRead (offset : BitVec 12) (value : Word)
  | memRead (addr : Word) (value : Byte)
  deriving DecidableEq, Repr

/-- One input of the unit (40_unit.md R140): a host transaction, an answer to the outstanding request, or the rst input.
`lateEntropy` and `lateStream` are answers to a request that a reset has withdrawn (70_reset_and_hazards.md R341, log 10). `memStep`
is no input: it places the carrying out of one released MEM transaction in the order of events (20_memory.md R92, log 9). -/
inductive Event where
  | rst
  | regWrite (offset : BitVec 12) (w : Word)
  | regRead (offset : BitVec 12)
  | memPort (t : MemTxn)
  | entropy (a : EntropyAnswer)
  | stream (a : StreamAnswer)
  | lateEntropy (a : EntropyAnswer)
  | lateStream (a : StreamAnswer)
  | memStep
  deriving DecidableEq, Repr

/-- The registers of the map (10_state.md R37); `reserved` stands for every other offset. -/
inductive RegName where
  | cmd | status | errcode | ctrl | cfgN | cfgT | cfgK | cfgBlock | cfgSrc | cfgDst | cfgLen
  | rlen | cmdcount | xcount | pdeg | id | polyreg | memlast | blkmax
  | g (i : Reg)
  | x (k : Nat)
  | reserved
  deriving DecidableEq, Repr

/-- Where a split's shares go: MEM at `dst`, from the snapshot `secret` taken at acceptance (43_engine.md R215), or the part
channels, in blocks of at most `block` bytes (44_streaming.md R254). -/
inductive SplitTarget where
  | mem (dst : Nat) (secret : List Byte)
  | stream (block : Nat)
  deriving DecidableEq, Repr

/-- The latched operands of SPLIT or SSPLIT (10_state.md R52, 40_unit.md R141). -/
structure SplitJob where
  n      : Nat
  t      : Nat
  policy : Policy
  target : SplitTarget
  deriving DecidableEq, Repr

/-- The latched operands of SCOMB (10_state.md R52, 44_streaming.md R260). -/
structure CombJob where
  k      : Nat
  block  : Nat
  eofpol : EofPolicy
  deriving DecidableEq, Repr

/-- Share computation of one block in progress (43_engine.md R214): its length `n`, the bytes not shared yet (the head is the
current one), the coefficients c[1..] drawn so far for the current polynomial, and the slices y[k] of the bytes already shared. -/
structure Sharing where
  n     : Nat
  todo  : List Byte
  coefs : List Byte
  ys    : List (List Byte)
  deriving DecidableEq, Repr

/-- The FSM (10_state.md R52): idle, or the point of the executing command's sequence at which it waits for an answer, with the
hidden data the command then holds. `xs` is the coordinate accumulator or the coordinates in use. -/
inductive Fsm where
  /-- BUSY = 0. -/
  | idle
  /-- PNEW waits for coefficient C[i] of a polynomial with intercept `c0` and degree `d` (42_polynomial.md R191). -/
  | polyDraw (c0 : Byte) (d i : Nat)
  /-- SampleCoords waits for a byte (43_engine.md R212). -/
  | sampleDraw (job : SplitJob) (xs : List Byte)
  /-- ShareBlock waits for a coefficient (43_engine.md R214). -/
  | coefDraw (job : SplitJob) (xs : List Byte) (sh : Sharing)
  /-- SSPLIT waits for the answer to the header WRITE of part k (44_streaming.md R254). -/
  | headerWrite (job : SplitJob) (xs : List Byte) (k : Nat)
  /-- SSPLIT waits for a chunk of CH_MAIN (44_streaming.md R255). -/
  | chunkRead (job : SplitJob) (xs : List Byte)
  /-- SSPLIT waits for the answer to the slice WRITE of part k, in a round of chunk length n (44_streaming.md R255). -/
  | sliceWrite (job : SplitJob) (xs : List Byte) (n : Nat) (ys : List (List Byte)) (k : Nat)
  /-- SCOMB waits for the header byte of part `xs.length` (44_streaming.md R261). -/
  | headerRead (job : CombJob) (xs : List Byte)
  /-- SCOMB waits for the chunk of part `chunks.length` (44_streaming.md R262). -/
  | partRead (job : CombJob) (xs : List Byte) (chunks : List (List Byte))
  /-- SCOMB under SYMMETRIC waits for the end of part k (44_streaming.md R263). -/
  | endRead (job : CombJob) (k : Nat)
  /-- SCOMB waits for the answer to the WRITE of `out` on CH_MAIN (44_streaming.md R262). -/
  | mainWrite (job : CombJob) (xs out : List Byte)
  deriving DecidableEq, Repr

/-- MEM as (address, byte) pairs, addresses strictly rising; an address that nothing has written since hard reset is not listed. -/
abbrev Memory := List Host.Cell

/-- Why the machine could stop with a fault. It has no constructor: the spec gives every event of the unit an effect (an error is
ordinary completion, 60_exceptions.md R309, and a hang is a run that stays where it is, R328), so nobody raises one; safe. -/
inductive Fault where
  deriving DecidableEq, Repr

/-- Why the machine could have no meaning for an instruction. -/
inductive Refusal where
  /-- Raised only by an arm of `exec` whose command has no meaning yet; there is none. Safe: the run stops. -/
  | notModelled (mnemonic : String)
  deriving DecidableEq, Repr

/-- The state of the SSU (10_state.md), with the inputs still to come and the record of its ports. -/
structure State where
  /-- POLYREG, MEMLAST, BLKMAX: the implementation parameters (10_state.md R44); no event changes them. -/
  params   : Params
  /-- G0..G15 (10_state.md R30). -/
  g        : Vector Byte 16
  /-- C[0..254] (10_state.md R47). -/
  c        : Vector Byte 255
  /-- PDEG (10_state.md R47). -/
  pdeg     : BitVec 8
  /-- STATUS.PVALID (10_state.md R47). -/
  pvalid   : Bool
  /-- X[0..254] (10_state.md R46). -/
  x        : Vector Byte 255
  /-- XCOUNT (10_state.md R46). -/
  xcount   : BitVec 9
  /-- STATUS.DONE (10_state.md R39). -/
  done     : Bool
  /-- STATUS.ERR (10_state.md R39). -/
  err      : Bool
  /-- STATUS.OVR (10_state.md R39). -/
  ovr      : Bool
  /-- ERRCODE (10_state.md R40). -/
  errcode  : BitVec 8
  /-- CTRL.IE (10_state.md R41). -/
  ie       : Bool
  /-- CTRL.POLICY (10_state.md R41). -/
  policy   : Policy
  /-- CTRL.EOFPOL (10_state.md R41). -/
  eofpol   : EofPolicy
  /-- CFG_N (10_state.md R42). -/
  cfgN     : BitVec 8
  /-- CFG_T (10_state.md R42). -/
  cfgT     : BitVec 8
  /-- CFG_K (10_state.md R42). -/
  cfgK     : BitVec 8
  /-- CFG_BLOCK (10_state.md R43). -/
  cfgBlock : Word
  /-- CFG_SRC (10_state.md R43). -/
  cfgSrc   : Word
  /-- CFG_DST (10_state.md R43). -/
  cfgDst   : Word
  /-- CFG_LEN (10_state.md R43). -/
  cfgLen   : Word
  /-- RLEN (10_state.md R45). -/
  rlen     : Word
  /-- CMDCOUNT (10_state.md R35). -/
  cmdcount : Word
  /-- The accepted command word, hidden (10_state.md R38, R52). -/
  cmdWord  : Word
  /-- MEM (20_memory.md R81). -/
  mem      : Memory
  /-- The FSM and the hidden data of the executing command (10_state.md R52). -/
  fsm      : Fsm
  /-- Host MEM-port transactions that wait, oldest first (20_memory.md R92). -/
  heldMem  : List MemTxn
  /-- What happened at the ports, oldest first (log 12, log 21). -/
  trace    : List Transaction
  /-- The inputs still to come, in the one total order of 20_memory.md R91, next first (log 7). -/
  agenda   : List Event
  /-- The model's own: bit i says that G[i] was written since hard reset (10_state.md R31, log 3). -/
  gWritten : BitVec 16
  /-- The model's own: how many hard resets have happened; it picks the contents of unwritten MEM (log 4). -/
  epoch    : Nat
  /-- The model's own: how many free bytes have been taken (log 5). -/
  freeCount : Nat
  deriving DecidableEq, Repr

/-- The machine right after a hard reset (10_state.md R56, 70_reset_and_hazards.md R342): idle, every register the spec gives a
reset value at that value, MEM with nothing listed, no input waiting. G, C, X and the accepted word are the model's choice (log 3,
log 6, log 13); the parameters are open (log 1). -/
def State.reset : State where
  params   := Config.params
  g        := Vector.replicate 16 0
  c        := Vector.replicate 255 0
  pdeg     := 0
  pvalid   := false
  x        := Vector.replicate 255 0
  xcount   := 0
  done     := false
  err      := false
  ovr      := false
  errcode  := 0
  ie       := false
  policy   := .perByte
  eofpol   := .leaderOnly
  cfgN     := 0
  cfgT     := 0
  cfgK     := 0
  cfgBlock := 0
  cfgSrc   := 0
  cfgDst   := 0
  cfgLen   := 0
  rlen     := 0
  cmdcount := 0
  cmdWord  := 0
  mem      := []
  fsm      := .idle
  heldMem  := []
  trace    := []
  agenda   := []
  gWritten := 0
  epoch    := 0
  freeCount := 0

/-- What an event leads to: the three outcomes of a step. -/
abbrev Result := Host.Outcome State Fault Refusal

end Sys2Proof.Machine
end

