-- ==== Sys2Proof/Machine/Ops.lean ====
section
/-! DEFINITION. Machine/Ops.lean: the named operations over registers and memory, the two ways a command ends (60_exceptions.md
R302, R303) and the two resets (70_reset_and_hazards.md R341). -/

namespace Sys2Proof.Machine

/-- `G[i]` (10_state.md R30, 00_scope.md R12). -/
def State.getG (s : State) (i : Reg) : Byte := s.g[i.toNat]'(by have := i.isLt; omega)

/-- `G[i] <- v`; the register counts as written from then on (10_state.md R30, R31). -/
def State.setG (s : State) (i : Reg) (v : Byte) : State :=
  { s with
    g := s.g.set i.toNat v (by have := i.isLt; omega)
    gWritten := s.gWritten ||| (1#16 <<< i.toNat) }

/-- `C[i] <- v` (00_scope.md R12, 10_state.md R47). -/
def State.setC (s : State) (i : Nat) (v : Byte) : State := { s with c := s.c.setIfInBounds i v }

/-- The coefficients C[0..PDEG] of the polynomial register, constant term first (10_state.md R47). -/
def State.polyCoefs (s : State) : List Byte := s.c.toList.take (s.pdeg.toNat + 1)

/-- `X[k] <- v` (00_scope.md R12, 10_state.md R46). -/
def State.setX (s : State) (k : Nat) (v : Byte) : State := { s with x := s.x.setIfInBounds k v }

/-- X[0..] overwritten, from index `k` on, by the given coordinates (43_engine.md R217). -/
def State.setXs (s : State) (k : Nat) : List Byte → State
  | []      => s
  | b :: bs => State.setXs (s.setX k b) (k + 1) bs

/-- `XCOUNT <- n` (10_state.md R55). -/
def State.setXcount (s : State) (n : Nat) : State := { s with xcount := BitVec.ofNat 9 n }

/-- `RLEN <- v`, modulo 2^32 (10_state.md R45). -/
def State.setRlen (s : State) (v : Word) : State := { s with rlen := v }

/-- `PVALID <- 0` (10_state.md R54). -/
def State.clearPvalid (s : State) : State := { s with pvalid := false }

/-- The FSM moves to the point `f`, where the command waits for its next answer (40_unit.md R140). -/
def State.goto (s : State) (f : Fsm) : State := { s with fsm := f }

/-- The inputs still to come are `rest` (log 7). -/
def State.withAgenda (s : State) (rest : List Event) : State := { s with agenda := rest }

/-- The MEM transactions that wait are `ts` (20_memory.md R92). -/
def State.withHeld (s : State) (ts : List MemTxn) : State := { s with heldMem := ts }

/-- A port transaction is recorded (log 12, log 21). -/
def State.log (s : State) (t : Transaction) : State := { s with trace := s.trace ++ [t] }

/-- The byte listed for address `a`, if any. -/
def Memory.find : Memory → Nat → Option Byte
  | [], _ => none
  | (k, v) :: m, a => if a = k then some v else Memory.find m a

/-- `MEM[a] <- v` on the list, which stays sorted. A written byte is always listed (log 4). -/
def Memory.store : Memory → Nat → Byte → Memory
  | [], a, v => [(a, v)]
  | (k, w) :: m, a, v =>
    if a < k then (a, v) :: (k, w) :: m
    else if a = k then (a, v) :: m
    else (k, w) :: Memory.store m a v

/-- `MemWrite(a, len, bytes)` (20_memory.md R82): MEM[a+i] <- bytes[i], in ascending i. -/
def Memory.storeAll : Memory → Nat → List Byte → Memory
  | m, _, [] => m
  | m, a, b :: bs => Memory.storeAll (Memory.store m a b) (a + 1) bs

/-- The canonical form: addresses strictly rising. What an unlisted address reads as is no listed byte but the free contents of an
unwritten one (log 4), so no entry is superfluous. -/
def Memory.wf : Memory → Bool
  | [] => true
  | [_] => true
  | (a, _) :: (b, w) :: m => decide (a < b) && Memory.wf ((b, w) :: m)

/-- What an unlisted address reads as: the free contents of a byte nothing has written since hard reset (70_reset_and_hazards.md
R343, log 4). -/
def State.unwrittenByte (s : State) (a : Nat) : Byte := Config.memInit s.epoch a

/-- `MEM[a]` (20_memory.md R81). -/
def State.readByte (s : State) (a : Nat) : Byte := (s.mem.find a).getD (s.unwrittenByte a)

/-- `MemRead(a, n)` (20_memory.md R82). -/
def State.readBytes (s : State) (a n : Nat) : List Byte := (List.range n).map fun i => s.readByte (a + i)

/-- `rd32(a)`, little-endian (20_memory.md R86). -/
def State.rd32 (s : State) (a : Nat) : Word :=
  (s.readByte a).setWidth 32 ||| (s.readByte (a + 1)).setWidth 32 <<< 8 |||
    (s.readByte (a + 2)).setWidth 32 <<< 16 ||| (s.readByte (a + 3)).setWidth 32 <<< 24

/-- `MEM[a] <- v` (20_memory.md R81). -/
def State.writeByte (s : State) (a : Nat) (v : Byte) : State := { s with mem := s.mem.store a v }

/-- `MemWrite(a, len, bytes)` (20_memory.md R82). -/
def State.writeBytes (s : State) (a : Nat) (bytes : List Byte) : State := { s with mem := s.mem.storeAll a bytes }

/-- The code of an error kind (60_exceptions.md R301). -/
def ErrorKind.code : ErrorKind → BitVec 8
  | .validation     => 1
  | .arithmetic     => 2
  | .entropy        => 3
  | .sizeMismatch   => 4
  | .prematureEof   => 5
  | .io             => 6
  | .illegalCommand => 7
  | .state          => 8
  | .bounds         => 9

/-- Success completion, `complete_ok` (60_exceptions.md R302). BUSY and PHASE follow the FSM, and irq follows DONE (log 11). -/
def State.complete (s : State) : State :=
  { s with errcode := 0, done := true, err := false, fsm := .idle }

/-- Error completion, `raise e` (60_exceptions.md R303, R304): the one operation by which a command ends with an error. Everything
the command wrote before stays written. -/
def State.raise (e : ErrorKind) (s : State) : State :=
  { s with errcode := e.code, err := true, done := false, fsm := .idle }

/-- Acceptance of the command word `w`, before it runs (40_unit.md R141): CMDCOUNT, DONE, ERR and the accepted word. -/
def State.accept (s : State) (w : Word) : State :=
  { s with cmdcount := s.cmdcount + 1, done := false, err := false, cmdWord := w }

/-- Soft reset (70_reset_and_hazards.md R340, R341): every register to its reset value but G and MEM, which keep theirs. The command
is aborted and its request withdrawn, since the FSM is idle. What lies outside the unit (the record of its ports, the inputs to
come, held MEM transactions) stays. -/
def State.softReset (s : State) : State :=
  { State.reset with
    params := s.params, g := s.g, gWritten := s.gWritten, mem := s.mem, epoch := s.epoch, freeCount := s.freeCount
    heldMem := s.heldMem, trace := s.trace, agenda := s.agenda }

/-- Hard reset, the rst input (70_reset_and_hazards.md R340, R341): as the soft one, but G and MEM lose their contents too. -/
def State.hardReset (s : State) : State :=
  { State.reset with
    params := s.params, epoch := s.epoch + 1, freeCount := s.freeCount
    heldMem := s.heldMem, trace := s.trace, agenda := s.agenda }

end Sys2Proof.Machine
end

