-- ==== Sys2Proof/Machine/Flags.lean ====
section
/-! DEFINITION. Machine/Flags.lean: the status bits and everything computed from the FSM: BUSY, PHASE and the outstanding request
(10_state.md R39, R53, 44_streaming.md R252), irq (60_exceptions.md R307), the MEM-port hold (20_memory.md R92), the STATUS word
and its write-1-to-clear bits. The unit has no arithmetic flags (10_state.md R54). -/

namespace Sys2Proof.Machine

/-- STATUS.BUSY: "1 while the unit is executing an accepted command" (10_state.md R39). -/
def State.busy (s : State) : Bool := s.fsm != .idle

/-- The block size of a split: B for SSPLIT. An in-memory split reads no chunk. -/
def SplitTarget.block : SplitTarget → Nat
  | .mem _ _ => 0
  | .stream block => block

/-- The request outstanding at a point of the FSM; at most one (44_streaming.md R252). -/
def Fsm.request : Fsm → Option Request
  | .idle => none
  | .polyDraw _ _ _ => some .draw
  | .sampleDraw _ _ => some .draw
  | .coefDraw _ _ _ => some .draw
  | .headerWrite _ xs k => some (.stream (.write (.part k) [xs.getD k 0]))
  | .chunkRead job _ => some (.stream (.read .main job.target.block))
  | .sliceWrite _ _ _ ys k => some (.stream (.write (.part k) (ys.getD k [])))
  | .headerRead _ xs => some (.stream (.read (.part xs.length) 1))
  | .partRead job _ chunks => some (.stream (.read (.part chunks.length) job.block))
  | .endRead job k => some (.stream (.read (.part k) job.block))
  | .mainWrite _ _ out => some (.stream (.write .main out))

/-- The outstanding request of the unit (10_state.md R52). -/
def State.request (s : State) : Option Request := s.fsm.request

/-- STATUS.PHASE (10_state.md R53): 0 IDLE, 1 ENTROPY, 2 HDR_READ, 3 HDR_WRITE, 4 READ, 5 WRITE. -/
def Fsm.phase : Fsm → BitVec 4
  | .idle => 0
  | .polyDraw _ _ _ => 1
  | .sampleDraw _ _ => 1
  | .coefDraw _ _ _ => 1
  | .headerRead _ _ => 2
  | .headerWrite _ _ _ => 3
  | .chunkRead _ _ => 4
  | .partRead _ _ _ => 4
  | .endRead _ _ => 4
  | .sliceWrite _ _ _ _ _ => 5
  | .mainWrite _ _ _ => 5

/-- STATUS.PHASE of the unit. -/
def State.phase (s : State) : BitVec 4 := s.fsm.phase

/-- The irq output: `CTRL.IE AND (STATUS.DONE OR STATUS.ERR)` (60_exceptions.md R307). -/
def State.irq (s : State) : Bool := s.ie && (s.done || s.err)

/-- Whether this point of the FSM lies inside a SPLIT, the only command that holds the MEM port over host-visible time (20_memory.md
R92). -/
def Fsm.holdsMem : Fsm → Bool
  | .sampleDraw job _ | .coefDraw job _ _ =>
    match job.target with
    | .mem _ _ => true
    | .stream _ => false
  | _ => false

/-- The MEM port is held (20_memory.md R92). -/
def State.memHeld (s : State) : Bool := s.fsm.holdsMem

/-- STATUS as the host reads it (10_state.md R39): BUSY, DONE, ERR, OVR, PHASE, PVALID from bit 0 up; bits 31:9 read 0. -/
def State.statusWord (s : State) : Word :=
  (0#23 ++ BitVec.ofBool s.pvalid ++ s.phase ++ BitVec.ofBool s.ovr ++ BitVec.ofBool s.err ++ BitVec.ofBool s.done ++
    BitVec.ofBool s.busy).setWidth 32

/-- A STATUS write (10_state.md R39): writing 1 to bit 1, 2 or 3 clears DONE, ERR or OVR; the other bits are ignored. -/
def State.clearStatus (s : State) (w : Word) : State :=
  { s with
    done := s.done && !w.getLsbD 1
    err := s.err && !w.getLsbD 2
    ovr := s.ovr && !w.getLsbD 3 }

/-- A dropped host write sets OVR and nothing else (10_state.md R51, 60_exceptions.md R311). -/
def State.dropWrite (s : State) : State := { s with ovr := true }

end Sys2Proof.Machine
end

