-- ==== Sys2Proof/Machine/Operands.lean ====
section
/-! DEFINITION. Machine/Operands.lean: the operands of the commands. Register operands and the immediate are read by `State.getG`
and taken from the decoded command (30_encoding.md R113, R114); here are the operands that come from the CFG and CTRL registers,
latched at acceptance (40_unit.md R141), and the checks on them. -/

namespace Sys2Proof.Machine

/-- `InRange(a, n)` over unbounded naturals (20_memory.md R84). -/
def inRange (p : Params) (a n : Nat) : Bool := n == 0 || decide (a + n ≤ p.memBytes)

/-- `splitValid(N, T)` (43_engine.md R211). -/
def splitValid (n t : Nat) : Bool :=
  decide (2 ≤ n) && decide (n ≤ 255) && decide (2 ≤ t) && decide (t ≤ 255) && decide (t ≤ n)

/-- The share count that COMBINE and SCOMB accept: 2 to 254 (43_engine.md R217, 44_streaming.md R260, 90_conflicts.md C1). -/
def combineCountValid (k : Nat) : Bool := decide (2 ≤ k) && decide (k ≤ 254)

/-- The block size that SSPLIT and SCOMB accept: 1 to BLOCK_MAX (44_streaming.md R254, R260). -/
def blockValid (p : Params) (b : Nat) : Bool := decide (1 ≤ b) && decide (b ≤ p.blockMax)

/-- The latched operands of SPLIT (43_engine.md R215); the secret is the snapshot `MemRead(src, L)` taken at acceptance. -/
def State.splitJob (s : State) : SplitJob where
  n := s.cfgN.toNat
  t := s.cfgT.toNat
  policy := s.policy
  target := .mem s.cfgDst.toNat (s.readBytes s.cfgSrc.toNat s.cfgLen.toNat)

/-- The latched operands of SSPLIT (44_streaming.md R254). -/
def State.streamSplitJob (s : State) : SplitJob where
  n := s.cfgN.toNat
  t := s.cfgT.toNat
  policy := s.policy
  target := .stream s.cfgBlock.toNat

/-- The latched operands of SCOMB (44_streaming.md R260). -/
def State.combJob (s : State) : CombJob where
  k := s.cfgK.toNat
  block := s.cfgBlock.toNat
  eofpol := s.eofpol

/-- One COMBINE descriptor (43_engine.md R218): the share's address and its total length. -/
structure Descriptor where
  addr : Nat
  len  : Nat
  deriving DecidableEq, Repr

/-- Descriptor `k` of the table at `tab` (43_engine.md R218): two little-endian 32-bit fields. -/
def State.descriptor (s : State) (tab k : Nat) : Descriptor where
  addr := (s.rd32 (tab + 8 * k)).toNat
  len := (s.rd32 (tab + 8 * k + 4)).toNat

end Sys2Proof.Machine
end

