-- ==== Sys2Proof/Machine/Field.lean ====
section
/-! DEFINITION. Machine/Field.lean: the GF(256) functions (41_field.md section 1) and the field commands GADD, GMUL, GDIV, GINV
(section 2). The functions take POLY as an argument. -/

namespace Sys2Proof.Machine

/-- `gfadd`, which is also subtraction (41_field.md R160, R161). -/
def gfadd (a b : Byte) : Byte := a ^^^ b

/-- `clmul`: carry-less product of two bytes, 15 bits (41_field.md R162). -/
def clmul (a b : Byte) : BitVec 15 :=
  (List.range 8).foldl (fun p i => if b.getLsbD i then p ^^^ (a.setWidth 15 <<< i) else p) 0

/-- One step of `reduce` at bit `i`: clear bit i by XOR of POLY << (i - 8) (41_field.md R162). -/
def reduceBit (poly : Poly) (p : BitVec 15) (i : Nat) : BitVec 15 :=
  if p.getLsbD i then p ^^^ (poly.bits.setWidth 15 <<< (i - 8)) else p

/-- `reduce`: remainder modulo POLY, bits 14 down to 8 (41_field.md R162). -/
def reduce (poly : Poly) (p : BitVec 15) : Byte :=
  ([14, 13, 12, 11, 10, 9, 8].foldl (reduceBit poly) p).setWidth 8

/-- `gfmul` (41_field.md R162). -/
def gfmul (poly : Poly) (a b : Byte) : Byte := reduce poly (clmul a b)

/-- `a^k`, repeated gfmul (41_field.md R167). -/
def gfpow (poly : Poly) (a : Byte) : Nat → Byte
  | 0 => 1
  | k + 1 => gfmul poly (gfpow poly a k) a

/-- The inverse of a non-zero element, as a^254 (41_field.md R167): a^254 = a^2 * a^4 * ... * a^128, by repeated squaring. At 0,
where no inverse exists, the callers raise ArithmeticError and do not use it (log 15). -/
def gfinvNonzero (poly : Poly) (a : Byte) : Byte :=
  let sq := fun v => gfmul poly v v
  let a2 := sq a
  let a4 := sq a2
  let a8 := sq a4
  let a16 := sq a8
  let a32 := sq a16
  let a64 := sq a32
  let a128 := sq a64
  gfmul poly a128 (gfmul poly a64 (gfmul poly a32 (gfmul poly a16 (gfmul poly a8 (gfmul poly a4 a2)))))

/-- `gfinv` (41_field.md R166): none stands for `raise ArithmeticError`. -/
def gfinv (poly : Poly) (a : Byte) : Option Byte := if a = 0 then none else some (gfinvNonzero poly a)

/-- The quotient by a non-zero divisor (41_field.md R168); the callers have checked the divisor. -/
def gfdivNonzero (poly : Poly) (a b : Byte) : Byte := gfmul poly a (gfinvNonzero poly b)

/-- `gfdiv` (41_field.md R168): none stands for `raise ArithmeticError`, "for every a, 0 included". -/
def gfdiv (poly : Poly) (a b : Byte) : Option Byte := if b = 0 then none else some (gfdivNonzero poly a b)

/-- A field command's end (41_field.md section 2): G[rd] is written only on success; none raises ArithmeticError. -/
def State.writeField (s : State) (rd : Reg) : Option Byte → State
  | some v => (s.setG rd v).complete
  | none   => s.raise .arithmetic

/-- GADD (41_field.md R169): `G[rd] <- gfadd(G[ra], G[rb])`. -/
def execGadd (rd ra rb : Reg) (s : State) : Result := .next (s.setG rd (gfadd (s.getG ra) (s.getG rb))).complete

/-- GMUL (41_field.md R170): `G[rd] <- gfmul(G[ra], G[rb])`. -/
def execGmul (rd ra rb : Reg) (s : State) : Result :=
  .next (s.setG rd (gfmul s.params.poly (s.getG ra) (s.getG rb))).complete

/-- GDIV (41_field.md R171): ArithmeticError exactly when G[rb] = 0. -/
def execGdiv (rd ra rb : Reg) (s : State) : Result :=
  .next (s.writeField rd (gfdiv s.params.poly (s.getG ra) (s.getG rb)))

/-- GINV (41_field.md R172): ArithmeticError exactly when G[ra] = 0. -/
def execGinv (rd ra : Reg) (s : State) : Result :=
  .next (s.writeField rd (gfinv s.params.poly (s.getG ra)))

end Sys2Proof.Machine
end

