-- ==== Sys2Proof/Machine/Polynomial.lean ====
section
/-! DEFINITION. Machine/Polynomial.lean: evaluation (42_polynomial.md R194) and the commands PNEW, PSETI, PEVAL (R191-R193). -/

namespace Sys2Proof.Machine

/-- Horner's method from the highest coefficient down (42_polynomial.md R194); the list starts with the constant term. -/
def horner (poly : Poly) (x : Byte) : List Byte → Byte
  | []  => 0
  | [c] => c
  | c :: cs => gfadd (gfmul poly (horner poly x cs) x) c

/-- `evaluate` (42_polynomial.md R194), for the coefficient list c[0..d]: the intercept at x = 0, else Horner. -/
def evaluate (poly : Poly) (cs : List Byte) (x : Byte) : Byte :=
  if x = 0 then cs.headD 0 else horner poly x cs

/-- The end of PNEW (42_polynomial.md R191): `C[0] <- c0 ; PDEG <- d ; PVALID <- 1`, then complete. -/
def State.finishPoly (s : State) (c0 : Byte) (d : Nat) : State :=
  { s.setC 0 c0 with pdeg := BitVec.ofNat 8 d, pvalid := true }.complete

/-- PNEW (42_polynomial.md R191): degree 255 is a ValidationError; a degree of 1 or more waits for its first draw. -/
def execPnew (ra : Reg) (degree : Byte) (s : State) : Result :=
  .next <|
    if 254 < degree.toNat then s.raise .validation
    else if degree = 0 then s.clearPvalid.finishPoly (s.getG ra) 0
    else s.clearPvalid.goto (.polyDraw (s.getG ra) degree.toNat 1)

/-- An answer to PNEW's DRAW for C[i] (42_polynomial.md R191, 60_exceptions.md R326, R327). -/
def State.polyAnswer (s : State) (c0 : Byte) (d i : Nat) : EntropyAnswer → State
  | .fail => s.raise .entropy
  | .byte b =>
    if i < d then (s.setC i b).goto (.polyDraw c0 d (i + 1))
    else (s.setC i b).finishPoly c0 d

/-- PSETI (42_polynomial.md R192): StateError when PVALID = 0, else `C[0] <- G[ra]`. -/
def execPseti (ra : Reg) (s : State) : Result :=
  .next (if s.pvalid then (s.setC 0 (s.getG ra)).complete else s.raise .state)

/-- PEVAL (42_polynomial.md R193): StateError when PVALID = 0, else `G[rd] <- evaluate(C, PDEG, G[ra])`. -/
def execPeval (rd ra : Reg) (s : State) : Result :=
  .next <|
    if s.pvalid then (s.setG rd (evaluate s.params.poly s.polyCoefs (s.getG ra))).complete
    else s.raise .state

end Sys2Proof.Machine
end

