-- ==== Sys2Proof/Machine/Engine.lean ====
section
/-! DEFINITION. Machine/Engine.lean: coordinate sampling, share computation and Lagrange reconstruction (43_engine.md R212, R214,
R219), which SPLIT and COMBINE share with the streaming commands, and SPLIT and COMBINE themselves (R215, R217). -/

namespace Sys2Proof.Machine

/-- One byte position of ShareBlock (43_engine.md R214): the polynomial with intercept `b` and upper coefficients `coefs`, evaluated
at each coordinate and appended to the corresponding slice. -/
def appendColumn (poly : Poly) (xs coefs : List Byte) (ys : List (List Byte)) (b : Byte) : List (List Byte) :=
  List.zipWith (fun y x => y ++ [evaluate poly (b :: coefs) x]) ys xs

/-- In-memory shares written one after another from `a` on (43_engine.md R215, R216). -/
def Memory.storeShares : Memory → Nat → List (List Byte) → Memory
  | m, _, [] => m
  | m, a, sh :: shs => Memory.storeShares (m.storeAll a sh) (a + sh.length) shs

/-- The shares written to MEM from `a` on (43_engine.md R215, R216). -/
def State.writeShares (s : State) (a : Nat) (shares : List (List Byte)) : State := { s with mem := s.mem.storeShares a shares }

/-- `[S[k]] ++ y[k]` for every k (43_engine.md R216). -/
def sharesOf (xs : List Byte) (ys : List (List Byte)) : List (List Byte) := List.zipWith (fun x y => x :: y) xs ys

/-- The end of ShareBlock for a block of `n` bytes with slices `ys`: SPLIT writes its shares and completes (43_engine.md R215); SSPLIT
writes the slices to the parts, from part 0 on (44_streaming.md R255). -/
def State.finishBlock (s : State) (job : SplitJob) (xs : List Byte) (n : Nat) (ys : List (List Byte)) : State :=
  match job.target with
  | .mem dst secret =>
    ((s.writeShares dst (sharesOf xs ys)).setRlen (BitVec.ofNat 32 (job.n * (secret.length + 1)))).complete
  | .stream _ => s.goto (.sliceWrite job xs n ys 0)

/-- ShareBlock begins on a block (43_engine.md R214): "An empty block makes no draw". -/
def State.startBlock (s : State) (job : SplitJob) (xs block : List Byte) : State :=
  let ys := List.replicate job.n []
  match block with
  | [] => s.finishBlock job xs 0 ys
  | _ :: _ => s.goto (.coefDraw job xs { n := block.length, todo := block, coefs := [], ys := ys })

/-- A coefficient has been drawn (43_engine.md R214). Once a polynomial has its T - 1 upper coefficients, the per-byte policy shares the
current byte and starts the next one's polynomial; the per-block policy shares every byte of the block with them. -/
def State.coefDrawn (s : State) (job : SplitJob) (xs : List Byte) (sh : Sharing) (b : Byte) : State :=
  let coefs := sh.coefs ++ [b]
  if coefs.length < job.t - 1 then s.goto (.coefDraw job xs { sh with coefs := coefs })
  else
    match job.policy with
    | .perBlock => s.finishBlock job xs sh.n (sh.todo.foldl (appendColumn s.params.poly xs coefs) sh.ys)
    | .perByte =>
      let ys := appendColumn s.params.poly xs coefs sh.ys (sh.todo.headD 0)
      match sh.todo.tail with
      | [] => s.finishBlock job xs sh.n ys
      | rest => s.goto (.coefDraw job xs { sh with todo := rest, coefs := [], ys := ys })

/-- Sampling begins (43_engine.md R212): `XCOUNT <- 0 ; S <- []`, and the first DRAW is issued. -/
def State.startSampling (s : State) (job : SplitJob) : State := (s.setXcount 0).goto (.sampleDraw job [])

/-- Sampling has collected N coordinates: `XCOUNT <- N`, and the command goes on (43_engine.md R215: the secret is one block;
44_streaming.md R254: the header writes, from part 0 on). -/
def State.finishSampling (s : State) (job : SplitJob) (xs : List Byte) : State :=
  let s := s.setXcount job.n
  match job.target with
  | .mem _ secret => s.startBlock job xs secret
  | .stream _ => s.goto (.headerWrite job xs 0)

/-- One sampling attempt (43_engine.md R212): a zero or an already chosen byte is rejected and consumes the draw; an accepted one
becomes X[len(S)]. -/
def State.sampled (s : State) (job : SplitJob) (xs : List Byte) (b : Byte) : State :=
  if b = 0 ∨ b ∈ xs then s.goto (.sampleDraw job xs)
  else
    let xs' := xs ++ [b]
    let s := s.setX xs.length b
    if xs'.length < job.n then s.goto (.sampleDraw job xs') else s.finishSampling job xs'

/-- An answer to a DRAW of SampleCoords (43_engine.md R212, 60_exceptions.md R327). -/
def State.sampleAnswer (s : State) (job : SplitJob) (xs : List Byte) : EntropyAnswer → State
  | .fail => s.raise .entropy
  | .byte b => s.sampled job xs b

/-- An answer to a DRAW of ShareBlock (43_engine.md R214, 60_exceptions.md R327). -/
def State.coefAnswer (s : State) (job : SplitJob) (xs : List Byte) (sh : Sharing) : EntropyAnswer → State
  | .fail => s.raise .entropy
  | .byte b => s.coefDrawn job xs sh b

/-- SPLIT (43_engine.md R215): the checks in their order, the snapshot, `PVALID <- 0`, then sampling. -/
def execSplit (s : State) : Result :=
  .next <|
    if splitValid s.cfgN.toNat s.cfgT.toNat = false then s.raise .validation
    else if inRange s.params s.cfgSrc.toNat s.cfgLen.toNat = false then s.raise .bounds
    else if inRange s.params s.cfgDst.toNat (s.cfgN.toNat * (s.cfgLen.toNat + 1)) = false then s.raise .bounds
    else s.clearPvalid.startSampling s.splitJob

/-- The Lagrange basis product of share `i` at 0: the product over j ≠ i of (0 ⊕ x_j) / (x_i ⊕ x_j) (43_engine.md R219). The
coordinates are distinct there, so every divisor is non-zero (log 16). -/
def lagrangeBasis (poly : Poly) (xs : List Byte) (i : Nat) : Byte :=
  (xs.eraseIdx i).foldl (fun l xj => gfmul poly l (gfdivNonzero poly (gfadd 0 xj) (gfadd (xs.getD i 0) xj))) 1

/-- `Lagrange0(x, v)` (43_engine.md R219). -/
def lagrange0 (poly : Poly) (xs vs : List Byte) : Byte :=
  (List.range xs.length).foldl (fun acc i => gfadd acc (gfmul poly (vs.getD i 0) (lagrangeBasis poly xs i))) 0

/-- A block reconstructed byte by byte: out[i] = Lagrange0(x, [y[0][i], ..., y[K-1][i]]) for i < n (43_engine.md R217, 44_streaming.md
R262). -/
def combineBlock (poly : Poly) (xs : List Byte) (ys : List (List Byte)) (n : Nat) : List Byte :=
  (List.range n).map fun i => lagrange0 poly xs (ys.map fun y => y.getD i 0)

/-- "x[j] == x[k] for some j < k" (43_engine.md R217, 44_streaming.md R261). -/
def hasDuplicate : List Byte → Bool
  | [] => false
  | x :: xs => xs.contains x || hasDuplicate xs

/-- The descriptors, read and checked in ascending k, `count` of them from index `k` on (43_engine.md R217, R220 rows 3): the length
check of a share comes before its bounds check, and both before the next descriptor is read. -/
def State.readDescriptors (s : State) (tab k : Nat) : Nat → Except ErrorKind (List Descriptor)
  | 0 => .ok []
  | count + 1 =>
    let d := s.descriptor tab k
    if d.len = 0 then .error .validation
    else if inRange s.params d.addr d.len = false then .error .bounds
    else
      match State.readDescriptors s tab (k + 1) count with
      | .ok ds => .ok (d :: ds)
      | .error e => .error e

/-- COMBINE's effect once all checks have passed (43_engine.md R217): MEM[dst ..], X, XCOUNT and RLEN, then complete. -/
def State.finishCombine (s : State) (dst : Nat) (xs out : List Byte) : State :=
  ((((s.writeBytes dst out).setXs 0 xs).setXcount xs.length).setRlen (BitVec.ofNat 32 out.length)).complete

/-- COMBINE after the descriptors (43_engine.md R217, R220 rows 4 to 6). -/
def State.combineShares (s : State) (dst : Nat) (ds : List Descriptor) : State :=
  let n0 := (ds.map Descriptor.len).headD 0
  let len := n0 - 1
  if ds.any (fun d => d.len != n0) then s.raise .sizeMismatch
  else if inRange s.params dst len = false then s.raise .bounds
  else
    let xs := ds.map fun d => s.readByte d.addr
    let ys := ds.map fun d => s.readBytes (d.addr + 1) len
    if hasDuplicate xs then s.raise .arithmetic
    else s.finishCombine dst xs (combineBlock s.params.poly xs ys len)

/-- COMBINE (43_engine.md R217). -/
def execCombine (s : State) : Result :=
  .next <|
    let k := s.cfgK.toNat
    let tab := s.cfgSrc.toNat
    if combineCountValid k = false then s.raise .validation
    else if inRange s.params tab (8 * k) = false then s.raise .bounds
    else
      match s.readDescriptors tab 0 k with
      | .error e => s.raise e
      | .ok ds => s.combineShares s.cfgDst.toNat ds

end Sys2Proof.Machine
end

