-- ==== Sys2Proof/Machine/Streaming.lean ====
section
/-! DEFINITION. Machine/Streaming.lean: the streaming commands SSPLIT and SCOMB and their answers on the stream port
(44_streaming.md sections 1 to 3). An answer that is illegal for its request is an IOError (R250). -/

namespace Sys2Proof.Machine

/-- A legal CHUNK for READ(ch, max): 1 <= len(s) <= max (44_streaming.md R250). -/
def legalChunk (max : Nat) (bytes : List Byte) : Bool := decide (1 ≤ bytes.length) && decide (bytes.length ≤ max)

/-- SSPLIT (44_streaming.md R254): the checks, `PVALID <- 0 ; RLEN <- 0`, then sampling. -/
def execSsplit (s : State) : Result :=
  .next <|
    if splitValid s.cfgN.toNat s.cfgT.toNat = false then s.raise .validation
    else if blockValid s.params s.cfgBlock.toNat = false then s.raise .validation
    else (s.clearPvalid.setRlen 0).startSampling s.streamSplitJob

/-- The answer to the header WRITE of part k (44_streaming.md R254): the next header, or the first READ of CH_MAIN. -/
def State.headerWritten (s : State) (job : SplitJob) (xs : List Byte) (k : Nat) : StreamAnswer → State
  | .ok => if k + 1 < job.n then s.goto (.headerWrite job xs (k + 1)) else s.goto (.chunkRead job xs)
  | .err | .eof | .chunk _ => s.raise .io

/-- The answer to a READ of CH_MAIN (44_streaming.md R255): EOF completes the command, a chunk is shared as one block. -/
def State.chunkArrived (s : State) (job : SplitJob) (xs : List Byte) : StreamAnswer → State
  | .eof => s.complete
  | .chunk bytes => if legalChunk job.target.block bytes then s.startBlock job xs bytes else s.raise .io
  | .ok | .err => s.raise .io

/-- The answer to the slice WRITE of part k (44_streaming.md R255): the next slice, or the end of the round, which adds the chunk's
length to RLEN and reads CH_MAIN again. -/
def State.sliceWritten (s : State) (job : SplitJob) (xs : List Byte) (n : Nat) (ys : List (List Byte)) (k : Nat) :
    StreamAnswer → State
  | .ok =>
    if k + 1 < job.n then s.goto (.sliceWrite job xs n ys (k + 1))
    else (s.setRlen (s.rlen + BitVec.ofNat 32 n)).goto (.chunkRead job xs)
  | .err | .eof | .chunk _ => s.raise .io

/-- SCOMB (44_streaming.md R260, R261): the checks, `RLEN <- 0`, `XCOUNT <- 0`, then the header of part 0. -/
def execScomb (s : State) : Result :=
  .next <|
    if combineCountValid s.cfgK.toNat = false then s.raise .validation
    else if blockValid s.params s.cfgBlock.toNat = false then s.raise .validation
    else ((s.setRlen 0).setXcount 0).goto (.headerRead s.combJob [])

/-- The answer to a header READ (44_streaming.md R261): the byte becomes the part's coordinate; after the last one XCOUNT <- K and the
duplicate check follow. EOF is an IOError here. -/
def State.headerArrived (s : State) (job : CombJob) (xs : List Byte) : StreamAnswer → State
  | .chunk [b] =>
    let xs' := xs ++ [b]
    let s := s.setX xs.length b
    if xs'.length < job.k then s.goto (.headerRead job xs')
    else
      let s := s.setXcount job.k
      if hasDuplicate xs' then s.raise .arithmetic else s.goto (.partRead job xs' [])
  | .chunk _ | .eof | .ok | .err => s.raise .io

/-- Part 0 has ended (44_streaming.md R262, R263): under LEADER_ONLY the command completes, under SYMMETRIC the other parts are read. -/
def State.leaderEnded (s : State) (job : CombJob) : State :=
  match job.eofpol with
  | .leaderOnly => s.complete
  | .symmetric => s.goto (.endRead job 1)

/-- A chunk of the current round has been taken: the next part, or, after the last one, the reconstruction and its WRITE on CH_MAIN
(44_streaming.md R262). -/
def State.chunkTaken (s : State) (job : CombJob) (xs : List Byte) (chunks : List (List Byte)) : State :=
  if chunks.length < job.k then s.goto (.partRead job xs chunks)
  else s.goto (.mainWrite job xs (combineBlock s.params.poly xs chunks (chunks.headD []).length))

/-- The answer to a round's READ (44_streaming.md R262, R264): from part 0, EOF ends the stream; from a later part, EOF is a
PrematureEOFError and another length than part 0's a SizeMismatchError. -/
def State.partArrived (s : State) (job : CombJob) (xs : List Byte) (chunks : List (List Byte)) : StreamAnswer → State
  | .eof =>
    match chunks with
    | [] => s.leaderEnded job
    | _ :: _ => s.raise .prematureEof
  | .chunk bytes =>
    if legalChunk job.block bytes = false then s.raise .io
    else if bytes.length ≠ (chunks.headD bytes).length then s.raise .sizeMismatch
    else s.chunkTaken job xs (chunks ++ [bytes])
  | .ok | .err => s.raise .io

/-- The answer to a READ of SymmetricEnd (44_streaming.md R263): every other part must end too. -/
def State.endArrived (s : State) (job : CombJob) (k : Nat) : StreamAnswer → State
  | .eof => if k + 1 < job.k then s.goto (.endRead job (k + 1)) else s.complete
  | .chunk bytes => if legalChunk job.block bytes then s.raise .prematureEof else s.raise .io
  | .ok | .err => s.raise .io

/-- The answer to the WRITE on CH_MAIN (44_streaming.md R262): RLEN counts the round, and the next round begins with part 0. -/
def State.mainWritten (s : State) (job : CombJob) (xs out : List Byte) : StreamAnswer → State
  | .ok => (s.setRlen (s.rlen + BitVec.ofNat 32 out.length)).goto (.partRead job xs [])
  | .err | .eof | .chunk _ => s.raise .io

end Sys2Proof.Machine
end

