-- ==== Sys2Proof/Machine/Unit.lean ====
section
/-! DEFINITION. Machine/Unit.lean: the unit-control commands NOP and LDI (40_unit.md R143, R144). -/

namespace Sys2Proof.Machine

/-- NOP (40_unit.md R143): nothing, then complete. -/
def execNop (s : State) : Result := .next s.complete

/-- LDI (40_unit.md R144): `G[rd] <- imm8`, then complete. -/
def execLdi (rd : Reg) (imm : Byte) (s : State) : Result := .next (s.setG rd imm).complete

end Sys2Proof.Machine
end

