-- ==== Sys2Proof/Machine/Dispatch.lean ====
section
/-! DEFINITION. Machine/Dispatch.lean: one arm per command; each calls its meaning. -/

namespace Sys2Proof.Machine

def exec (i : Instr) (s : State) : Host.Outcome State Fault Refusal :=
  match i with
  | .nop => Sys2Proof.Machine.execNop s
  | .ldi rd imm => Sys2Proof.Machine.execLdi rd imm s
  | .gadd rd ra rb => Sys2Proof.Machine.execGadd rd ra rb s
  | .gmul rd ra rb => Sys2Proof.Machine.execGmul rd ra rb s
  | .gdiv rd ra rb => Sys2Proof.Machine.execGdiv rd ra rb s
  | .ginv rd ra => Sys2Proof.Machine.execGinv rd ra s
  | .pnew ra degree => Sys2Proof.Machine.execPnew ra degree s
  | .pseti ra => Sys2Proof.Machine.execPseti ra s
  | .peval rd ra => Sys2Proof.Machine.execPeval rd ra s
  | .split => Sys2Proof.Machine.execSplit s
  | .combine => Sys2Proof.Machine.execCombine s
  | .ssplit => Sys2Proof.Machine.execSsplit s
  | .scomb => Sys2Proof.Machine.execScomb s

end Sys2Proof.Machine
end

