-- ==== Sys2Proof/Machine/Ports.lean ====
section
/-! DEFINITION. Machine/Ports.lean: the host's register port (10_state.md R36-R51) and MEM port (20_memory.md R83), and the answers
on the entropy and stream ports, handed to the point of the FSM that waits for them. -/

namespace Sys2Proof.Machine

/-- The register map (10_state.md R37); "Address bits [1:0] are ignored" (R36). -/
def regAt (offset : BitVec 12) : RegName :=
  let word := offset.toNat / 4
  if word < 19 then
    match word with
    | 0 => .cmd
    | 1 => .status
    | 2 => .errcode
    | 3 => .ctrl
    | 4 => .cfgN
    | 5 => .cfgT
    | 6 => .cfgK
    | 7 => .cfgBlock
    | 8 => .cfgSrc
    | 9 => .cfgDst
    | 10 => .cfgLen
    | 11 => .rlen
    | 12 => .cmdcount
    | 13 => .xcount
    | 14 => .pdeg
    | 15 => .id
    | 16 => .polyreg
    | 17 => .memlast
    | _ => .blkmax
  else if 0x40 ≤ word ∧ word < 0x50 then .g (BitVec.ofNat 4 (word - 0x40))
  else if 0x100 ≤ word ∧ word < 0x1FF then .x (word - 0x100)
  else .reserved

/-- CTRL as the host reads it (10_state.md R41): IE, POLICY, EOFPOL from bit 0 up; bit 31 reads 0. -/
def State.ctrlWord (s : State) : Word :=
  (0#29 ++ BitVec.ofBool (s.eofpol == .symmetric) ++ BitVec.ofBool (s.policy == .perBlock) ++ BitVec.ofBool s.ie).setWidth 32

/-- Coordinate-table entry `k` (10_state.md R46). -/
def State.getX (s : State) (k : Nat) : Byte := s.x.toList.getD k 0

/-- What the register port returns for a register (10_state.md R37, R44, R49, R50). At or above XCOUNT a coordinate-table entry reads a
free byte (R46, log 5). -/
def State.readReg (s : State) : RegName → Word
  | .cmd      => 0
  | .status   => s.statusWord
  | .errcode  => s.errcode.setWidth 32
  | .ctrl     => s.ctrlWord
  | .cfgN     => s.cfgN.setWidth 32
  | .cfgT     => s.cfgT.setWidth 32
  | .cfgK     => s.cfgK.setWidth 32
  | .cfgBlock => s.cfgBlock
  | .cfgSrc   => s.cfgSrc
  | .cfgDst   => s.cfgDst
  | .cfgLen   => s.cfgLen
  | .rlen     => s.rlen
  | .cmdcount => s.cmdcount
  | .xcount   => s.xcount.setWidth 32
  | .pdeg     => s.pdeg.setWidth 32
  | .id       => 0x53535501
  | .polyreg  => s.params.poly.bits.setWidth 32
  | .memlast  => s.params.memLast
  | .blkmax   => BitVec.ofNat 32 s.params.blockMax
  | .g i      => (s.getG i).setWidth 32
  | .x k      => if k < s.xcount.toNat then (s.getX k).setWidth 32 else (Config.freeByte s.freeCount).setWidth 32
  | .reserved => 0

/-- A read of an entry at or above XCOUNT takes a free byte, so that each such read is a draw of its own (10_state.md R46, log 5). -/
def State.countFree (s : State) : RegName → State
  | .x k => if k < s.xcount.toNat then s else { s with freeCount := s.freeCount + 1 }
  | _    => s

/-- A host read of the register port (10_state.md R36, R51): carried out even while BUSY, with no side effect on the unit (20_memory.md
R88); the value is recorded (log 21). -/
def State.hostRead (s : State) (offset : BitVec 12) : State :=
  (s.countFree (regAt offset)).log (.regRead offset (s.readReg (regAt offset)))

/-- The registers whose writes are dropped while BUSY = 1: "CMD, CFG_*, G[g], or CTRL with SRST = 0" (10_state.md R51). -/
def RegName.dropsWhenBusy : RegName → Bool
  | .cmd | .ctrl | .cfgN | .cfgT | .cfgK | .cfgBlock | .cfgSrc | .cfgDst | .cfgLen | .g _ => true
  | .status | .errcode | .rlen | .cmdcount | .xcount | .pdeg | .id | .polyreg | .memlast | .blkmax | .x _ | .reserved => false

/-- A register write that is carried out (10_state.md R37, R41-R43, R49, R50): the low bits are stored, with no check. A write to a
read-only or reserved offset is ignored. CMD and a CTRL write with SRST = 1 are not register writes of this kind. -/
def State.storeReg (s : State) (w : Word) : RegName → State
  | .status   => s.clearStatus w
  | .ctrl     =>
    { s with
      ie := w.getLsbD 0
      policy := if w.getLsbD 1 then .perBlock else .perByte
      eofpol := if w.getLsbD 2 then .symmetric else .leaderOnly }
  | .cfgN     => { s with cfgN := w.setWidth 8 }
  | .cfgT     => { s with cfgT := w.setWidth 8 }
  | .cfgK     => { s with cfgK := w.setWidth 8 }
  | .cfgBlock => { s with cfgBlock := w }
  | .cfgSrc   => { s with cfgSrc := w }
  | .cfgDst   => { s with cfgDst := w }
  | .cfgLen   => { s with cfgLen := w }
  | .g i      => s.setG i (w.setWidth 8)
  | .cmd | .errcode | .rlen | .cmdcount | .xcount | .pdeg | .id | .polyreg | .memlast | .blkmax | .x _ | .reserved => s

/-- A host write of the register port to a register other than CMD (10_state.md R41, R51): SRST always resets; while BUSY a write that
is not exempt is dropped; otherwise it is carried out. -/
def State.hostWrite (s : State) (r : RegName) (w : Word) : State :=
  if r = .ctrl ∧ w.getLsbD 31 then s.softReset
  else if s.busy && r.dropsWhenBusy then s.dropWrite
  else s.storeReg w r

/-- A MEM-port transaction that is carried out (20_memory.md R83): at or above MEM_BYTES a read returns 0x00 and a write is ignored. -/
def State.carryOut (s : State) : MemTxn → State
  | .read a => s.log (.memRead a (if a.toNat < s.params.memBytes then s.readByte a.toNat else 0))
  | .write a v => if a.toNat < s.params.memBytes then s.writeByte a.toNat v else s

/-- A MEM-port transaction of the host: held while SPLIT executes (20_memory.md R92), else carried out. -/
def State.memAccess (s : State) (t : MemTxn) : State :=
  if s.memHeld then s.withHeld (s.heldMem ++ [t]) else s.carryOut t

/-- An entropy-port answer at the point of the FSM that waits for it (40_unit.md R140); with no DRAW outstanding it is ignored
(70_reset_and_hazards.md R341). -/
def State.entropyAnswer (s : State) (a : EntropyAnswer) : State :=
  match s.fsm with
  | .polyDraw c0 d i => (s.log (.draw a)).polyAnswer c0 d i a
  | .sampleDraw job xs => (s.log (.draw a)).sampleAnswer job xs a
  | .coefDraw job xs sh => (s.log (.draw a)).coefAnswer job xs sh a
  | .idle | .headerWrite _ _ _ | .chunkRead _ _ | .sliceWrite _ _ _ _ _ | .headerRead _ _ | .partRead _ _ _
  | .endRead _ _ | .mainWrite _ _ _ => s

/-- A stream-port answer at the point of the FSM that waits for it (40_unit.md R140). -/
def State.streamResponse (s : State) (a : StreamAnswer) : State :=
  match s.fsm with
  | .headerWrite job xs k => s.headerWritten job xs k a
  | .chunkRead job xs => s.chunkArrived job xs a
  | .sliceWrite job xs n ys k => s.sliceWritten job xs n ys k a
  | .headerRead job xs => s.headerArrived job xs a
  | .partRead job xs chunks => s.partArrived job xs chunks a
  | .endRead job k => s.endArrived job k a
  | .mainWrite job xs out => s.mainWritten job xs out a
  | .idle | .polyDraw _ _ _ | .sampleDraw _ _ | .coefDraw _ _ _ => s

/-- A stream-port answer (44_streaming.md R250): recorded with the request it answers, then taken; with no stream request outstanding
it is ignored (70_reset_and_hazards.md R341). -/
def State.streamAnswer (s : State) (a : StreamAnswer) : State :=
  match s.request with
  | some (.stream r) => (s.log (.stream r a)).streamResponse a
  | some .draw | none => s

/-- The bytes one record of the ports put on channel `ch`: those of a WRITE that the host answered OK (44_streaming.md R250). That a WRITE
answered otherwise, or withdrawn by a reset, counts for none is the model's choice (DESIGN CHOICE, log 12). -/
def Transaction.bytesOn (ch : Channel) : Transaction → List Byte
  | .stream (.write c bytes) .ok => if c = ch then bytes else []
  | .stream (.write _ _) (.chunk _) | .stream (.write _ _) .eof | .stream (.write _ _) .err => []
  | .stream (.read _ _) _ | .draw _ | .regRead _ _ | .memRead _ _ => []

/-- The byte transcript of channel `ch` (40_unit.md R147): every byte the unit has written to it, in order (20_memory.md R97). -/
def State.channelBytes (s : State) (ch : Channel) : List Byte := s.trace.flatMap (Transaction.bytesOn ch)

end Sys2Proof.Machine
end

