-- ==== Sys2Proof/Machine/Events.lean ====
section
/-! DEFINITION. Machine/Events.lean: a command word is accepted and run (40_unit.md R141), an event is handled (R140), and the next
event is chosen (log 7, log 9). -/

namespace Sys2Proof.Machine

/-- A host write of `w` to CMD (40_unit.md R141, 10_state.md R38, R51): dropped while BUSY = 1; otherwise accepted, decoded, and run or
ended with IllegalCommand. -/
def State.submit (s : State) (w : Word) : Result :=
  if s.busy then .next s.dropWrite
  else
    match decode w with
    | .ok i => exec i (s.accept w)
    | .error _ => .next ((s.accept w).raise .illegalCommand)

/-- A host write of the register port (10_state.md R36, R37). -/
def State.regWrite (s : State) (offset : BitVec 12) (w : Word) : Result :=
  match regAt offset with
  | .cmd => s.submit w
  | r => .next (s.hostWrite r w)

/-- The oldest waiting MEM transaction, if there is one and no SPLIT holds it, is carried out (20_memory.md R92). -/
def State.releaseHeld (s : State) : State :=
  match s.heldMem with
  | [] => s
  | t :: rest => if s.memHeld then s else (s.withHeld rest).carryOut t

/-- One event (40_unit.md R140). A late answer is ignored (70_reset_and_hazards.md R341, log 10). -/
def State.handle (s : State) : Event → Result
  | .rst => .next s.hardReset
  | .regWrite offset w => s.regWrite offset w
  | .regRead offset => .next (s.hostRead offset)
  | .memPort t => .next (s.memAccess t)
  | .entropy a => .next (s.entropyAnswer a)
  | .stream a => .next (s.streamAnswer a)
  | .lateEntropy _ => .next s
  | .lateStream _ => .next s
  | .memStep => .next s.releaseHeld

/-- The next input of the agenda; with none left the unit stays as it is: idle (60_exceptions.md R323), or waiting for an answer that
does not come (R328, log 8). -/
def State.nextEvent (s : State) : Result :=
  match s.agenda with
  | [] => .next s
  | e :: rest => (s.withAgenda rest).handle e

/-- The events that no released MEM transaction comes before: both resets, which are never "dropped or delayed"
(70_reset_and_hazards.md R340), and `memStep`, which is such a transaction's own place (log 9). -/
def Event.goesFirst : Event → Bool
  | .rst => true
  | .regWrite offset w => decide (regAt offset = .ctrl) && w.getLsbD 31
  | .memStep => true
  | .regRead _ | .memPort _ | .entropy _ | .stream _ | .lateEntropy _ | .lateStream _ => false

/-- A MEM transaction waits whose hold has been lifted, and the next event is none that goes first (20_memory.md R92, log 9). -/
def State.releaseFirst (s : State) : Bool :=
  !s.heldMem.isEmpty && !s.memHeld && !(s.agenda.head?.any Event.goesFirst)

/-- One step: a MEM transaction whose hold has been lifted is carried out first, oldest first (20_memory.md R92, log 9), but never before
a reset; otherwise the next event is handled. -/
def State.advance (s : State) : Result :=
  if s.releaseFirst then .next s.releaseHeld else s.nextEvent

/-- The state in which the very next step accepts the command word `w` (log 7): the unit idle, no released MEM transaction before it, and
the host's write of `w` to CMD first on the agenda. -/
def State.withCommand (s : State) (w : Word) : State :=
  ((s.goto .idle).withHeld []).withAgenda (.regWrite 0x000 w :: s.agenda)

end Sys2Proof.Machine
end

