-- ==== Sys2Proof/Machine/Step.lean ====
section
/-! DEFINITION. Machine/Step.lean: one step of the machine, and the host's way to place a command (log 7). -/

namespace Sys2Proof.Machine

/-- One step (40_unit.md R140): one event, or one released MEM transaction. -/
def step (s : State) : Host.Outcome State Fault Refusal := s.advance

/-- `s` with the command whose word is `w` (bits at or above `nbits` zero) as the next command the host writes to CMD. -/
def State.withFetchWord (s : State) (nbits w : Nat) : State := s.withCommand (BitVec.ofNat 32 (w % 2 ^ nbits))

end Sys2Proof.Machine
end

