-- ==== Sys2Proof/Machine/HostDuties.lean ====
section
/-! DEFINITION. Machine/HostDuties.lean: the host table (44_streaming.md section 4, R280-R289): what the host-side driver does around
SSPLIT and SCOMB. It is an input of the unit, not part of it: these functions say which checks a host that does its duties makes, which
files it opens and closes, which answers it gives and what it reports (log 17, log 22, log 23). A name or pattern is a list of characters; the
file system itself is out of scope (00_scope.md R5). -/

namespace Sys2Proof.Machine

/-- Whether a pattern contains `%i` (44_streaming.md R280). -/
def hasToken : List Char → Bool
  | [] => false
  | c :: cs => (c == '%' && cs.head? == some 'i') || hasToken cs

/-- "fails with ValidationError if the pattern is non-empty and contains no `%i`" (44_streaming.md R280). -/
def splitPatternOk (pattern : List Char) : Bool := pattern.isEmpty || hasToken pattern

/-- "An empty pattern means `%i` at both split and combine" (44_streaming.md R282). -/
def effectivePattern (pattern : List Char) : List Char := if pattern.isEmpty then ['%', 'i'] else pattern

/-- Decimal digits of a number below 10^fuel, without leading zeros (44_streaming.md R281). -/
def decimalDigits : Nat → Nat → List Char
  | 0, _ => []
  | fuel + 1, n => (if n / 10 = 0 then [] else decimalDigits fuel (n / 10)) ++ [Char.ofNat (48 + n % 10)]

/-- Every occurrence of `%i` replaced by `digits` (44_streaming.md R281); `skip` says that the `i` of a token comes next. -/
def substituteToken (digits : List Char) : Bool → List Char → List Char
  | _, [] => []
  | true, _ :: cs => substituteToken digits false cs
  | false, c :: cs =>
    if c == '%' && cs.head? == some 'i' then digits ++ substituteToken digits true cs
    else c :: substituteToken digits false cs

/-- The file name of CH_PART(k) (44_streaming.md R281): the index k+1 put for every token. -/
def partFileName (pattern : List Char) (k : Nat) : List Char :=
  substituteToken (decimalDigits 10 (k + 1)) false (effectivePattern pattern)

/-- ASCII digits '0'..'9' (44_streaming.md R283). -/
def isAsciiDigit (c : Char) : Bool := decide (48 ≤ c.toNat) && decide (c.toNat ≤ 57)

/-- `collapse(name)`: every maximal run of ASCII digits replaced by `%i` (44_streaming.md R283). -/
def collapse : List Char → List Char
  | [] => []
  | c :: cs =>
    if isAsciiDigit c then
      (if (cs.head?.map isAsciiDigit).getD false then [] else ['%', 'i']) ++ collapse cs
    else c :: collapse cs

/-- `matches(name, pattern)`: "the pattern itself is not collapsed" (44_streaming.md R283). -/
def nameMatches (name pattern : List Char) : Bool := collapse name == effectivePattern pattern

/-- A directory entry as the host lists it; `opens` says whether opening it succeeds. -/
structure DirEntry where
  name      : List Char
  directory : Bool
  bytes     : List Byte
  opens     : Bool
  deriving DecidableEq, Repr

/-- Discovery (44_streaming.md R283, R284): the matched non-directory entries, in the listing's own order, which is the OPEN parameter
DISCOVERY_ORDER (00_scope.md R6): any list may be given. `combineFiles` maps CH_PART(k) to entry k. -/
def discover (pattern : List Char) (listing : List DirEntry) : List DirEntry :=
  listing.filter fun e => !e.directory && nameMatches e.name pattern

/-- All matched files have identical byte size (44_streaming.md R285). -/
def sameSize (found : List DirEntry) : Bool :=
  found.all fun e => e.bytes.length == ((found.map fun f => f.bytes.length).headD 0)

/-- A regular file, or a stream that is none, such as the "standard input" and "standard output" sentinels (44_streaming.md R286, R287). -/
inductive StreamKind where
  | regular
  | standard
  deriving DecidableEq, Repr

/-- What CH_MAIN is to be connected to (44_streaming.md R286): its kind, the bytes it gives as an input or holds as an output, and
whether opening it succeeds. -/
structure MainStream where
  kind  : StreamKind
  bytes : List Byte
  opens : Bool
  deriving DecidableEq, Repr

/-- What stops the host before it issues SSPLIT, if anything: the pattern (44_streaming.md R280), the input (R286). The spec gives no order
of the two; the model's choice is the pattern first (DESIGN CHOICE, log 17). -/
def splitHostError (pattern : List Char) (input : MainStream) : Option ErrorKind :=
  if splitPatternOk pattern = false then some .validation
  else if input.opens = false then some .io
  else none

/-- What stops the host before it issues SCOMB, if anything (44_streaming.md R284-R286): more than 255 matches cannot be held by CFG_K;
every match must open; all must have the same size; the output must open. "opens every match, requires all matched files to have
identical byte size" gives two of them in this order; the rest of the order is the model's choice (DESIGN CHOICE, log 17). -/
def combineHostError (found : List DirEntry) (output : MainStream) : Option ErrorKind :=
  if 255 < found.length then some .validation
  else if found.all (fun e => e.opens) = false then some .io
  else if sameSize found = false then some .sizeMismatch
  else if output.opens = false then some .io
  else none

/-- The host's writes that issue SSPLIT (70_reset_and_hazards.md R349): CFG_N, CFG_T, CFG_BLOCK, then the command word. -/
def ssplitScript (n t : Byte) (block : Word) : List Event :=
  [.regWrite 0x010 (n.setWidth 32), .regWrite 0x014 (t.setWidth 32), .regWrite 0x01C block, .regWrite 0x000 0x40000000]

/-- The host's writes that issue SCOMB over the matched entries (44_streaming.md R284): CFG_K is their number. -/
def scombScript (found : List DirEntry) (block : Word) : List Event :=
  [.regWrite 0x018 (BitVec.ofNat 32 found.length), .regWrite 0x01C block, .regWrite 0x000 0x41000000]

/-- A file or stream behind a channel (44_streaming.md R286, R287): the bytes still to be read, its contents as an output, and whether the
host holds a handle of it. An output that is not open has not been created or truncated by this operation. -/
structure HostFile where
  name    : List Char
  kind    : StreamKind
  unread  : List Byte
  written : List Byte
  isOpen  : Bool
  deriving DecidableEq, Repr

/-- The file of one matched entry, opened for reading (44_streaming.md R286). The spec allows "a file changing during the command" (R268);
that this host's file does not change, so that the READs give exactly the bytes whose number `sameSize` compared, is the model's choice
(DESIGN CHOICE, log 23). -/
def DirEntry.openInput (e : DirEntry) : HostFile :=
  { name := e.name, kind := .regular, unread := e.bytes, written := [], isOpen := true }

/-- The input of a split, opened before SSPLIT is issued (44_streaming.md R286). -/
def MainStream.openInput (m : MainStream) : HostFile :=
  { name := [], kind := m.kind, unread := m.bytes, written := [], isOpen := true }

/-- The output of a combine, opened before SCOMB is issued (44_streaming.md R286): a file starts empty (log 22), a standard stream keeps what
it has carried. -/
def MainStream.openOutput (m : MainStream) : HostFile where
  name := []
  kind := m.kind
  unread := []
  written := match m.kind with
    | .regular => []
    | .standard => m.bytes
  isOpen := true

/-- The output file of CH_PART(k), not created yet (44_streaming.md R280, R281, R286). -/
def partOutput (pattern : List Char) (k : Nat) : HostFile :=
  { name := partFileName pattern k, kind := .regular, unread := [], written := [], isOpen := false }

/-- The files behind the channels: CH_MAIN, if it is connected, and CH_PART(k), the k-th of `parts` (44_streaming.md R251). -/
structure HostFiles where
  main  : Option HostFile
  parts : List HostFile
  deriving DecidableEq, Repr

/-- No file behind any channel. -/
def HostFiles.empty : HostFiles := { main := none, parts := [] }

/-- The files of a split of N parts (44_streaming.md R286): its input is open, its outputs are created at their first WRITE. -/
def splitFiles (pattern : List Char) (n : Nat) (input : MainStream) : HostFiles :=
  { main := some input.openInput, parts := (List.range n).map (partOutput pattern) }

/-- The files of a combine: CH_PART(k) is entry k (44_streaming.md R284), and every match and the output are open (R286). -/
def combineFiles (found : List DirEntry) (output : MainStream) : HostFiles :=
  { main := some output.openOutput, parts := found.map DirEntry.openInput }

/-- A handle is held. -/
def HostFiles.handlesOpen (h : HostFiles) : Bool := h.main.any HostFile.isOpen || h.parts.any HostFile.isOpen

/-- A handle is released; "Closing never deletes a file" (44_streaming.md R288). -/
def HostFile.close (f : HostFile) : HostFile := { f with isOpen := false }

/-- Every handle is released (44_streaming.md R288). -/
def HostFiles.closeAll (h : HostFiles) : HostFiles :=
  { main := h.main.map HostFile.close, parts := h.parts.map HostFile.close }

/-- What the host may choose in one answer (44_streaming.md R287, R289): the CHUNK length for a stream that is no regular file; or that
opening, creating or using the file has really failed, and then whether the file had been reached and how many bytes of a WRITE had
landed in it, which the spec leaves to the host (log 22). -/
inductive HostChoice where
  | answer (chunk : Nat)
  | fail (landed : Option Nat)
  deriving DecidableEq, Repr

/-- How many bytes a CHUNK takes from those that remain: up to max for a regular file, the host's choice from 1 to max otherwise
(44_streaming.md R287). -/
def StreamKind.chunkLength (kind : StreamKind) (chunk max : Nat) : Nat :=
  match kind with
  | .regular => max
  | .standard => Nat.max 1 (Nat.min chunk max)

/-- READ (44_streaming.md R287): a CHUNK while bytes remain, then EOF; a failure is ERR. A file with no handle cannot be read. What a READ
that fails takes from its stream the spec does not say; that it takes no byte is the model's choice (DESIGN CHOICE, log 22). -/
def HostFile.answerRead (f : HostFile) (choice : HostChoice) (max : Nat) : StreamAnswer × HostFile :=
  match choice with
  | .fail _ => (.err, f)
  | .answer chunk =>
    if f.isOpen = false then (.err, f)
    else
      match f.unread with
      | [] => (.eof, f)
      | _ :: _ =>
        let n := f.kind.chunkLength chunk max
        (.chunk (f.unread.take n), { f with unread := f.unread.drop n })

/-- Bytes appended; the first WRITE on a file that is not open creates or truncates it (44_streaming.md R286, R287). -/
def HostFile.append (f : HostFile) (bytes : List Byte) : HostFile :=
  { f with isOpen := true, written := (if f.isOpen then f.written else []) ++ bytes }

/-- WRITE (44_streaming.md R286, R287): all the bytes are appended, then OK; a failure is ERR. -/
def HostFile.answerWrite (f : HostFile) (choice : HostChoice) (bytes : List Byte) : StreamAnswer × HostFile :=
  match choice with
  | .answer _ => (.ok, f.append bytes)
  | .fail none => (.err, f)
  | .fail (some n) => (.err, f.append (bytes.take n))

/-- The host's answer about one file. -/
def HostFile.answerTo (f : HostFile) (choice : HostChoice) : StreamRequest → StreamAnswer × HostFile
  | .read _ max => f.answerRead choice max
  | .write _ bytes => f.answerWrite choice bytes

/-- The channel of a request. -/
def StreamRequest.channel : StreamRequest → Channel
  | .read ch _ => ch
  | .write ch _ => ch

/-- The file behind a channel, if there is one. -/
def HostFiles.file (h : HostFiles) : Channel → Option HostFile
  | .main => h.main
  | .part k => h.parts[k]?

/-- The file behind a channel changed. -/
def HostFiles.setFile (h : HostFiles) (f : HostFile) : Channel → HostFiles
  | .main => { h with main := some f }
  | .part k => { h with parts := h.parts.set k f }

/-- The host's one answer to a request (44_streaming.md R287, R289); a channel with no file answers ERR. -/
def HostFiles.serve (h : HostFiles) (choice : HostChoice) (r : StreamRequest) : StreamAnswer × HostFiles :=
  match h.file r.channel with
  | none => (.err, h)
  | some f => ((f.answerTo choice r).1, h.setFile (f.answerTo choice r).2 r.channel)

/-- What the host reports to its caller when a top-level operation ends (44_streaming.md R289). After a reset there is no error to name, and
the model reports `aborted` (log 22). -/
inductive Report where
  | success
  | failed (e : ErrorKind)
  | aborted
  deriving DecidableEq, Repr

/-- The error kind of a code (60_exceptions.md R301). -/
def ErrorKind.ofCode (code : BitVec 8) : Option ErrorKind :=
  [ErrorKind.validation, .arithmetic, .entropy, .sizeMismatch, .prematureEof, .io, .illegalCommand, .state, .bounds].find?
    fun e => e.code == code

/-- The report of an idle unit's last command: DONE, ERR with its ERRCODE, or neither, after a reset. -/
def State.report (s : State) : Report :=
  if s.done then .success
  else
    match s.err, ErrorKind.ofCode s.errcode with
    | true, some e => .failed e
    | true, none | false, _ => .aborted

/-- The unit, the files and the entropy source together; whether an operation of the host is in progress; and what the host reported of
the last one that ended. -/
structure Served where
  unit    : State
  files   : HostFiles
  entropy : List EntropyAnswer
  running : Bool
  report  : Option Report
  deriving DecidableEq, Repr

/-- The state an event leads to. -/
def stateAfter (s : State) : Result → State
  | .next t => t
  | .fault f => nomatch f
  | .refused _ => s

/-- The unit handles an event. -/
def Served.give (v : Served) (e : Event) : Served := { v with unit := stateAfter v.unit (v.unit.handle e) }

/-- The end of an operation (44_streaming.md R288, R289): as soon as the unit is idle, by DONE, ERR or a reset, every handle is released,
then the host reports to its caller. -/
def Served.settle (v : Served) : Served :=
  if v.running && !v.unit.busy then { v with files := v.files.closeAll, running := false, report := some v.unit.report }
  else v

/-- The host has opened these files and issues its command; a command that ends at once ends the operation. -/
def Served.issue (v : Served) (files : HostFiles) (script : List Event) : Served :=
  (script.foldl Served.give { v with files := files, running := true }).settle

/-- The host's own error before it issues a command (44_streaming.md R280, R284-R286): what it had acquired is released before the error
reaches the caller (R288), and the unit sees nothing. -/
def Served.refuse (v : Served) (acquired : HostFiles) (e : ErrorKind) : Served :=
  { v with files := acquired.closeAll, running := false, report := some (.failed e) }

/-- The split operation (44_streaming.md R280-R282, R286): the host waits while the unit is busy (70_reset_and_hazards.md R349). -/
def Served.split (v : Served) (pattern : List Char) (n t : Byte) (block : Word) (input : MainStream) : Served :=
  if v.unit.busy then v
  else
    match splitHostError pattern input with
    | some e => v.refuse HostFiles.empty e
    | none => v.issue (splitFiles pattern n.toNat input) (ssplitScript n t block)

/-- The combine operation (44_streaming.md R283-R286). On an error the matches that did open are released again and the output has not
been touched. -/
def Served.combine (v : Served) (pattern : List Char) (listing : List DirEntry) (block : Word) (output : MainStream) : Served :=
  if v.unit.busy then v
  else
    let found := discover pattern listing
    match combineHostError found output with
    | some e =>
      v.refuse { main := none, parts := (found.filter fun f => f.opens).map DirEntry.openInput } e
    | none => v.issue (combineFiles found output) (scombScript found block)

/-- One request answered by a host that does its duties (44_streaming.md R289), with its choice, and by an entropy source with the given
answers. With no request, or no entropy answer left, nothing changes: the latter is a hang. -/
def Served.serve (v : Served) (choice : HostChoice) : Served :=
  match v.unit.request with
  | none => v
  | some .draw =>
    match v.entropy with
    | [] => v
    | a :: rest => ({ v with entropy := rest }.give (.entropy a)).settle
  | some (.stream r) =>
    ({ v with files := (v.files.serve choice r).2 }.give (.stream (v.files.serve choice r).1)).settle

/-- Requests answered one after another, one per choice. -/
def Served.serveMany (v : Served) (choices : List HostChoice) : Served := choices.foldl Served.serve v

/-- The files after a reset has withdrawn the outstanding request. Only bytes "it already wrote" survive for certain
(70_reset_and_hazards.md R341); whether those of a WRITE still outstanding have reached the file, also when its OK comes late, the spec
leaves open, and here it is the host's choice, `landed` (DESIGN CHOICE, log 22). The unit's own transcript counts none of them (log 12). That a withdrawn READ
takes no byte from its stream is the model's choice too (DESIGN CHOICE, log 22). -/
def HostFiles.withdraw (h : HostFiles) (landed : Option Nat) : Option Request → HostFiles
  | some (.stream r) => (h.serve (.fail landed) r).2
  | some .draw | none => h

/-- The unit is reset, by rst or by the host (70_reset_and_hazards.md R340): its request is withdrawn and an operation in progress ends
(44_streaming.md R288). What a WRITE outstanding then leaves in its file is the model's choice that `HostFiles.withdraw` marks (log 22). -/
def Served.reset (v : Served) (hard : Bool) (landed : Option Nat) : Served :=
  ({ v with files := v.files.withdraw landed v.unit.request }.give (if hard then .rst else .regWrite 0x00C 0x80000000)).settle

end Sys2Proof.Machine
end

