-- ==== Sys2Proof/Safety.lean ====
section
/-! DEFINITION. Safety.lean: what claims are stated in: which registers a command reads (10_state.md R32) and when they are defined
(R31), when a run has ended (40_unit.md R147), the invariant of the machine, and the reference functions that the spec's rules name. -/

namespace Sys2Proof.Machine

/-- The G registers a command reads (10_state.md R32). -/
def sourcesOf : Instr → List Reg
  | .nop | .ldi _ _ | .split | .combine | .ssplit | .scomb => []
  | .gadd _ ra rb | .gmul _ ra rb | .gdiv _ ra rb => [ra, rb]
  | .ginv _ ra | .peval _ ra => [ra]
  | .pnew ra _ | .pseti ra => [ra]

/-- The G register a command writes on success (10_state.md R32). -/
def destOf : Instr → Option Reg
  | .ldi rd _ | .gadd rd _ _ | .gmul rd _ _ | .gdiv rd _ _ | .ginv rd _ | .peval rd _ => some rd
  | .nop | .pnew _ _ | .pseti _ | .split | .combine | .ssplit | .scomb => none

/-- G[i] has been written since hard reset. -/
def State.gDefined (s : State) (i : Reg) : Bool := s.gWritten.getLsbD i.toNat

/-- A command that reads only written registers: outside this the spec leaves the value read unspecified (10_state.md R31, R344, log 3),
and a claim about the chip must assume it. -/
def State.definedFor (s : State) (i : Instr) : Bool := (sourcesOf i).all s.gDefined

/-- A run of a host program has ended (40_unit.md R147): nothing left to carry out, the unit idle, no held MEM transaction. -/
def State.runEnded (s : State) : Bool := s.agenda.isEmpty && !s.busy && s.heldMem.isEmpty

/-- The next step takes the event `e` and leaves `rest` on the agenda: `e` comes next, and no released MEM transaction comes before it
(20_memory.md R92, log 9); none ever comes before a reset (70_reset_and_hazards.md R340). -/
def State.eventIsNext (s : State) (e : Event) (rest : List Event) : Prop :=
  s.agenda = e :: rest ∧ (s.heldMem = [] ∨ s.memHeld = true ∨ e.goesFirst = true)

/-- Coordinates of one split: pairwise distinct and non-zero (43_engine.md R213). -/
def coordinatesOk (xs : List Byte) : Prop := xs.Nodup ∧ (0 : Byte) ∉ xs

/-- The latched operands of a split that passed its checks (43_engine.md R215, 44_streaming.md R254). -/
def SplitJob.wf (p : Params) (job : SplitJob) : Prop :=
  2 ≤ job.t ∧ job.t ≤ job.n ∧ job.n ≤ 255 ∧
    match job.target with
    | .mem dst secret => dst + job.n * (secret.length + 1) ≤ p.memBytes
    | .stream block => 1 ≤ block ∧ block ≤ p.blockMax

/-- The latched operands of SCOMB that passed its checks (44_streaming.md R260). -/
def CombJob.wf (p : Params) (job : CombJob) : Prop :=
  2 ≤ job.k ∧ job.k ≤ 254 ∧ 1 ≤ job.block ∧ job.block ≤ p.blockMax

/-- A split that streams. -/
def SplitJob.streams (job : SplitJob) : Prop :=
  match job.target with
  | .mem _ _ => False
  | .stream _ => True

/-- The hidden data of each point of the FSM is as the command's pseudocode leaves it. -/
def Fsm.wf (p : Params) : Fsm → Prop
  | .idle => True
  | .polyDraw _ d i => 1 ≤ i ∧ i ≤ d ∧ d ≤ 254
  | .sampleDraw job xs => job.wf p ∧ coordinatesOk xs ∧ xs.length < job.n
  | .coefDraw job xs sh =>
    job.wf p ∧ coordinatesOk xs ∧ xs.length = job.n ∧ sh.todo ≠ [] ∧ sh.coefs.length < job.t - 1 ∧ sh.ys.length = job.n ∧
      (∀ y ∈ sh.ys, y.length + sh.todo.length = sh.n) ∧
      match job.target with
      | .mem _ secret => sh.n = secret.length
      | .stream block => sh.n ≤ block
  | .headerWrite job xs k => job.wf p ∧ job.streams ∧ coordinatesOk xs ∧ xs.length = job.n ∧ k < job.n
  | .chunkRead job xs => job.wf p ∧ job.streams ∧ coordinatesOk xs ∧ xs.length = job.n
  | .sliceWrite job xs n ys k =>
    job.wf p ∧ job.streams ∧ coordinatesOk xs ∧ xs.length = job.n ∧ k < job.n ∧ ys.length = job.n ∧
      1 ≤ n ∧ n ≤ job.target.block ∧ ∀ y ∈ ys, y.length = n
  | .headerRead job xs => job.wf p ∧ xs.length < job.k
  | .partRead job xs chunks =>
    job.wf p ∧ xs.Nodup ∧ xs.length = job.k ∧ chunks.length < job.k ∧
      ∀ c ∈ chunks, c.length = (chunks.headD []).length ∧ 1 ≤ c.length ∧ c.length ≤ job.block
  | .endRead job k => job.wf p ∧ job.eofpol = .symmetric ∧ 1 ≤ k ∧ k < job.k
  | .mainWrite job xs out => job.wf p ∧ xs.Nodup ∧ xs.length = job.k ∧ 1 ≤ out.length ∧ out.length ≤ job.block

/-- MEM is in canonical form and lists only addresses that exist (20_memory.md R81). -/
def State.memOk (s : State) : Prop := s.mem.wf = true ∧ ∀ c ∈ s.mem, c.1 < s.params.memBytes

/-- The invariant of the machine. -/
structure State.Inv (s : State) : Prop where
  mem      : s.memOk
  oneEnd   : ¬(s.done = true ∧ s.err = true)
  busyOpen : s.busy = true → s.done = false ∧ s.err = false
  codes    : s.errcode.toNat ≤ 9
  errCode  : s.err = true → s.errcode ≠ 0
  doneCode : s.done = true → s.errcode = 0
  xcount   : s.xcount.toNat ≤ 255
  pdeg     : s.pdeg.toNat ≤ 254
  fsm      : s.fsm.wf s.params

/-- The points of the FSM at which a command that clears PVALID is executing: PNEW, SPLIT, SSPLIT. -/
def Fsm.clearsPvalid : Fsm → Bool
  | .polyDraw _ _ _ | .sampleDraw _ _ | .coefDraw _ _ _ | .headerWrite _ _ _ | .chunkRead _ _ | .sliceWrite _ _ _ _ _ => true
  | .idle | .headerRead _ _ | .partRead _ _ _ | .endRead _ _ | .mainWrite _ _ _ => false

/-- The coordinates that the executing command holds, if any. -/
def Fsm.coordinates : Fsm → List Byte
  | .sampleDraw _ xs | .coefDraw _ xs _ | .headerWrite _ xs _ | .chunkRead _ xs | .sliceWrite _ xs _ _ _
  | .headerRead _ xs | .partRead _ xs _ | .mainWrite _ xs _ => xs
  | .idle | .polyDraw _ _ _ | .endRead _ _ => []

/-- The accumulator after a sequence of draws (43_engine.md R212): zeros and repeats are skipped. -/
def acceptedCoordinates (draws : List Byte) : List Byte :=
  draws.foldl (fun xs b => if b = 0 ∨ b ∈ xs then xs else xs ++ [b]) []

/-- How many coefficient draws ShareBlock makes for a block of `len` bytes (43_engine.md R214). -/
def coefficientDraws (policy : Policy) (t len : Nat) : Nat :=
  match policy with
  | .perByte => (t - 1) * len
  | .perBlock => if len = 0 then 0 else t - 1

/-- The upper coefficients of byte `i`'s polynomial, out of the block's draws in order (43_engine.md R214). -/
def coefficientsOf (policy : Policy) (t : Nat) (draws : List Byte) (i : Nat) : List Byte :=
  match policy with
  | .perByte => (draws.drop ((t - 1) * i)).take (t - 1)
  | .perBlock => draws.take (t - 1)

/-- The y-values of one coordinate for a block (43_engine.md R214). -/
def sliceOf (poly : Poly) (policy : Policy) (t : Nat) (block draws : List Byte) (x : Byte) : List Byte :=
  (List.range block.length).map fun i => evaluate poly (block.getD i 0 :: coefficientsOf policy t draws i) x

/-- The answers to `bytes.length` DRAWs. -/
def drawAnswers (bytes : List Byte) : List Event := bytes.map fun b => .entropy (.byte b)

/-- `n` OK answers on the stream port. -/
def okAnswers (n : Nat) : List Event := List.replicate n (.stream .ok)

/-- The answers of one SSPLIT round (44_streaming.md R255): the chunk, its coefficient draws, one OK per part. -/
def splitRoundAnswers (n : Nat) (round : List Byte × List Byte) : List Event :=
  .stream (.chunk round.1) :: (drawAnswers round.2 ++ okAnswers n)

/-- The answers of one SCOMB round (44_streaming.md R262): one chunk per part, then the OK to the WRITE. -/
def combineRoundAnswers (chunks : List (List Byte)) : List Event :=
  (chunks.map fun c => .stream (.chunk c)) ++ [.stream .ok]

/-- How many end-of-stream answers end SCOMB: part 0's alone, or every part's (44_streaming.md R262, R263). -/
def endAnswers (eofpol : EofPolicy) (k : Nat) : Nat :=
  match eofpol with
  | .leaderOnly => 1
  | .symmetric => k

/-- The legal responses of 44_streaming.md R250 other than ERR. -/
def legalAnswer : StreamRequest → StreamAnswer → Bool
  | .read _ max, .chunk bytes => legalChunk max bytes
  | .read _ _, .eof => true
  | .read _ _, .ok => false
  | .read _ _, .err => false
  | .write _ _, .ok => true
  | .write _ _, .chunk _ => false
  | .write _ _, .eof => false
  | .write _ _, .err => false

/-- Submitting `w` to an idle unit ends with IllegalCommand, code 7, and changes nothing else (60_exceptions.md R314). -/
def endsIllegal (w : Word) : Prop :=
  ∀ s : State, s.busy = false →
    s.submit w = .next { s with cmdcount := s.cmdcount + 1, cmdWord := w, done := false, err := true, errcode := 7 }

/-- The error codes with which a command can end in the step that accepts it (60_exceptions.md R305, columns "1st" and "yes"). -/
def acceptErrors : Instr → List Nat
  | .nop | .ldi _ _ | .gadd _ _ _ | .gmul _ _ _ => []
  | .gdiv _ _ _ | .ginv _ _ => [2]
  | .pnew _ _ => [1]
  | .pseti _ | .peval _ _ => [8]
  | .split => [1, 9]
  | .combine => [1, 2, 4, 9]
  | .ssplit | .scomb => [1]

/-- The error codes with which an executing command can end on an answer (60_exceptions.md R305, column entries "run"). -/
def runErrors : Fsm → List Nat
  | .idle => []
  | .polyDraw _ _ _ | .sampleDraw _ _ | .coefDraw _ _ _ => [3]
  | .headerWrite _ _ _ | .chunkRead _ _ | .sliceWrite _ _ _ _ _ | .mainWrite _ _ _ => [6]
  | .headerRead _ _ => [2, 6]
  | .partRead _ _ _ => [4, 5, 6]
  | .endRead _ _ => [5, 6]

/-- `c[0] ⊕ c[1]⊗x ⊕ ... ⊕ c[d]⊗x^d`, with x^0 = 1 (42_polynomial.md R195). -/
def polySum (poly : Poly) (cs : List Byte) (x : Byte) : Byte :=
  (List.range cs.length).foldl (fun acc i => gfadd acc (gfmul poly (cs.getD i 0) (gfpow poly x i))) 0

/-- `xtime` (41_field.md R163). -/
def xtime (poly : Poly) (r : Byte) : Byte :=
  ((r.setWidth 9 <<< 1) ^^^ (if r.getLsbD 7 then poly.bits else 0)).setWidth 8

/-- The shift-and-add form of gfmul (41_field.md R163). -/
def gfmulShiftAdd (poly : Poly) (a b : Byte) : Byte :=
  [7, 6, 5, 4, 3, 2, 1, 0].foldl (fun r i => if b.getLsbD i then xtime poly r ^^^ a else xtime poly r) 0

end Sys2Proof.Machine
end

