-- ==== Sys2Proof/Certificates/Slice0/Obligations.lean ====
section
/-! DEFINITION. Certificates/Slice0/Obligations.lean: the statements for the provers, each from the rules its docstring names. A
statement about exec and an idle unit writes the next state out as a record, so that it is the frame too: every field not named keeps
its value. -/

open Sys2Proof Sys2Proof.Machine

/-! ## Encoding (30_encoding.md) -/

/-- 30_encoding.md R111, R112, R115, R116: decoding an encoded command gives it back, every operand at every value, and a word that decodes
is the encoding of what it decodes to, so no bit of it is dropped. -/
def Obligations.EncodeAndDecodeAgree : Prop :=
  (∀ i : Instr, decode (encode i) = .ok i) ∧ ∀ (w : Word) (i : Instr), decode w = .ok i → encode i = w

/-- 30_encoding.md R112, R115-R117: the mask-and-match decoder accepts exactly the words whose opcode is defined and whose
must-be-zero fields are zero, and names the one of the two reasons that holds otherwise. -/
def Obligations.DecodeAcceptsExactlyLegalFields : Prop :=
  ∀ w : Word,
    ((∃ i, decode w = .ok i) ↔ (fieldsOf w).legal = true) ∧
    (decode w = .error .reservedOpcode ↔ Format.ofOpcode (opcOf w) = none) ∧
    (decode w = .error .reservedBitSet ↔
      ∃ f, Format.ofOpcode (opcOf w) = some f ∧ (fieldsOf w).wellFormed f = false)

/-- 30_encoding.md R122: the encoding examples. -/
def Obligations.EncodingExamplesDecode : Prop :=
  decode 0x01100053 = .ok (.ldi 1 0x53) ∧ decode 0x11312000 = .ok (.gmul 3 1 2) ∧
  decode 0x12531000 = .ok (.gdiv 5 3 1) ∧ decode 0x13410000 = .ok (.ginv 4 1) ∧
  decode 0x20010001 = .ok (.pnew 1 1) ∧ decode 0x21050000 = .ok (.pseti 5) ∧
  decode 0x22320000 = .ok (.peval 3 2) ∧ decode 0x30000000 = .ok .split ∧
  decode 0x10000001 = .error .reservedBitSet ∧ decode 0x02000000 = .error .reservedOpcode

/-! ## Steps, acceptance and the ports -/

/-- 40_unit.md R141: an idle unit accepts the word the host writes to CMD (CMDCOUNT + 1, DONE and ERR cleared, the word kept) and the
step is exec of the command it decodes to. -/
def Obligations.StepRunsTheAcceptedCommand : Prop :=
  ∀ (s : State) (off : BitVec 12) (w : Word) (rest : List Event) (i : Instr),
    s.eventIsNext (.regWrite off w) rest → regAt off = .cmd → s.busy = false → decode w = .ok i →
    step s = exec i { s with agenda := rest, cmdcount := s.cmdcount + 1, done := false, err := false, cmdWord := w }

/-- 60_exceptions.md R314: an ILLEGAL word is accepted and completes at once with code 7, and nothing else changes. -/
def Obligations.IllegalWordEndsWithIllegalCommand : Prop :=
  ∀ (s : State) (off : BitVec 12) (w : Word) (rest : List Event) (e : Illegal),
    s.eventIsNext (.regWrite off w) rest → regAt off = .cmd → s.busy = false → decode w = .error e →
    step s = .next { s with
      agenda := rest, cmdcount := s.cmdcount + 1, cmdWord := w, done := false, err := true, errcode := 7 }

/-- 10_state.md R51: which host writes a busy unit drops, setting OVR and nothing else, and which it does not; reads are always carried
out, busy or idle, and return the current value; 20_memory.md R88: a read has no side effect. The model puts the value into the record of
the ports (log 21), and a read of X[k] at or above XCOUNT takes a free byte, which a counter of the model numbers (log 5). -/
def Obligations.BusyUnitDropsHostWrites : Prop :=
  ∀ (s : State) (off : BitVec 12) (w : Word) (rest : List Event),
    (s.busy = true → s.eventIsNext (.regWrite off w) rest →
      ((regAt off = .cmd ∨ regAt off = .cfgN ∨ regAt off = .cfgT ∨ regAt off = .cfgK ∨ regAt off = .cfgBlock ∨
          regAt off = .cfgSrc ∨ regAt off = .cfgDst ∨ regAt off = .cfgLen ∨ (∃ g, regAt off = .g g) ∨
          (regAt off = .ctrl ∧ w.getLsbD 31 = false)) →
        step s = .next { s with agenda := rest, ovr := true }) ∧
      (regAt off = .status → step s = .next ({ s with agenda := rest }.clearStatus w)) ∧
      (regAt off = .ctrl ∧ w.getLsbD 31 = true → step s = .next { s with agenda := rest }.softReset) ∧
      (regAt off = .errcode ∨ regAt off = .rlen ∨ regAt off = .cmdcount ∨ regAt off = .xcount ∨ regAt off = .pdeg ∨
          regAt off = .id ∨ regAt off = .polyreg ∨ regAt off = .memlast ∨ regAt off = .blkmax ∨
          (∃ k, regAt off = .x k) ∨ regAt off = .reserved →
        step s = .next { s with agenda := rest })) ∧
    (s.eventIsNext (.regRead off) rest →
      ((∀ k, regAt off = .x k → k < s.xcount.toNat) →
        step s = .next { s with agenda := rest, trace := s.trace ++ [.regRead off (s.readReg (regAt off))] }) ∧
      ∀ k, regAt off = .x k → s.xcount.toNat ≤ k →
        step s = .next { s with
          agenda := rest
          trace := s.trace ++ [.regRead off (s.readReg (regAt off))]
          freeCount := s.freeCount + 1 })

/-- 10_state.md R35: CMDCOUNT counts the accepted words, ILLEGAL ones included and dropped ones not; reset sets it to 0; nothing else
changes it. -/
def Obligations.CmdcountCountsAcceptedWords : Prop :=
  ∀ (s t : State) (e : Event) (rest : List Event), s.eventIsNext e rest → step s = .next t →
    t.cmdcount =
      match e with
      | .rst => 0
      | .regWrite off w =>
        if regAt off = .cmd then (if s.busy then s.cmdcount else s.cmdcount + 1)
        else if regAt off = .ctrl ∧ w.getLsbD 31 = true then 0
        else s.cmdcount
      | _ => s.cmdcount

/-- 40_unit.md R140, 60_exceptions.md R300, R309, R328: no event stops the machine. Two parts of this are the model's choice: that a read of a
G register nothing has written is no fault, against the advice of 10_state.md R31 and 70_reset_and_hazards.md R343 (log 3), and that a
state with nothing on the agenda is its own next state (log 8). -/
def Obligations.EveryStepHasANextState : Prop :=
  ∀ s : State, ∃ t, step s = .next t

/-- 60_exceptions.md R328, R323: with nothing arriving and no released MEM transaction the unit stays exactly as it is, however long: a
busy unit hangs and sets no ERRCODE, an idle one idles. That the model stutters then is its own choice (log 8). -/
def Obligations.UnansweredUnitStaysAsItIs : Prop :=
  ∀ (s : State) (n : Nat), s.agenda = [] → (s.heldMem = [] ∨ s.memHeld = true) → Sys2Proof.core.run n s = .next s

/-- 70_reset_and_hazards.md R341: an answer that arrives while no request is outstanding, or after its request was withdrawn, is ignored.
That an answer on one port is ignored too while only the other port's request is outstanding, and that a late answer is an event of its
own, is the model's reading of R341 (log 10). -/
def Obligations.AnswersWithoutRequestAreIgnored : Prop :=
  ∀ (s : State) (rest : List Event) (a : EntropyAnswer) (b : StreamAnswer),
    (s.eventIsNext (.entropy a) rest → s.request ≠ some .draw → step s = .next { s with agenda := rest }) ∧
    (s.eventIsNext (.stream b) rest → (∀ r, s.request ≠ some (.stream r)) → step s = .next { s with agenda := rest }) ∧
    (s.eventIsNext (.lateEntropy a) rest → step s = .next { s with agenda := rest }) ∧
    (s.eventIsNext (.lateStream b) rest → step s = .next { s with agenda := rest })

/-- 70_reset_and_hazards.md R342: what either reset leaves, from any state, busy or not; the constant registers read their constants. -/
def Obligations.EitherResetLeavesTheUnitIdle : Prop :=
  ∀ (s : State) (e : Event) (rest : List Event), s.eventIsNext e rest →
    (e = .rst ∨ ∃ off w, e = .regWrite off w ∧ regAt off = .ctrl ∧ w.getLsbD 31 = true) →
    ∃ t, step s = .next t ∧ t.busy = false ∧ t.phase = 0 ∧ t.done = false ∧ t.err = false ∧ t.ovr = false ∧ t.errcode = 0 ∧
      t.cmdcount = 0 ∧ t.pvalid = false ∧ t.cfgN = 0 ∧ t.cfgT = 0 ∧ t.cfgK = 0 ∧ t.cfgBlock = 0 ∧ t.cfgSrc = 0 ∧
      t.cfgDst = 0 ∧ t.cfgLen = 0 ∧ t.ie = false ∧ t.policy = .perByte ∧ t.eofpol = .leaderOnly ∧ t.xcount = 0 ∧ t.rlen = 0 ∧
      t.readReg .id = 0x53535501 ∧ t.readReg .polyreg = s.readReg .polyreg ∧ t.readReg .memlast = s.readReg .memlast ∧
      t.readReg .blkmax = s.readReg .blkmax

/-- 70_reset_and_hazards.md R341, 10_state.md R56: a soft reset keeps every G register and every MEM byte, withdraws the request, lifts the
MEM-port hold, lowers irq, and leaves what lies outside the unit. That the bytes of
a WRITE outstanding then count for none is the model's choice (log 12). -/
def Obligations.SoftResetKeepsRegistersAndMemory : Prop :=
  ∀ (s : State) (off : BitVec 12) (w : Word) (rest : List Event),
    s.eventIsNext (.regWrite off w) rest → regAt off = .ctrl → w.getLsbD 31 = true →
    ∃ t, step s = .next t ∧ (∀ i, t.getG i = s.getG i) ∧ (∀ a, t.readByte a = s.readByte a) ∧ t.request = none ∧
      t.memHeld = false ∧ t.irq = false ∧ t.pdeg = 0 ∧ (∀ ch, t.channelBytes ch = s.channelBytes ch) ∧ t.heldMem = s.heldMem ∧
      t.agenda = rest

/-- 10_state.md R56: the reset state. Where the spec gives no value (G, C, X, MEM) nothing is claimed here. -/
def Obligations.ResetStateHasTheSpecValues : Prop :=
  let r := State.reset
  r.busy = false ∧ r.phase = 0 ∧ r.request = none ∧ r.statusWord = 0 ∧ r.errcode = 0 ∧ r.ctrlWord = 0 ∧ r.cfgN = 0 ∧ r.cfgT = 0 ∧
    r.cfgK = 0 ∧ r.cfgBlock = 0 ∧ r.cfgSrc = 0 ∧ r.cfgDst = 0 ∧ r.cfgLen = 0 ∧ r.rlen = 0 ∧ r.cmdcount = 0 ∧ r.xcount = 0 ∧
    r.pdeg = 0 ∧ r.pvalid = false ∧ r.irq = false ∧ r.heldMem = []

/-! ## Registers and memory -/

/-- 00_scope.md R7: the polynomials the model can be configured with are exactly the 9-bit values with bit 8 set that no polynomial of
degree 1 to 4 divides, and there are 30. -/
def Obligations.ConfigurablePolynomialsAreTheLegalOnes : Prop :=
  (∀ b : BitVec 9, (Poly.ofBits b).isSome = Poly.legalBits b) ∧ (∀ p : Poly, Poly.ofBits p.bits = some p) ∧ Poly.all.length = 30

/-- 10_state.md R44, R37: no step changes the parameters, which are the constant registers. -/
def Obligations.NoStepChangesTheParameters : Prop :=
  ∀ s t : State, step s = .next t → t.params = s.params

/-- 10_state.md R44: the constant registers, read at their offsets. -/
def Obligations.ConstantRegistersReadTheirConstants : Prop :=
  ∀ s : State,
    s.readReg (regAt 0x03C) = 0x53535501 ∧ (s.readReg (regAt 0x03C)).extractLsb' 0 8 = 1 ∧
    (s.readReg (regAt 0x03C)).extractLsb' 8 24 = (0x53#8 ++ 0x53#8 ++ 0x55#8) ∧
    (s.readReg (regAt 0x040)).extractLsb' 0 9 = s.params.poly.bits ∧ (s.readReg (regAt 0x040)).getLsbD 8 = true ∧
    (s.readReg (regAt 0x044)).toNat = s.params.memBytes - 1 ∧ (s.readReg (regAt 0x048)).toNat = s.params.blockMax

/-- 10_state.md R37: the register map, offset by offset; R36: address bits [1:0] are ignored; every other offset is reserved. -/
def Obligations.RegisterMapIsTheSpecs : Prop :=
  regAt 0x000 = .cmd ∧ regAt 0x004 = .status ∧ regAt 0x008 = .errcode ∧ regAt 0x00C = .ctrl ∧ regAt 0x010 = .cfgN ∧
  regAt 0x014 = .cfgT ∧ regAt 0x018 = .cfgK ∧ regAt 0x01C = .cfgBlock ∧ regAt 0x020 = .cfgSrc ∧ regAt 0x024 = .cfgDst ∧
  regAt 0x028 = .cfgLen ∧ regAt 0x02C = .rlen ∧ regAt 0x030 = .cmdcount ∧ regAt 0x034 = .xcount ∧ regAt 0x038 = .pdeg ∧
  regAt 0x03C = .id ∧ regAt 0x040 = .polyreg ∧ regAt 0x044 = .memlast ∧ regAt 0x048 = .blkmax ∧
  (∀ g : Fin 16, regAt (BitVec.ofNat 12 (0x100 + 4 * g)) = .g (BitVec.ofNat 4 g)) ∧
  (∀ k : Fin 255, regAt (BitVec.ofNat 12 (0x400 + 4 * k)) = .x k) ∧
  (∀ off : BitVec 12, regAt off = regAt (off &&& 0xFFC)) ∧
  ∀ off : BitVec 12, regAt off = .reserved ↔
    (0x04C ≤ off.toNat ∧ off.toNat < 0x100) ∨ (0x140 ≤ off.toNat ∧ off.toNat < 0x400) ∨ 0x7FC ≤ off.toNat

/-- 10_state.md R49: a G register through the port: read, write of the low byte, dropped while BUSY = 1. That the value a read returns
stands in the record of the ports is the model's form of an output (log 21). -/
def Obligations.RegisterPortReachesG : Prop :=
  ∀ (s : State) (g : Fin 16) (w : Word) (rest : List Event),
    let off := BitVec.ofNat 12 (0x100 + 4 * g)
    let i : Reg := BitVec.ofNat 4 g
    (s.eventIsNext (.regRead off) rest →
      step s = .next { s with agenda := rest, trace := s.trace ++ [.regRead off ((s.getG i).setWidth 32)] }) ∧
    (s.eventIsNext (.regWrite off w) rest → s.busy = false →
      ∃ t, step s = .next t ∧ t.getG i = w.setWidth 8 ∧ (∀ j, j ≠ i → t.getG j = s.getG j) ∧
        { t with g := s.g, gWritten := s.gWritten } = { s with agenda := rest }) ∧
    (s.eventIsNext (.regWrite off w) rest → s.busy = true → step s = .next { s with agenda := rest, ovr := true })

/-- 10_state.md R50, with R37, R41-R43: a host write to an idle unit stores the low bits of the word in a CFG or G register or in CTRL,
unchecked, clears STATUS bits, and changes nothing else; a write to a read-only or reserved offset changes nothing; narrow registers
read their upper bits as 0. A CTRL write with bit 31 set is a soft reset and is not this one. -/
def Obligations.NarrowRegistersKeepTheLowBits : Prop :=
  (∀ (s : State) (off : BitVec 12) (w : Word) (rest : List Event), s.busy = false → s.eventIsNext (.regWrite off w) rest →
    let stores := fun (r : RegName) (t : State) (v : Word) => regAt off = r → step s = .next t ∧ t.readReg r = v
    stores .cfgN { s with agenda := rest, cfgN := w.setWidth 8 } (w &&& 0xFF) ∧
    stores .cfgT { s with agenda := rest, cfgT := w.setWidth 8 } (w &&& 0xFF) ∧
    stores .cfgK { s with agenda := rest, cfgK := w.setWidth 8 } (w &&& 0xFF) ∧
    stores .cfgBlock { s with agenda := rest, cfgBlock := w } w ∧ stores .cfgSrc { s with agenda := rest, cfgSrc := w } w ∧
    stores .cfgDst { s with agenda := rest, cfgDst := w } w ∧ stores .cfgLen { s with agenda := rest, cfgLen := w } w ∧
    (∀ g, stores (.g g) ({ s with agenda := rest }.setG g (w.setWidth 8)) (w &&& 0xFF)) ∧
    (w.getLsbD 31 = false →
      stores .ctrl { s with
        agenda := rest
        ie := w.getLsbD 0
        policy := if w.getLsbD 1 then .perBlock else .perByte
        eofpol := if w.getLsbD 2 then .symmetric else .leaderOnly } (w &&& 0x7)) ∧
    (regAt off = .status →
      step s = .next { s with
        agenda := rest
        done := if w.getLsbD 1 then false else s.done
        err := if w.getLsbD 2 then false else s.err
        ovr := if w.getLsbD 3 then false else s.ovr }) ∧
    (regAt off = .errcode ∨ regAt off = .rlen ∨ regAt off = .cmdcount ∨ regAt off = .xcount ∨ regAt off = .pdeg ∨
        regAt off = .id ∨ regAt off = .polyreg ∨ regAt off = .memlast ∨ regAt off = .blkmax ∨ (∃ k, regAt off = .x k) ∨
        regAt off = .reserved →
      step s = .next { s with agenda := rest })) ∧
  ∀ (s : State) (g : Reg),
    (s.readReg .cfgN).toNat < 2 ^ 8 ∧ (s.readReg .cfgT).toNat < 2 ^ 8 ∧ (s.readReg .cfgK).toNat < 2 ^ 8 ∧
    (s.readReg (.g g)).toNat < 2 ^ 8 ∧ (s.readReg .ctrl).toNat < 2 ^ 3 ∧ (s.readReg .errcode).toNat < 2 ^ 8 ∧
    (s.readReg .xcount).toNat < 2 ^ 9 ∧ (s.readReg .pdeg).toNat < 2 ^ 8 ∧ (s.readReg .polyreg).toNat < 2 ^ 9

/-- 10_state.md R37-R39, R46, R53, 60_exceptions.md R307: what the port returns for each register that O16, O18 and O19 do not fix (of X,
the entries below XCOUNT); the STATUS word bit by bit; its write-1-to-clear bits, at which a 0 or another bit changes
nothing; PHASE, which is 0 exactly when BUSY = 0, and otherwise says what the unit waits on; and the level of irq, which acceptance and
reset lower, a completion raises if IE = 1, and OVR does not drive. -/
def Obligations.StatusBitsAndIrq : Prop :=
  ∀ (s : State) (w : Word) (e : ErrorKind),
    s.statusWord.getLsbD 0 = s.busy ∧ s.statusWord.getLsbD 1 = s.done ∧ s.statusWord.getLsbD 2 = s.err ∧
    s.statusWord.getLsbD 3 = s.ovr ∧ s.statusWord.extractLsb' 4 4 = s.phase ∧ s.statusWord.getLsbD 8 = s.pvalid ∧
    s.statusWord.extractLsb' 9 23 = 0 ∧
    s.readReg .status = s.statusWord ∧ (s.readReg .errcode).toNat = s.errcode.toNat ∧ s.readReg .rlen = s.rlen ∧
    s.readReg .cmdcount = s.cmdcount ∧ (s.readReg .xcount).toNat = s.xcount.toNat ∧ (s.readReg .pdeg).toNat = s.pdeg.toNat ∧
    s.readReg .cmd = 0 ∧ s.readReg .reserved = 0 ∧
    (∀ k : Fin 255, k.val < s.xcount.toNat → (s.readReg (.x k)).toNat = s.x[k].toNat) ∧
    (s.readReg .cfgN).toNat = s.cfgN.toNat ∧ (s.readReg .cfgT).toNat = s.cfgT.toNat ∧ (s.readReg .cfgK).toNat = s.cfgK.toNat ∧
    s.readReg .cfgBlock = s.cfgBlock ∧ s.readReg .cfgSrc = s.cfgSrc ∧ s.readReg .cfgDst = s.cfgDst ∧ s.readReg .cfgLen = s.cfgLen ∧
    (s.readReg .ctrl).getLsbD 0 = s.ie ∧ (s.readReg .ctrl).getLsbD 1 = decide (s.policy = .perBlock) ∧
    (s.readReg .ctrl).getLsbD 2 = decide (s.eofpol = .symmetric) ∧ (s.readReg .ctrl).extractLsb' 3 29 = 0 ∧
    s.phase.toNat ≤ 5 ∧ (s.phase = 0 ↔ s.busy = false) ∧ (s.phase = 0 ↔ s.request = none) ∧ (s.phase = 1 ↔ s.request = some .draw) ∧
    (s.phase = 2 ↔ ∃ job xs, s.fsm = .headerRead job xs) ∧ (s.phase = 3 ↔ ∃ job xs k, s.fsm = .headerWrite job xs k) ∧
    ((∃ ch max, s.request = some (.stream (.read ch max))) ↔ s.phase = 2 ∨ s.phase = 4) ∧
    ((∃ ch bytes, s.request = some (.stream (.write ch bytes))) ↔ s.phase = 3 ∨ s.phase = 5) ∧
    s.clearStatus w = { s with
      done := if w.getLsbD 1 then false else s.done
      err := if w.getLsbD 2 then false else s.err
      ovr := if w.getLsbD 3 then false else s.ovr } ∧
    (s.irq = true ↔ s.ie = true ∧ (s.done = true ∨ s.err = true)) ∧ (s.accept w).irq = false ∧ s.complete.irq = s.ie ∧
    (s.raise e).irq = s.ie ∧ s.dropWrite.irq = s.irq ∧ s.softReset.irq = false ∧ s.hardReset.irq = false ∧
    (s.clearStatus 0x6).irq = false

/-- 20_memory.md R83, R92: a MEM-port transaction while the port is not held reads or writes one byte; addresses at or above MEM_BYTES read
0x00 and ignore writes. While SPLIT executes a transaction waits and changes nothing else; completion, error and reset lift the hold, and
then the waiting ones are carried out, oldest first, before any other event but a reset, which nothing delays (70_reset_and_hazards.md
R340). That each is a step of its own, and that the event memStep places one of them, is the model's choice (log 9). -/
def Obligations.MemPortMovesBytesUnlessHeld : Prop :=
  (∀ (s : State) (a : Word) (v : Byte) (rest : List Event), s.memHeld = false → s.heldMem = [] →
    (s.agenda = .memPort (.read a) :: rest →
      step s = .next { s with
        agenda := rest, trace := s.trace ++ [.memRead a (if a.toNat < s.params.memBytes then s.readByte a.toNat else 0x00)] }) ∧
    (s.agenda = .memPort (.write a v) :: rest → s.params.memBytes ≤ a.toNat → step s = .next { s with agenda := rest }) ∧
    (s.agenda = .memPort (.write a v) :: rest → a.toNat < s.params.memBytes →
      ∃ t, step s = .next t ∧ t.readByte a.toNat = v ∧ (∀ b, b ≠ a.toNat → t.readByte b = s.readByte b) ∧
        { t with mem := s.mem } = { s with agenda := rest })) ∧
  ∀ (s : State) (m : MemTxn) (rest : List Event) (waiting : List MemTxn),
    (s.memHeld = true → s.agenda = .memPort m :: rest →
      step s = .next { s with agenda := rest, heldMem := s.heldMem ++ [m] }) ∧
    (s.memHeld = false → s.heldMem = m :: waiting → (∀ e es, s.agenda = e :: es → e.goesFirst = false) →
      step s = .next ({ s with heldMem := waiting }.carryOut m)) ∧
    (s.memHeld = false → s.heldMem = m :: waiting → s.agenda = .memStep :: rest →
      step s = .next ({ s with agenda := rest, heldMem := waiting }.carryOut m)) ∧
    (s.agenda = .rst :: rest → step s = .next { s with agenda := rest }.hardReset) ∧
    (∀ off w, s.agenda = .regWrite off w :: rest → regAt off = .ctrl → w.getLsbD 31 = true →
      step s = .next { s with agenda := rest }.softReset) ∧
    s.complete.memHeld = false ∧ (∀ e, (s.raise e).memHeld = false) ∧ s.softReset.memHeld = false ∧ s.hardReset.memHeld = false

/-- 20_memory.md R86: rd32 is little-endian: byte i of the value is MEM[a+i]. -/
def Obligations.Rd32IsLittleEndian : Prop :=
  ∀ (s : State) (a : Nat),
    (s.rd32 a).toNat = (s.readByte a).toNat + 256 * (s.readByte (a + 1)).toNat + 65536 * (s.readByte (a + 2)).toNat +
      16777216 * (s.readByte (a + 3)).toNat

/-- 20_memory.md R80 ("SPLIT and COMBINE are the only commands that reach MEM"), R81, R98: a step changes what MEM holds only on the rst
input, by carrying out a MEM-port write of the host while the port is not held, by the draw that completes SPLIT without error, or by
accepting a COMBINE that completes without error. -/
def Obligations.OnlySplitCombineAndTheHostChangeMem : Prop :=
  ∀ s t : State, step s = .next t → (t.mem ≠ s.mem ∨ ∃ b, t.readByte b ≠ s.readByte b) →
    s.agenda.head? = some .rst ∨
    (s.memHeld = false ∧ ∃ a v, s.agenda.head? = some (.memPort (.write a v)) ∨ s.heldMem.head? = some (.write a v)) ∨
    (s.memHeld = true ∧ t.busy = false ∧ t.done = true ∧ ∃ b, s.agenda.head? = some (.entropy (.byte b))) ∨
    (s.busy = false ∧ t.done = true ∧
      ∃ off w, s.agenda.head? = some (.regWrite off w) ∧ regAt off = .cmd ∧ decode w = .ok .combine)

/-- 10_state.md R32, R49: a step changes G[r] only on the rst input, on a host write of G[r], or by accepting a command whose destination
is r. -/
def Obligations.OnlyDestinationsAndTheHostChangeG : Prop :=
  ∀ (s t : State) (r : Reg), step s = .next t → t.getG r ≠ s.getG r →
    s.agenda.head? = some .rst ∨ (∃ off w, s.agenda.head? = some (.regWrite off w) ∧ regAt off = .g r) ∨
    ∃ off w i, s.agenda.head? = some (.regWrite off w) ∧ regAt off = .cmd ∧ decode w = .ok i ∧ destOf i = some r

/-! ## Invariants -/

/-- The reset state meets the invariant. -/
def Obligations.ResetMeetsTheInvariant : Prop := State.reset.Inv

/-- Every step keeps the invariant: MEM canonical and within MEM_BYTES (20_memory.md R81), DONE and ERR never both 1 (10_state.md R39) and
both 0 while busy, ERRCODE in 0..9 and matching DONE and ERR (60_exceptions.md R301-R303), XCOUNT and PDEG in range (10_state.md R46,
R47), and the hidden data of the executing command as its pseudocode leaves it: coordinates distinct and non-zero (43_engine.md R213),
counts, lengths and parts in range (44_streaming.md R251, R255, R262). -/
def Obligations.EveryStepKeepsTheInvariant : Prop :=
  ∀ s t : State, s.Inv → step s = .next t → t.Inv

/-- 10_state.md R48, R54: PVALID is 0 while PNEW, SPLIT or SSPLIT executes, so no coefficient is observable then. -/
def Obligations.PvalidIsClearWhileSecretsAreInUse : Prop :=
  (State.reset.fsm.clearsPvalid = true → State.reset.pvalid = false) ∧
    ∀ s t : State, (s.fsm.clearsPvalid = true → s.pvalid = false) → step s = .next t →
      t.fsm.clearsPvalid = true → t.pvalid = false

/-- 10_state.md R46, R55: the coordinates of the executing command are the first entries of the table, as it collects them. -/
def Obligations.CoordinateTableFollowsTheCommand : Prop :=
  ∀ s t : State, s.Inv → s.x.toList.take s.fsm.coordinates.length = s.fsm.coordinates → step s = .next t →
    t.x.toList.take t.fsm.coordinates.length = t.fsm.coordinates

/-- 44_streaming.md R257, R265, 70_reset_and_hazards.md R341: no step takes back a byte written to a channel.The bytes are those of
the WRITEs answered OK, the model's transcript (log 12). -/
def Obligations.NothingWrittenToAChannelIsTakenBack : Prop :=
  ∀ (s t : State) (ch : Channel), step s = .next t → s.channelBytes ch <+: t.channelBytes ch

/-- 60_exceptions.md R305: which codes a command can end with in the step that accepts it, and on an answer; 10_state.md R40: ERRCODE changes
only when a command completes, on its acceptance or on an answer, and at a reset. -/
def Obligations.CommandsEndOnlyWithTheirErrors : Prop :=
  (∀ (i : Instr) (s t : State), s.err = false → exec i s = .next t → t.err = true → t.errcode.toNat ∈ acceptErrors i) ∧
  (∀ (s t : State), s.err = false → s.busy = true → step s = .next t → t.err = true → t.errcode.toNat ∈ runErrors s.fsm) ∧
  ∀ s t : State, step s = .next t → t.errcode ≠ s.errcode → ∃ e rest, s.eventIsNext e rest ∧
    match e with
    | .rst => t.errcode = 0
    | .regWrite off w =>
      (regAt off = .ctrl ∧ w.getLsbD 31 = true ∧ t.errcode = 0) ∨
        (regAt off = .cmd ∧ s.busy = false ∧ t.busy = false ∧ (t.done = true ∨ t.err = true))
    | .entropy _ | .stream _ => s.busy = true ∧ t.busy = false ∧ (t.done = true ∨ t.err = true)
    | .regRead _ | .memPort _ | .lateEntropy _ | .lateStream _ | .memStep => False

/-! ## Unit control and field unit -/

/-- 40_unit.md R143: NOP. -/
def Obligations.NopOnlyCompletes : Prop :=
  decode 0x00000000 = .ok .nop ∧ (∀ w, opcOf w = 0x00 → w ≠ 0 → decode w = .error .reservedBitSet ∧ endsIllegal w) ∧
  (∀ s : State, s.busy = false → exec .nop s = .next { s with errcode := 0, done := true, err := false }) ∧
  ∀ (s : State) (rest : List Event), s.busy = false → s.eventIsNext (.regWrite 0x000 0x00000000) rest →
    step s = .next { s with
      agenda := rest, cmdcount := s.cmdcount + 1, cmdWord := 0, errcode := 0, done := true, err := false }

/-- 40_unit.md R144: LDI. -/
def Obligations.LdiLoadsTheImmediate : Prop :=
  (∀ (rd : Reg) (imm : Byte), decode (0x01#8 ++ rd ++ 0#12 ++ imm) = .ok (.ldi rd imm)) ∧
  (∀ w, opcOf w = 0x01 → w.extractLsb' 8 12 ≠ 0 → decode w = .error .reservedBitSet ∧ endsIllegal w) ∧
  (∀ (s : State) (rd : Reg) (imm : Byte), s.busy = false →
    exec (.ldi rd imm) s = .next { s.setG rd imm with errcode := 0, done := true, err := false } ∧ (s.setG rd imm).getG rd = imm) ∧
  decode 0x017000FF = .ok (.ldi 7 0xFF)

/-- 41_field.md R169: GADD, with its encoding, corner cases and example. -/
def Obligations.GaddAddsInTheField : Prop :=
  (∀ rd ra rb : Reg, decode (0x10#8 ++ rd ++ ra ++ rb ++ 0#12) = .ok (.gadd rd ra rb)) ∧
  (∀ w, opcOf w = 0x10 → w.extractLsb' 0 12 ≠ 0 → decode w = .error .reservedBitSet ∧ endsIllegal w) ∧
  (∀ (s : State) (rd ra rb : Reg), s.busy = false →
    exec (.gadd rd ra rb) s = .next { s.setG rd (s.getG ra ^^^ s.getG rb) with errcode := 0, done := true, err := false }) ∧
  (∀ (s : State) (rd ra rb : Reg), ∃ t, exec (.gadd rd ra rb) s = .next t ∧
    (s.getG ra = s.getG rb → t.getG rd = 0) ∧ (s.getG ra = 0 → t.getG rd = s.getG rb) ∧ (s.getG rb = 0 → t.getG rd = s.getG ra) ∧
    (s.getG ra = 0x53 → s.getG rb = 0xCA → t.getG rd = 0x99)) ∧
  decode 0x10312000 = .ok (.gadd 3 1 2)

/-- 41_field.md R170: GMUL, with its encoding, corner cases and example, for every legal POLY. -/
def Obligations.GmulMultipliesInTheField : Prop :=
  (∀ rd ra rb : Reg, decode (0x11#8 ++ rd ++ ra ++ rb ++ 0#12) = .ok (.gmul rd ra rb)) ∧
  (∀ w, opcOf w = 0x11 → w.extractLsb' 0 12 ≠ 0 → decode w = .error .reservedBitSet ∧ endsIllegal w) ∧
  (∀ (s : State) (rd ra rb : Reg), s.busy = false →
    exec (.gmul rd ra rb) s =
      .next { s.setG rd (gfmul s.params.poly (s.getG ra) (s.getG rb)) with errcode := 0, done := true, err := false }) ∧
  (∀ (s : State) (rd ra rb : Reg), ∃ t, exec (.gmul rd ra rb) s = .next t ∧
    (s.getG ra = 0 ∨ s.getG rb = 0 → t.getG rd = 0) ∧ (s.getG ra = 1 → t.getG rd = s.getG rb) ∧
    (s.getG rb = 1 → t.getG rd = s.getG ra) ∧
    (s.getG ra = 0x80 → s.getG rb = 0x02 → t.getG rd = s.params.poly.bits.setWidth 8) ∧
    (s.getG ra = 0x03 → s.getG rb = 0x0F → t.getG rd = 0x11)) ∧
  decode 0x11312000 = .ok (.gmul 3 1 2)

/-- 41_field.md R171: GDIV: ArithmeticError exactly when the divisor is 0, G[rd] then unchanged; else the product with the inverse. -/
def Obligations.GdivDividesOrRaises : Prop :=
  (∀ rd ra rb : Reg, decode (0x12#8 ++ rd ++ ra ++ rb ++ 0#12) = .ok (.gdiv rd ra rb)) ∧
  (∀ w, opcOf w = 0x12 → w.extractLsb' 0 12 ≠ 0 → decode w = .error .reservedBitSet ∧ endsIllegal w) ∧
  (∀ (s : State) (rd ra rb : Reg), s.busy = false → s.getG rb = 0 →
    exec (.gdiv rd ra rb) s = .next { s with errcode := 2, done := false, err := true }) ∧
  (∀ (s : State) (rd ra rb : Reg), s.busy = false → s.getG rb ≠ 0 →
    ∃ inv, gfmul s.params.poly (s.getG rb) inv = 1 ∧
      exec (.gdiv rd ra rb) s =
        .next { s.setG rd (gfmul s.params.poly (s.getG ra) inv) with errcode := 0, done := true, err := false }) ∧
  (∀ (s : State) (rd ra rb : Reg), ∃ t, exec (.gdiv rd ra rb) s = .next t ∧
    (s.getG ra = 0 → s.getG rb ≠ 0 → t.getG rd = 0) ∧ (s.getG ra = s.getG rb → s.getG rb ≠ 0 → t.getG rd = 1) ∧
    (s.getG ra = 0x11 → s.getG rb = 0x03 → t.getG rd = 0x0F)) ∧
  decode 0x12531000 = .ok (.gdiv 5 3 1)

/-- 41_field.md R172: GINV: ArithmeticError exactly when the operand is 0, G[rd] then unchanged; else the inverse. -/
def Obligations.GinvInvertsOrRaises : Prop :=
  (∀ rd ra : Reg, decode (0x13#8 ++ rd ++ ra ++ 0#16) = .ok (.ginv rd ra)) ∧
  (∀ w, opcOf w = 0x13 → w.extractLsb' 0 16 ≠ 0 → decode w = .error .reservedBitSet ∧ endsIllegal w) ∧
  (∀ (s : State) (rd ra : Reg), s.busy = false → s.getG ra = 0 →
    exec (.ginv rd ra) s = .next { s with errcode := 2, done := false, err := true }) ∧
  (∀ (s : State) (rd ra : Reg), s.busy = false → s.getG ra ≠ 0 →
    ∃ inv, gfmul s.params.poly (s.getG ra) inv = 1 ∧
      exec (.ginv rd ra) s = .next { s.setG rd inv with errcode := 0, done := true, err := false }) ∧
  (∀ (p : Poly) (a b : Byte), gfinv p 1 = some 1 ∧ (gfinv p a = some b → gfinv p b = some a)) ∧
  gfinv .p11B 0x53 = some 0xCA ∧ gfinv .p11D 0x53 = some 0x8C ∧ decode 0x13410000 = .ok (.ginv 4 1)

/-- 41_field.md R164: the laws of gfmul, for every legal POLY. -/
def Obligations.GfmulLaws : Prop :=
  ∀ (p : Poly) (a b c : Byte),
    gfmul p 0 a = 0 ∧ gfmul p a 0 = 0 ∧ gfmul p 1 a = a ∧ gfmul p a b = gfmul p b a ∧
    gfmul p (gfmul p a b) c = gfmul p a (gfmul p b c) ∧
    gfmul p a (gfadd b c) = gfadd (gfmul p a b) (gfmul p a c) ∧
    (a.toNat < 0x10 → b.toNat < 0x10 → a.toNat.log2 + b.toNat.log2 < 8 → gfmul p a b = (clmul a b).setWidth 8) ∧
    gfmul p 0x80 0x02 = p.bits.setWidth 8

/-- 41_field.md R163: the shift-and-add form gives the same byte. -/
def Obligations.ShiftAndAddGivesTheSameProduct : Prop :=
  ∀ (p : Poly) (a b : Byte), gfmulShiftAdd p a b = gfmul p a b

/-- 41_field.md R166: gfinv fails at 0 and elsewhere returns the unique inverse. -/
def Obligations.GfinvIsTheUniqueInverse : Prop :=
  ∀ p : Poly, gfinv p 0 = none ∧
    ∀ a : Byte, a ≠ 0 → ∃ b, gfinv p a = some b ∧ b ≠ 0 ∧ gfmul p a b = 1 ∧ ∀ c, gfmul p a c = 1 → c = b

/-- 41_field.md section 2, 40_unit.md R143, R144, 42_polynomial.md R192, R193: the frame of the commands that end in their acceptance and
touch registers only: every G register but the destination, every special register, CFG and CTRL register, the coordinate table, every
MEM byte and channel keep their values. -/
def Obligations.RegisterCommandsFrame : Prop :=
  ∀ (i : Instr) (s t : State),
    (match i with
      | .nop | .ldi _ _ | .gadd _ _ _ | .gmul _ _ _ | .gdiv _ _ _ | .ginv _ _ | .pseti _ | .peval _ _ => True
      | .pnew _ _ | .split | .combine | .ssplit | .scomb => False) →
    exec i s = .next t →
    (∀ r, destOf i ≠ some r → t.getG r = s.getG r) ∧ (∀ a, t.readByte a = s.readByte a) ∧ (∀ ch, t.channelBytes ch = s.channelBytes ch) ∧
    t.x = s.x ∧ t.xcount = s.xcount ∧ t.rlen = s.rlen ∧ t.cmdcount = s.cmdcount ∧ t.ovr = s.ovr ∧ t.pvalid = s.pvalid ∧ t.pdeg = s.pdeg ∧
    (∀ k : Fin 255, (∀ ra, i = .pseti ra → k ≠ 0) → t.c[k] = s.c[k]) ∧
    t.ie = s.ie ∧ t.policy = s.policy ∧ t.eofpol = s.eofpol ∧ t.cfgN = s.cfgN ∧ t.cfgT = s.cfgT ∧ t.cfgK = s.cfgK ∧
    t.cfgBlock = s.cfgBlock ∧ t.cfgSrc = s.cfgSrc ∧ t.cfgDst = s.cfgDst ∧ t.cfgLen = s.cfgLen ∧ t.params = s.params ∧
    t.heldMem = s.heldMem ∧ t.agenda = s.agenda

/-! ## Polynomial evaluator -/

/-- 42_polynomial.md R191: PNEW with degree 255 is a ValidationError that changes nothing else; with degree 0 it makes no draw and gives the
constant polynomial. -/
def Obligations.PnewWithoutDraws : Prop :=
  ∀ (s : State) (ra : Reg), s.busy = false →
    exec (.pnew ra 255) s = .next { s with errcode := 1, done := false, err := true } ∧
    ∃ t, exec (.pnew ra 0) s = .next t ∧ t.polyCoefs = [s.getG ra] ∧ (∀ j : Fin 255, 0 < j.val → t.c[j] = s.c[j]) ∧
      { t with c := s.c } = { s with pdeg := 0, pvalid := true, errcode := 0, done := true, err := false }

/-- 42_polynomial.md R190, R191: PNEW of degree d in 1..254 clears PVALID, waits with PHASE = ENTROPY, and after d byte answers holds the
polynomial [G[ra], r1, ..., rd]; everything else but the record of the draws is unchanged. -/
def Obligations.PnewBuildsThePolynomialFromItsDraws : Prop :=
  ∀ (s : State) (ra : Reg) (d : Byte) (bytes : List Byte) (rest : List Event),
    s.busy = false → s.heldMem = [] → 1 ≤ d.toNat → d.toNat ≤ 254 → bytes.length = d.toNat →
    s.agenda = drawAnswers bytes ++ rest →
    ∃ t u : State, exec (.pnew ra d) s = .next t ∧ t.busy = true ∧ t.phase = 1 ∧ t.pvalid = false ∧ t.done = s.done ∧ t.c = s.c ∧
      Sys2Proof.core.run d.toNat t = .next u ∧ u.polyCoefs = s.getG ra :: bytes ∧
      (∀ j : Fin 255, d.toNat < j.val → u.c[j] = s.c[j]) ∧ (∀ ch, u.channelBytes ch = s.channelBytes ch) ∧
      { u with c := s.c, trace := s.trace } =
        { s with pdeg := d, pvalid := true, errcode := 0, done := true, err := false, agenda := rest }

/-- 60_exceptions.md R327: a FAIL answer to any DRAW ends the command at once with code 3; nothing is retried, and everything the command
had written stays. 42_polynomial.md R191 leaves C[1..] after a failed PNEW unspecified: that it keeps what was drawn is the model's choice
(log 6). -/
def Obligations.EntropyFailureEndsTheCommand : Prop :=
  ∀ (s : State) (rest : List Event), s.eventIsNext (.entropy .fail) rest → s.request = some .draw →
    ∃ t, step s = .next t ∧ (∀ ch, t.channelBytes ch = s.channelBytes ch) ∧
      { t with trace := s.trace } = { s with agenda := rest, errcode := 3, err := true, done := false, fsm := .idle }

/-- 42_polynomial.md R192: PSETI, with its encoding and error. -/
def Obligations.PsetiReplacesTheIntercept : Prop :=
  (∀ ra : Reg, decode (0x21#8 ++ 0#4 ++ ra ++ 0#16) = .ok (.pseti ra)) ∧
  (∀ w, opcOf w = 0x21 → (w.extractLsb' 20 4 ≠ 0 ∨ w.extractLsb' 0 16 ≠ 0) → decode w = .error .reservedBitSet ∧ endsIllegal w) ∧
  (∀ (s : State) (ra : Reg), s.busy = false → s.pvalid = false →
    exec (.pseti ra) s = .next { s with errcode := 8, done := false, err := true }) ∧
  (∀ (s : State) (ra : Reg), s.busy = false → s.pvalid = true →
    ∃ t, exec (.pseti ra) s = .next t ∧ t.polyCoefs = s.getG ra :: s.polyCoefs.tail ∧
      (∀ j : Fin 255, 0 < j.val → t.c[j] = s.c[j]) ∧
      { t with c := s.c } = { s with errcode := 0, done := true, err := false }) ∧
  decode 0x21050000 = .ok (.pseti 5)

/-- 42_polynomial.md R193: PEVAL writes the value of the polynomial register, or raises StateError and leaves G[rd]. -/
def Obligations.PevalEvaluatesOrRaises : Prop :=
  (∀ rd ra : Reg, decode (0x22#8 ++ rd ++ ra ++ 0#16) = .ok (.peval rd ra)) ∧
  (∀ w, opcOf w = 0x22 → w.extractLsb' 0 16 ≠ 0 → decode w = .error .reservedBitSet ∧ endsIllegal w) ∧
  (∀ (s : State) (rd ra : Reg), s.busy = false → s.pvalid = false →
    exec (.peval rd ra) s = .next { s with errcode := 8, done := false, err := true }) ∧
  (∀ (s : State) (rd ra : Reg), s.busy = false → s.pvalid = true →
    exec (.peval rd ra) s = .next { s.setG rd (polySum s.params.poly s.polyCoefs (s.getG ra)) with
      errcode := 0, done := true, err := false }) ∧
  ∀ (s : State) (rd ra : Reg), s.pvalid = true → ∃ t, exec (.peval rd ra) s = .next t ∧
    (s.getG ra = 0 → t.getG rd = s.c[0]) ∧ (s.pdeg = 0 → t.getG rd = s.c[0]) ∧
    (s.polyCoefs = [0x41, 0x05] → s.getG ra = 0x03 → t.getG rd = 0x4E)

/-- 42_polynomial.md R195: evaluation is the sum of c[i]⊗x^i, the loop gives c[0] at 0 too, and x = 1 gives the XOR of the coefficients. -/
def Obligations.EvaluateIsThePolynomialSum : Prop :=
  ∀ (p : Poly) (cs : List Byte) (x : Byte), cs ≠ [] →
    evaluate p cs x = polySum p cs x ∧ horner p 0 cs = cs.headD 0 ∧ evaluate p cs 1 = cs.foldl gfadd 0

/-! ## Engine -/

/-- 43_engine.md R215: SPLIT's checks in order; the first that fails ends the command and changes nothing else. -/
def Obligations.SplitChecksComeInOrder : Prop :=
  ∀ s : State, s.busy = false →
    let n := s.cfgN.toNat
    let t := s.cfgT.toNat
    let len := s.cfgLen.toNat
    (¬(2 ≤ n ∧ n ≤ 255 ∧ 2 ≤ t ∧ t ≤ 255 ∧ t ≤ n) → exec .split s = .next { s with errcode := 1, done := false, err := true }) ∧
    (2 ≤ t → t ≤ n →
      ((len ≠ 0 ∧ s.params.memBytes < s.cfgSrc.toNat + len) ∨ s.params.memBytes < s.cfgDst.toNat + n * (len + 1)) →
      exec .split s = .next { s with errcode := 9, done := false, err := true })

/-- 43_engine.md R212, R214-R216: SPLIT accepted with legal operands waits for entropy with MEM unchanged; once its draws have given N
coordinates (zeros and repeats skipped) and its coefficients, share k stands at dst + k*(L+1) as its coordinate followed by the
polynomials' values there, the secret being the snapshot taken at acceptance; every other MEM byte and table entry, every channel, every
G register and every CFG register is unchanged. -/
def Obligations.SplitWritesTheSharesOfTheSecret : Prop :=
  ∀ (s : State) (draws coefs : List Byte) (rest : List Event),
    let n := s.cfgN.toNat
    let t := s.cfgT.toNat
    let len := s.cfgLen.toNat
    let src := s.cfgSrc.toNat
    let dst := s.cfgDst.toNat
    let xs := acceptedCoordinates draws
    let secret := s.readBytes src len
    s.busy = false → splitValid n t = true → inRange s.params src len = true → inRange s.params dst (n * (len + 1)) = true →
    xs.length = n → (acceptedCoordinates draws.dropLast).length < n → coefs.length = coefficientDraws s.policy t len →
    s.agenda = drawAnswers (draws ++ coefs) ++ rest →
    ∃ a u : State, exec .split s = .next a ∧
      (a.busy = true ∧ a.phase = 1 ∧ a.memHeld = true ∧ a.pvalid = false ∧ a.xcount = 0 ∧ a.mem = s.mem ∧ a.rlen = s.rlen) ∧
      Sys2Proof.core.run (draws.length + coefs.length) a = .next u ∧
      (∀ k, k < n → u.readBytes (dst + k * (len + 1)) (len + 1) =
        xs.getD k 0 :: sliceOf s.params.poly s.policy t secret coefs (xs.getD k 0)) ∧
      (∀ b, b < dst ∨ dst + n * (len + 1) ≤ b → u.readByte b = s.readByte b) ∧
      u.x.toList.take n = xs ∧ (∀ j : Fin 255, n ≤ j.val → u.x[j] = s.x[j]) ∧ u.xcount.toNat = n ∧
      u.rlen = BitVec.ofNat 32 (n * (len + 1)) ∧ (∀ ch, u.channelBytes ch = s.channelBytes ch) ∧
      { u with mem := s.mem, x := s.x, xcount := s.xcount, rlen := s.rlen, trace := s.trace } =
        { s with pvalid := false, errcode := 0, done := true, err := false, agenda := rest }

/-- 43_engine.md R212, R213: after any draws that do not yet give N coordinates, the command still samples, with the accumulator that those
draws give; a draw of zero or of a chosen value changes nothing but the record. -/
def Obligations.SamplingCollectsDistinctNonzeroBytes : Prop :=
  (∀ (s : State) (job : SplitJob) (draws : List Byte) (rest : List Event),
    s.fsm = .sampleDraw job [] → s.heldMem = [] → job.n ≤ 255 → (acceptedCoordinates draws).length < job.n →
    s.agenda = drawAnswers draws ++ rest →
    ∃ u : State, Sys2Proof.core.run draws.length s = .next u ∧ u.fsm = .sampleDraw job (acceptedCoordinates draws) ∧
      u.x.toList.take (acceptedCoordinates draws).length = acceptedCoordinates draws ∧
      (∀ j : Fin 255, (acceptedCoordinates draws).length ≤ j.val → u.x[j] = s.x[j]) ∧
      (∀ ch, u.channelBytes ch = s.channelBytes ch) ∧
      { u with x := s.x, fsm := s.fsm, trace := s.trace } = { s with agenda := rest }) ∧
  ∀ draws : List Byte, coordinatesOk (acceptedCoordinates draws)

/-- 43_engine.md R217-R219: COMBINE on descriptors that pass every check completes in its acceptance: MEM[dst ..] gets, byte by byte, Lagrange0
of the shares as they stood before; X, XCOUNT and RLEN follow; every other MEM byte, register and PVALID are unchanged. -/
def Obligations.CombineWritesTheReconstruction : Prop :=
  ∀ (s : State) (len : Nat),
    let k := s.cfgK.toNat
    let tab := s.cfgSrc.toNat
    let dst := s.cfgDst.toNat
    let addr := fun j => (s.rd32 (tab + 8 * j)).toNat
    let xs := (List.range k).map fun j => s.readByte (addr j)
    s.busy = false → 2 ≤ k → k ≤ 254 → inRange s.params tab (8 * k) = true →
    (∀ j, j < k → (s.rd32 (tab + 8 * j + 4)).toNat = len + 1 ∧ inRange s.params (addr j) (len + 1) = true) →
    inRange s.params dst len = true → xs.Nodup →
    ∃ u : State, exec .combine s = .next u ∧
      (∀ i, i < len → u.readByte (dst + i) =
        lagrange0 s.params.poly xs ((List.range k).map fun j => s.readByte (addr j + 1 + i))) ∧
      (∀ b, b < dst ∨ dst + len ≤ b → u.readByte b = s.readByte b) ∧
      u.x.toList.take k = xs ∧ (∀ j : Fin 255, k ≤ j.val → u.x[j] = s.x[j]) ∧ u.xcount.toNat = k ∧ u.rlen = BitVec.ofNat 32 len ∧
      { u with mem := s.mem, x := s.x, xcount := s.xcount, rlen := s.rlen } = { s with errcode := 0, done := true, err := false }

/-- 43_engine.md R220: COMBINE's checks in order; the first that fails gives the code, and nothing else changes. -/
def Obligations.CombineChecksComeInOrder : Prop :=
  ∀ s : State, s.busy = false →
    let k := s.cfgK.toNat
    let tab := s.cfgSrc.toNat
    let addr := fun j => (s.rd32 (tab + 8 * j)).toNat
    let total := fun j => (s.rd32 (tab + 8 * j + 4)).toNat
    let xs := (List.range k).map fun j => s.readByte (addr j)
    let tableOk := 2 ≤ k ∧ k ≤ 254 ∧ inRange s.params tab (8 * k) = true
    let shareOk := fun j => total j ≠ 0 ∧ inRange s.params (addr j) (total j) = true
    let endsWith := fun code : BitVec 8 => exec .combine s = .next { s with errcode := code, done := false, err := true }
    (¬(2 ≤ k ∧ k ≤ 254) → endsWith 1) ∧
    (2 ≤ k → k ≤ 254 → inRange s.params tab (8 * k) = false → endsWith 9) ∧
    (tableOk → ∀ j, j < k → (∀ m, m < j → shareOk m) → total j = 0 → endsWith 1) ∧
    (tableOk → ∀ j, j < k → (∀ m, m < j → shareOk m) → total j ≠ 0 → inRange s.params (addr j) (total j) = false → endsWith 9) ∧
    (tableOk → (∀ m, m < k → shareOk m) → (∃ j, j < k ∧ total j ≠ total 0) → endsWith 4) ∧
    (tableOk → (∀ m, m < k → shareOk m) → (∀ j, j < k → total j = total 0) →
      inRange s.params s.cfgDst.toNat (total 0 - 1) = false → endsWith 9) ∧
    (tableOk → (∀ m, m < k → shareOk m) → (∀ j, j < k → total j = total 0) →
      inRange s.params s.cfgDst.toNat (total 0 - 1) = true → ¬xs.Nodup → endsWith 2)

/-- 43_engine.md R223: sharing a secret and reconstructing it from the slices of any K >= T distinct coordinates gives the secret, under
both policies and every POLY, whatever was drawn. -/
def Obligations.ReconstructionRecoversTheSecret : Prop :=
  ∀ (p : Poly) (policy : Policy) (t : Nat) (secret draws xs : List Byte),
    2 ≤ t → t ≤ xs.length → xs.Nodup → draws.length = coefficientDraws policy t secret.length →
    combineBlock p xs (xs.map (sliceOf p policy t secret draws)) secret.length = secret

/-- 43_engine.md R219, R224: Lagrange0 does not depend on the order of the (x, v) pairs. -/
def Obligations.LagrangeIgnoresTheOrderOfShares : Prop :=
  ∀ (p : Poly) (pairs others : List (Byte × Byte)), pairs.Perm others →
    lagrange0 p (pairs.map Prod.fst) (pairs.map Prod.snd) = lagrange0 p (others.map Prod.fst) (others.map Prod.snd)

/-! ## Streaming -/

/-- 44_streaming.md R254, R260: the checks of SSPLIT and SCOMB; a failed one ends the command with code 1 before any request and changes
nothing else. -/
def Obligations.StreamingChecksComeFirst : Prop :=
  ∀ s : State, s.busy = false →
    let b := s.cfgBlock.toNat
    (¬(2 ≤ s.cfgN.toNat ∧ 2 ≤ s.cfgT.toNat ∧ s.cfgT.toNat ≤ s.cfgN.toNat ∧ 1 ≤ b ∧ b ≤ s.params.blockMax) →
      exec .ssplit s = .next { s with errcode := 1, done := false, err := true }) ∧
    (¬(2 ≤ s.cfgK.toNat ∧ s.cfgK.toNat ≤ 254 ∧ 1 ≤ b ∧ b ≤ s.params.blockMax) →
      exec .scomb s = .next { s with errcode := 1, done := false, err := true })

/-- 44_streaming.md R253-R256: SSPLIT accepted with legal operands waits for entropy; answered by the draws, the header OKs, any rounds of legal
chunks with their draws and OKs, and EOF, it completes: each part has got its coordinate and then its slice of every chunk in order, and
RLEN is the secret's length modulo 2^32. MEM, G, the CFG registers and the other table entries and channels are unchanged. That the
answers come as one ordered list is the model's form of the ports (log 7). -/
def Obligations.SsplitStreamsTheShares : Prop :=
  ∀ (s : State) (draws : List Byte) (rounds : List (List Byte × List Byte)) (rest : List Event),
    let n := s.cfgN.toNat
    let t := s.cfgT.toNat
    let b := s.cfgBlock.toNat
    let xs := acceptedCoordinates draws
    let answers := drawAnswers draws ++ okAnswers n ++ rounds.flatMap (splitRoundAnswers n) ++ [.stream .eof]
    s.busy = false → s.heldMem = [] → splitValid n t = true → blockValid s.params b = true →
    xs.length = n → (acceptedCoordinates draws.dropLast).length < n →
    (∀ r ∈ rounds, legalChunk b r.1 = true ∧ r.2.length = coefficientDraws s.policy t r.1.length) →
    s.agenda = answers ++ rest →
    ∃ a u : State, exec .ssplit s = .next a ∧
      (a.busy = true ∧ a.phase = 1 ∧ a.memHeld = false ∧ a.pvalid = false ∧ a.xcount = 0 ∧ a.rlen = 0 ∧ a.mem = s.mem) ∧
      Sys2Proof.core.run answers.length a = .next u ∧
      (∀ k, k < n → u.channelBytes (.part k) =
        s.channelBytes (.part k) ++
          xs.getD k 0 :: rounds.flatMap fun r => sliceOf s.params.poly s.policy t r.1 r.2 (xs.getD k 0)) ∧
      (∀ k, n ≤ k → u.channelBytes (.part k) = s.channelBytes (.part k)) ∧ u.channelBytes .main = s.channelBytes .main ∧
      u.x.toList.take n = xs ∧ (∀ j : Fin 255, n ≤ j.val → u.x[j] = s.x[j]) ∧ u.xcount.toNat = n ∧
      u.rlen = BitVec.ofNat 32 (rounds.map fun r => r.1.length).sum ∧
      { u with x := s.x, xcount := s.xcount, rlen := s.rlen, trace := s.trace } =
        { s with pvalid := false, errcode := 0, done := true, err := false, agenda := rest }

/-- 44_streaming.md R260-R263: SCOMB accepted with legal operands reads the headers; answered by distinct header bytes, any rounds of K legal
chunks of one length each with the OK to the WRITE, and the end of the parts under the selected rule, it completes: CH_MAIN has got every
round's reconstruction in order, and RLEN is its length modulo 2^32. MEM, G, PVALID, the CFG registers and the other table entries and
channels are unchanged. That the answers come as one ordered list is the model's form of the ports (log 7). -/
def Obligations.ScombStreamsTheReconstruction : Prop :=
  ∀ (s : State) (xs : List Byte) (rounds : List (List (List Byte))) (rest : List Event),
    let k := s.cfgK.toNat
    let b := s.cfgBlock.toNat
    let answers := (xs.map fun x => Event.stream (.chunk [x])) ++ rounds.flatMap combineRoundAnswers ++
      List.replicate (endAnswers s.eofpol k) (.stream .eof)
    s.busy = false → s.heldMem = [] → combineCountValid k = true → blockValid s.params b = true → xs.length = k → xs.Nodup →
    (∀ r ∈ rounds, r.length = k ∧ ∀ c ∈ r, legalChunk b c = true ∧ c.length = (r.headD []).length) →
    s.agenda = answers ++ rest →
    ∃ a u : State, exec .scomb s = .next a ∧
      (a.busy = true ∧ a.phase = 2 ∧ a.request = some (.stream (.read (.part 0) 1)) ∧ a.xcount = 0 ∧ a.rlen = 0 ∧ a.mem = s.mem) ∧
      Sys2Proof.core.run answers.length a = .next u ∧
      u.channelBytes .main = s.channelBytes .main ++
        rounds.flatMap (fun r => combineBlock s.params.poly xs r (r.headD []).length) ∧
      (∀ j, u.channelBytes (.part j) = s.channelBytes (.part j)) ∧
      u.x.toList.take k = xs ∧ (∀ j : Fin 255, k ≤ j.val → u.x[j] = s.x[j]) ∧ u.xcount.toNat = k ∧
      u.rlen = BitVec.ofNat 32 (rounds.map fun r => (r.headD []).length).sum ∧
      { u with x := s.x, xcount := s.xcount, rlen := s.rlen, trace := s.trace } =
        { s with errcode := 0, done := true, err := false, agenda := rest }

/-- 44_streaming.md R250: an ERR or an illegal response to the outstanding stream request ends the command with code 6 and changes nothing else
but the record. That every channel's bytes are as before when the request is a WRITE is the model's choice: its transcript counts only
WRITEs answered OK (log 12). -/
def Obligations.IllegalStreamAnswersAreIoErrors : Prop :=
  ∀ (s : State) (r : StreamRequest) (a : StreamAnswer) (rest : List Event),
    s.eventIsNext (.stream a) rest → s.request = some (.stream r) → legalAnswer r a = false →
    ∃ t, step s = .next t ∧ (∀ ch, t.channelBytes ch = s.channelBytes ch) ∧
      { t with trace := s.trace } = { s with agenda := rest, errcode := 6, err := true, done := false, fsm := .idle }

/-- 44_streaming.md R261, R262, R264, R265: in SCOMB's header phase, EOF is an IOError with XCOUNT left as it is, and a last header that
repeats a coordinate is an ArithmeticError with XCOUNT = K, before any chunk is read. In a round whose part 0 gave a chunk, an EOF from a
later part is a PrematureEOFError, not a size mismatch, and a chunk of another length is a SizeMismatchError; no later part is read, and
the round writes and counts nothing. -/
def Obligations.ScombHeaderAndRoundErrors : Prop :=
  (∀ (s : State) (job : CombJob) (xs : List Byte) (x : Byte) (rest : List Event), s.fsm = .headerRead job xs →
    (s.eventIsNext (.stream .eof) rest →
      ∃ t, step s = .next t ∧ t.busy = false ∧ t.err = true ∧ t.errcode = 6 ∧ t.xcount = s.xcount ∧ t.rlen = s.rlen) ∧
    (s.eventIsNext (.stream (.chunk [x])) rest → job.k ≤ 254 → xs.length + 1 = job.k → ¬(xs ++ [x]).Nodup →
      ∃ t, step s = .next t ∧ t.busy = false ∧ t.err = true ∧ t.errcode = 2 ∧ t.xcount.toNat = job.k ∧ t.request = none ∧
        ∀ ch, t.channelBytes ch = s.channelBytes ch)) ∧
  ∀ (s : State) (job : CombJob) (xs c0 : List Byte) (cs : List (List Byte)) (c : List Byte) (rest : List Event),
    s.fsm = .partRead job xs (c0 :: cs) →
    (s.eventIsNext (.stream .eof) rest →
      ∃ t, step s = .next t ∧ t.errcode = 5 ∧ t.err = true ∧ t.request = none ∧ t.rlen = s.rlen ∧
        ∀ ch, t.channelBytes ch = s.channelBytes ch) ∧
    (s.eventIsNext (.stream (.chunk c)) rest → legalChunk job.block c = true → c.length ≠ c0.length →
      ∃ t, step s = .next t ∧ t.errcode = 4 ∧ t.err = true ∧ t.request = none ∧ t.rlen = s.rlen ∧
        ∀ ch, t.channelBytes ch = s.channelBytes ch)

/-- 44_streaming.md R262, R263: part 0's EOF completes under LEADER_ONLY; under SYMMETRIC parts 1 .. K-1 are read in turn, a chunk from one is a
PrematureEOFError, and the last EOF completes. -/
def Obligations.EndOfStreamRules : Prop :=
  ∀ (s : State) (job : CombJob) (xs c : List Byte) (k : Nat) (rest : List Event),
    (s.fsm = .partRead job xs [] → s.eventIsNext (.stream .eof) rest →
      ∃ t, step s = .next t ∧
        (job.eofpol = .leaderOnly → t.done = true ∧ t.errcode = 0 ∧ t.busy = false) ∧
        (job.eofpol = .symmetric → t.request = some (.stream (.read (.part 1) job.block)))) ∧
    (s.fsm = .endRead job k → s.eventIsNext (.stream .eof) rest →
      ∃ t, step s = .next t ∧
        (k + 1 < job.k → t.request = some (.stream (.read (.part (k + 1)) job.block))) ∧
        (job.k ≤ k + 1 → t.done = true ∧ t.errcode = 0 ∧ t.busy = false)) ∧
    (s.fsm = .endRead job k → s.eventIsNext (.stream (.chunk c)) rest → legalChunk job.block c = true →
      ∃ t, step s = .next t ∧ t.err = true ∧ t.errcode = 5 ∧ t.busy = false)

/-! ## Host duties -/

/-- 44_streaming.md R280-R283: the split pattern check, and the names an empty pattern produces are matched by the empty pattern at combine. -/
def Obligations.EmptyPatternNamesMatchAtCombine : Prop :=
  splitPatternOk [] = true ∧ (∀ k : Fin 255, nameMatches (partFileName [] k) [] = true) ∧
  (∀ (pattern : List Char) (input : MainStream), pattern ≠ [] → hasToken pattern = false → input.opens = true →
    splitHostError pattern input = some .validation)
end

