-- ==== Sys2Proof/Laws/HostDuties.lean ====
section
/-! SUPPORT. Laws/HostDuties.lean: what the host's operations can do: its answers are legal, its handles are released, its parts are the
matched entries in order. -/

namespace Sys2Proof.Machine

@[simp] theorem HostFile.close_written (f : HostFile) : f.close.written = f.written := rfl
@[simp] theorem HostFile.close_unread (f : HostFile) : f.close.unread = f.unread := rfl
@[simp] theorem HostFile.close_isOpen (f : HostFile) : f.close.isOpen = false := rfl

/-- After closing, no handle is held (44_streaming.md R288). -/
@[simp] theorem HostFiles.closeAll_handlesOpen (h : HostFiles) : h.closeAll.handlesOpen = false := by
  cases hm : h.main <;> simp [HostFiles.handlesOpen, HostFiles.closeAll, hm]

/-- CH_PART(k) of a combine is matched entry k (44_streaming.md R284). -/
theorem combineFiles_part (found : List DirEntry) (output : MainStream) (k : Nat) :
    (combineFiles found output).file (.part k) = found[k]?.map DirEntry.openInput := by
  simp [combineFiles, HostFiles.file]

/-- Every answer of the host is ERR or legal for the request (44_streaming.md R250, R289). -/
theorem HostFile.answerTo_legal (f : HostFile) (choice : HostChoice) (r : StreamRequest) (hmax : ∀ ch max, r = .read ch max → 1 ≤ max) :
    (f.answerTo choice r).1 = .err ∨ legalAnswer r (f.answerTo choice r).1 = true := by
  cases r with
  | write ch bytes =>
    rcases choice with chunk | _ | n
    · exact .inr rfl
    · exact .inl rfl
    · exact .inl rfl
  | read ch max =>
    have hm := hmax ch max rfl
    rcases choice with chunk | landed
    · simp only [HostFile.answerTo, HostFile.answerRead]
      split
      · exact .inl rfl
      · right
        split
        · rfl
        · rename_i b bs hu
          have h1 : 1 ≤ f.kind.chunkLength chunk max ∧ f.kind.chunkLength chunk max ≤ max := by
            cases f.kind <;> simp [StreamKind.chunkLength] <;> omega
          simp only [legalAnswer, legalChunk, hu, List.length_take, List.length_cons, Bool.and_eq_true, decide_eq_true_eq]
          omega
    · exact .inl rfl

/-- The end of an operation: nothing yet, or every handle released and the unit's outcome reported (44_streaming.md R288, R289). -/
theorem Served.settle_cases (v : Served) :
    ((v.running = false ∨ v.unit.busy = true) ∧ v.settle = v) ∨
    (v.running = true ∧ v.unit.busy = false ∧
      v.settle = { v with files := v.files.closeAll, running := false, report := some v.unit.report }) := by
  unfold Served.settle
  cases v.running <;> cases v.unit.busy <;> simp

/-- An operation in progress whose unit is idle after `settle` holds no handle. -/
theorem Served.settle_releases (v : Served) (hr : v.running = true) (hb : v.unit.busy = false) :
    v.settle.files.handlesOpen = false ∧ v.settle.running = false := by
  simp [Served.settle, hr, hb]

/-- The host's own error: nothing is held, the unit is as it was (44_streaming.md R285, R288). -/
theorem Served.refuse_spec (v : Served) (acquired : HostFiles) (e : ErrorKind) :
    (v.refuse acquired e).files.handlesOpen = false ∧ (v.refuse acquired e).unit = v.unit ∧
      (v.refuse acquired e).report = some (.failed e) := by
  simp [Served.refuse]

end Sys2Proof.Machine
end

