-- ==== Sys2Proof/Laws/Memory.lean ====
section
/-! SUPPORT. Laws/Memory.lean: reads after writes, and that every memory operation keeps the canonical form. -/

namespace Sys2Proof.Machine

/-- A read after a write: the written byte at its address, every other address as before. -/
theorem Memory.find_store (m : Memory) (a b : Nat) (v : Byte) :
    (m.store a v).find b = if b = a then some v else m.find b := by
  induction m with
  | nil => simp [Memory.store, Memory.find]
  | cons c m ih =>
    obtain ⟨k, w⟩ := c
    simp only [Memory.store]
    split
    · simp [Memory.find]
    · split
      · rename_i h
        subst h
        simp only [Memory.find]
        split <;> rfl
      · rename_i h1 h2
        simp only [Memory.find, ih]
        by_cases hb : b = a
        · subst hb; simp [h2]
        · simp [hb]

/-- A block write: byte i of the block at a + i, every other address as before. -/
theorem Memory.find_storeAll (m : Memory) (a b : Nat) (bytes : List Byte) :
    (m.storeAll a bytes).find b = if a ≤ b ∧ b < a + bytes.length then bytes[b - a]? else m.find b := by
  induction bytes generalizing m a with
  | nil => simp [Memory.storeAll]
  | cons c cs ih =>
    rw [Memory.storeAll, ih, Memory.find_store]
    by_cases h : b = a
    · subst h; simp
    · by_cases h2 : a + 1 ≤ b ∧ b < a + 1 + cs.length
      · have h3 : a ≤ b ∧ b < a + (c :: cs).length := by simp; omega
        have h4 : b - a = (b - (a + 1)) + 1 := by omega
        rw [if_pos h2, if_pos h3, h4]
        simp
      · have h3 : ¬(a ≤ b ∧ b < a + (c :: cs).length) := by simp; omega
        rw [if_neg h2, if_neg h3, if_neg h]

/-- Shares are written as one contiguous block, in order (43_engine.md R216). -/
theorem Memory.storeShares_eq (m : Memory) (a : Nat) (shares : List (List Byte)) :
    m.storeShares a shares = m.storeAll a shares.flatten := by
  induction shares generalizing m a with
  | nil => rfl
  | cons sh shs ih =>
    have append : ∀ (xs ys : List Byte) (m : Memory) (a : Nat),
        m.storeAll a (xs ++ ys) = (m.storeAll a xs).storeAll (a + xs.length) ys := by
      intro xs
      induction xs with
      | nil => intro ys m a; simp [Memory.storeAll]
      | cons x xs ihx =>
        intro ys m a
        rw [List.cons_append, Memory.storeAll, ihx, Memory.storeAll, List.length_cons]
        congr 1
        omega
    rw [Memory.storeShares, ih, List.flatten_cons, append]

/-- The canonical form as a property of neighbouring entries, wherever the head stands. -/
theorem Memory.wf_cons (c : Host.Cell) (m : Memory) :
    Memory.wf (c :: m) = true ↔ (∀ d ∈ m, c.1 < d.1) ∧ m.wf = true := by
  induction m generalizing c with
  | nil => simp [Memory.wf]
  | cons d m ih =>
    simp only [Memory.wf, Bool.and_eq_true, decide_eq_true_eq]
    constructor
    · rintro ⟨h, hw⟩
      refine ⟨?_, hw⟩
      intro e he
      rcases List.mem_cons.1 he with rfl | he
      · exact h
      · exact lt_trans h (((ih d).1 hw).1 e he)
    · rintro ⟨h, hw⟩
      exact ⟨h d (by simp), hw⟩

/-- What a byte write lists: the new entry and entries that were listed. -/
theorem Memory.mem_store {m : Memory} {a : Nat} {v : Byte} {c : Host.Cell} (h : c ∈ m.store a v) : c = (a, v) ∨ c ∈ m := by
  induction m with
  | nil => simpa [Memory.store] using h
  | cons d m ih =>
    obtain ⟨k, w⟩ := d
    simp only [Memory.store] at h
    split at h
    · simpa using h
    · split at h
      · rcases List.mem_cons.1 h with h | h
        · exact .inl h
        · exact .inr (List.mem_cons_of_mem _ h)
      · rcases List.mem_cons.1 h with h | h
        · exact .inr (h ▸ List.mem_cons_self)
        · rcases ih h with h | h
          · exact .inl h
          · exact .inr (List.mem_cons_of_mem _ h)

/-- A byte write keeps the canonical form. -/
theorem Memory.wf_store {m : Memory} (h : m.wf = true) (a : Nat) (v : Byte) : (m.store a v).wf = true := by
  induction m with
  | nil => rfl
  | cons d m ih =>
    obtain ⟨k, w⟩ := d
    obtain ⟨hk, hm⟩ := (Memory.wf_cons _ _).1 h
    simp only [Memory.store]
    split
    · rename_i hlt
      refine (Memory.wf_cons _ _).2 ⟨?_, h⟩
      intro e he
      rcases List.mem_cons.1 he with rfl | he
      · exact hlt
      · exact lt_trans hlt (hk e he)
    · split
      · rename_i heq
        subst heq
        exact (Memory.wf_cons _ _).2 ⟨hk, hm⟩
      · refine (Memory.wf_cons _ _).2 ⟨?_, ih hm⟩
        intro e he
        rcases Memory.mem_store he with rfl | he
        · show k < a; omega
        · exact hk e he

/-- A block write keeps the canonical form. -/
theorem Memory.wf_storeAll {m : Memory} (h : m.wf = true) (a : Nat) (bytes : List Byte) : (m.storeAll a bytes).wf = true := by
  induction bytes generalizing m a with
  | nil => exact h
  | cons b bs ih => exact ih (Memory.wf_store h a b) (a + 1)

/-- Writing shares keeps the canonical form. -/
theorem Memory.wf_storeShares {m : Memory} (h : m.wf = true) (a : Nat) (shares : List (List Byte)) :
    (m.storeShares a shares).wf = true := by
  rw [Memory.storeShares_eq]; exact Memory.wf_storeAll h a _

/-- What a block write lists: entries that were listed, and addresses of the block. -/
theorem Memory.mem_storeAll {m : Memory} {a : Nat} {bytes : List Byte} {c : Host.Cell} (h : c ∈ m.storeAll a bytes) :
    (a ≤ c.1 ∧ c.1 < a + bytes.length) ∨ c ∈ m := by
  induction bytes generalizing m a with
  | nil => exact .inr h
  | cons b bs ih =>
    rcases ih h with h | h
    · refine .inl ⟨by omega, ?_⟩
      simp only [List.length_cons]; omega
    · rcases Memory.mem_store h with rfl | h
      · exact .inl ⟨le_refl _, by simp⟩
      · exact .inr h

/-- Reset memory is canonical. -/
theorem Memory.wf_reset : State.reset.mem.wf = true := rfl

end Sys2Proof.Machine
end

