-- ==== Sys2Proof/Laws/State.lean ====
section
/-! SUPPORT. Laws/State.lean: for each update of State, what each field is afterwards. True by rfl, so that no later proof unfolds a record
update. -/

namespace Sys2Proof.Machine

@[simp] theorem State.setG_params (s : State) (i : Reg) (v : Byte) : (s.setG i v).params = s.params := rfl
@[simp] theorem State.setG_g (s : State) (i : Reg) (v : Byte) : (s.setG i v).g = s.g.set i.toNat v (by have := i.isLt; omega) := rfl
@[simp] theorem State.setG_c (s : State) (i : Reg) (v : Byte) : (s.setG i v).c = s.c := rfl
@[simp] theorem State.setG_pdeg (s : State) (i : Reg) (v : Byte) : (s.setG i v).pdeg = s.pdeg := rfl
@[simp] theorem State.setG_pvalid (s : State) (i : Reg) (v : Byte) : (s.setG i v).pvalid = s.pvalid := rfl
@[simp] theorem State.setG_x (s : State) (i : Reg) (v : Byte) : (s.setG i v).x = s.x := rfl
@[simp] theorem State.setG_xcount (s : State) (i : Reg) (v : Byte) : (s.setG i v).xcount = s.xcount := rfl
@[simp] theorem State.setG_done (s : State) (i : Reg) (v : Byte) : (s.setG i v).done = s.done := rfl
@[simp] theorem State.setG_err (s : State) (i : Reg) (v : Byte) : (s.setG i v).err = s.err := rfl
@[simp] theorem State.setG_ovr (s : State) (i : Reg) (v : Byte) : (s.setG i v).ovr = s.ovr := rfl
@[simp] theorem State.setG_errcode (s : State) (i : Reg) (v : Byte) : (s.setG i v).errcode = s.errcode := rfl
@[simp] theorem State.setG_ie (s : State) (i : Reg) (v : Byte) : (s.setG i v).ie = s.ie := rfl
@[simp] theorem State.setG_policy (s : State) (i : Reg) (v : Byte) : (s.setG i v).policy = s.policy := rfl
@[simp] theorem State.setG_eofpol (s : State) (i : Reg) (v : Byte) : (s.setG i v).eofpol = s.eofpol := rfl
@[simp] theorem State.setG_cfgN (s : State) (i : Reg) (v : Byte) : (s.setG i v).cfgN = s.cfgN := rfl
@[simp] theorem State.setG_cfgT (s : State) (i : Reg) (v : Byte) : (s.setG i v).cfgT = s.cfgT := rfl
@[simp] theorem State.setG_cfgK (s : State) (i : Reg) (v : Byte) : (s.setG i v).cfgK = s.cfgK := rfl
@[simp] theorem State.setG_cfgBlock (s : State) (i : Reg) (v : Byte) : (s.setG i v).cfgBlock = s.cfgBlock := rfl
@[simp] theorem State.setG_cfgSrc (s : State) (i : Reg) (v : Byte) : (s.setG i v).cfgSrc = s.cfgSrc := rfl
@[simp] theorem State.setG_cfgDst (s : State) (i : Reg) (v : Byte) : (s.setG i v).cfgDst = s.cfgDst := rfl
@[simp] theorem State.setG_cfgLen (s : State) (i : Reg) (v : Byte) : (s.setG i v).cfgLen = s.cfgLen := rfl
@[simp] theorem State.setG_rlen (s : State) (i : Reg) (v : Byte) : (s.setG i v).rlen = s.rlen := rfl
@[simp] theorem State.setG_cmdcount (s : State) (i : Reg) (v : Byte) : (s.setG i v).cmdcount = s.cmdcount := rfl
@[simp] theorem State.setG_cmdWord (s : State) (i : Reg) (v : Byte) : (s.setG i v).cmdWord = s.cmdWord := rfl
@[simp] theorem State.setG_mem (s : State) (i : Reg) (v : Byte) : (s.setG i v).mem = s.mem := rfl
@[simp] theorem State.setG_fsm (s : State) (i : Reg) (v : Byte) : (s.setG i v).fsm = s.fsm := rfl
@[simp] theorem State.setG_heldMem (s : State) (i : Reg) (v : Byte) : (s.setG i v).heldMem = s.heldMem := rfl
@[simp] theorem State.setG_trace (s : State) (i : Reg) (v : Byte) : (s.setG i v).trace = s.trace := rfl
@[simp] theorem State.setG_agenda (s : State) (i : Reg) (v : Byte) : (s.setG i v).agenda = s.agenda := rfl
@[simp] theorem State.setG_gWritten (s : State) (i : Reg) (v : Byte) : (s.setG i v).gWritten = s.gWritten ||| (1#16 <<< i.toNat) := rfl
@[simp] theorem State.setG_epoch (s : State) (i : Reg) (v : Byte) : (s.setG i v).epoch = s.epoch := rfl
@[simp] theorem State.setG_freeCount (s : State) (i : Reg) (v : Byte) : (s.setG i v).freeCount = s.freeCount := rfl

@[simp] theorem State.setC_params (s : State) (i : Nat) (v : Byte) : (s.setC i v).params = s.params := rfl
@[simp] theorem State.setC_g (s : State) (i : Nat) (v : Byte) : (s.setC i v).g = s.g := rfl
@[simp] theorem State.setC_c (s : State) (i : Nat) (v : Byte) : (s.setC i v).c = s.c.setIfInBounds i v := rfl
@[simp] theorem State.setC_pdeg (s : State) (i : Nat) (v : Byte) : (s.setC i v).pdeg = s.pdeg := rfl
@[simp] theorem State.setC_pvalid (s : State) (i : Nat) (v : Byte) : (s.setC i v).pvalid = s.pvalid := rfl
@[simp] theorem State.setC_x (s : State) (i : Nat) (v : Byte) : (s.setC i v).x = s.x := rfl
@[simp] theorem State.setC_xcount (s : State) (i : Nat) (v : Byte) : (s.setC i v).xcount = s.xcount := rfl
@[simp] theorem State.setC_done (s : State) (i : Nat) (v : Byte) : (s.setC i v).done = s.done := rfl
@[simp] theorem State.setC_err (s : State) (i : Nat) (v : Byte) : (s.setC i v).err = s.err := rfl
@[simp] theorem State.setC_ovr (s : State) (i : Nat) (v : Byte) : (s.setC i v).ovr = s.ovr := rfl
@[simp] theorem State.setC_errcode (s : State) (i : Nat) (v : Byte) : (s.setC i v).errcode = s.errcode := rfl
@[simp] theorem State.setC_ie (s : State) (i : Nat) (v : Byte) : (s.setC i v).ie = s.ie := rfl
@[simp] theorem State.setC_policy (s : State) (i : Nat) (v : Byte) : (s.setC i v).policy = s.policy := rfl
@[simp] theorem State.setC_eofpol (s : State) (i : Nat) (v : Byte) : (s.setC i v).eofpol = s.eofpol := rfl
@[simp] theorem State.setC_cfgN (s : State) (i : Nat) (v : Byte) : (s.setC i v).cfgN = s.cfgN := rfl
@[simp] theorem State.setC_cfgT (s : State) (i : Nat) (v : Byte) : (s.setC i v).cfgT = s.cfgT := rfl
@[simp] theorem State.setC_cfgK (s : State) (i : Nat) (v : Byte) : (s.setC i v).cfgK = s.cfgK := rfl
@[simp] theorem State.setC_cfgBlock (s : State) (i : Nat) (v : Byte) : (s.setC i v).cfgBlock = s.cfgBlock := rfl
@[simp] theorem State.setC_cfgSrc (s : State) (i : Nat) (v : Byte) : (s.setC i v).cfgSrc = s.cfgSrc := rfl
@[simp] theorem State.setC_cfgDst (s : State) (i : Nat) (v : Byte) : (s.setC i v).cfgDst = s.cfgDst := rfl
@[simp] theorem State.setC_cfgLen (s : State) (i : Nat) (v : Byte) : (s.setC i v).cfgLen = s.cfgLen := rfl
@[simp] theorem State.setC_rlen (s : State) (i : Nat) (v : Byte) : (s.setC i v).rlen = s.rlen := rfl
@[simp] theorem State.setC_cmdcount (s : State) (i : Nat) (v : Byte) : (s.setC i v).cmdcount = s.cmdcount := rfl
@[simp] theorem State.setC_cmdWord (s : State) (i : Nat) (v : Byte) : (s.setC i v).cmdWord = s.cmdWord := rfl
@[simp] theorem State.setC_mem (s : State) (i : Nat) (v : Byte) : (s.setC i v).mem = s.mem := rfl
@[simp] theorem State.setC_fsm (s : State) (i : Nat) (v : Byte) : (s.setC i v).fsm = s.fsm := rfl
@[simp] theorem State.setC_heldMem (s : State) (i : Nat) (v : Byte) : (s.setC i v).heldMem = s.heldMem := rfl
@[simp] theorem State.setC_trace (s : State) (i : Nat) (v : Byte) : (s.setC i v).trace = s.trace := rfl
@[simp] theorem State.setC_agenda (s : State) (i : Nat) (v : Byte) : (s.setC i v).agenda = s.agenda := rfl
@[simp] theorem State.setC_gWritten (s : State) (i : Nat) (v : Byte) : (s.setC i v).gWritten = s.gWritten := rfl
@[simp] theorem State.setC_epoch (s : State) (i : Nat) (v : Byte) : (s.setC i v).epoch = s.epoch := rfl
@[simp] theorem State.setC_freeCount (s : State) (i : Nat) (v : Byte) : (s.setC i v).freeCount = s.freeCount := rfl

@[simp] theorem State.setX_params (s : State) (k : Nat) (v : Byte) : (s.setX k v).params = s.params := rfl
@[simp] theorem State.setX_g (s : State) (k : Nat) (v : Byte) : (s.setX k v).g = s.g := rfl
@[simp] theorem State.setX_c (s : State) (k : Nat) (v : Byte) : (s.setX k v).c = s.c := rfl
@[simp] theorem State.setX_pdeg (s : State) (k : Nat) (v : Byte) : (s.setX k v).pdeg = s.pdeg := rfl
@[simp] theorem State.setX_pvalid (s : State) (k : Nat) (v : Byte) : (s.setX k v).pvalid = s.pvalid := rfl
@[simp] theorem State.setX_x (s : State) (k : Nat) (v : Byte) : (s.setX k v).x = s.x.setIfInBounds k v := rfl
@[simp] theorem State.setX_xcount (s : State) (k : Nat) (v : Byte) : (s.setX k v).xcount = s.xcount := rfl
@[simp] theorem State.setX_done (s : State) (k : Nat) (v : Byte) : (s.setX k v).done = s.done := rfl
@[simp] theorem State.setX_err (s : State) (k : Nat) (v : Byte) : (s.setX k v).err = s.err := rfl
@[simp] theorem State.setX_ovr (s : State) (k : Nat) (v : Byte) : (s.setX k v).ovr = s.ovr := rfl
@[simp] theorem State.setX_errcode (s : State) (k : Nat) (v : Byte) : (s.setX k v).errcode = s.errcode := rfl
@[simp] theorem State.setX_ie (s : State) (k : Nat) (v : Byte) : (s.setX k v).ie = s.ie := rfl
@[simp] theorem State.setX_policy (s : State) (k : Nat) (v : Byte) : (s.setX k v).policy = s.policy := rfl
@[simp] theorem State.setX_eofpol (s : State) (k : Nat) (v : Byte) : (s.setX k v).eofpol = s.eofpol := rfl
@[simp] theorem State.setX_cfgN (s : State) (k : Nat) (v : Byte) : (s.setX k v).cfgN = s.cfgN := rfl
@[simp] theorem State.setX_cfgT (s : State) (k : Nat) (v : Byte) : (s.setX k v).cfgT = s.cfgT := rfl
@[simp] theorem State.setX_cfgK (s : State) (k : Nat) (v : Byte) : (s.setX k v).cfgK = s.cfgK := rfl
@[simp] theorem State.setX_cfgBlock (s : State) (k : Nat) (v : Byte) : (s.setX k v).cfgBlock = s.cfgBlock := rfl
@[simp] theorem State.setX_cfgSrc (s : State) (k : Nat) (v : Byte) : (s.setX k v).cfgSrc = s.cfgSrc := rfl
@[simp] theorem State.setX_cfgDst (s : State) (k : Nat) (v : Byte) : (s.setX k v).cfgDst = s.cfgDst := rfl
@[simp] theorem State.setX_cfgLen (s : State) (k : Nat) (v : Byte) : (s.setX k v).cfgLen = s.cfgLen := rfl
@[simp] theorem State.setX_rlen (s : State) (k : Nat) (v : Byte) : (s.setX k v).rlen = s.rlen := rfl
@[simp] theorem State.setX_cmdcount (s : State) (k : Nat) (v : Byte) : (s.setX k v).cmdcount = s.cmdcount := rfl
@[simp] theorem State.setX_cmdWord (s : State) (k : Nat) (v : Byte) : (s.setX k v).cmdWord = s.cmdWord := rfl
@[simp] theorem State.setX_mem (s : State) (k : Nat) (v : Byte) : (s.setX k v).mem = s.mem := rfl
@[simp] theorem State.setX_fsm (s : State) (k : Nat) (v : Byte) : (s.setX k v).fsm = s.fsm := rfl
@[simp] theorem State.setX_heldMem (s : State) (k : Nat) (v : Byte) : (s.setX k v).heldMem = s.heldMem := rfl
@[simp] theorem State.setX_trace (s : State) (k : Nat) (v : Byte) : (s.setX k v).trace = s.trace := rfl
@[simp] theorem State.setX_agenda (s : State) (k : Nat) (v : Byte) : (s.setX k v).agenda = s.agenda := rfl
@[simp] theorem State.setX_gWritten (s : State) (k : Nat) (v : Byte) : (s.setX k v).gWritten = s.gWritten := rfl
@[simp] theorem State.setX_epoch (s : State) (k : Nat) (v : Byte) : (s.setX k v).epoch = s.epoch := rfl
@[simp] theorem State.setX_freeCount (s : State) (k : Nat) (v : Byte) : (s.setX k v).freeCount = s.freeCount := rfl

@[simp] theorem State.log_params (s : State) (t : Transaction) : (s.log t).params = s.params := rfl
@[simp] theorem State.log_g (s : State) (t : Transaction) : (s.log t).g = s.g := rfl
@[simp] theorem State.log_c (s : State) (t : Transaction) : (s.log t).c = s.c := rfl
@[simp] theorem State.log_pdeg (s : State) (t : Transaction) : (s.log t).pdeg = s.pdeg := rfl
@[simp] theorem State.log_pvalid (s : State) (t : Transaction) : (s.log t).pvalid = s.pvalid := rfl
@[simp] theorem State.log_x (s : State) (t : Transaction) : (s.log t).x = s.x := rfl
@[simp] theorem State.log_xcount (s : State) (t : Transaction) : (s.log t).xcount = s.xcount := rfl
@[simp] theorem State.log_done (s : State) (t : Transaction) : (s.log t).done = s.done := rfl
@[simp] theorem State.log_err (s : State) (t : Transaction) : (s.log t).err = s.err := rfl
@[simp] theorem State.log_ovr (s : State) (t : Transaction) : (s.log t).ovr = s.ovr := rfl
@[simp] theorem State.log_errcode (s : State) (t : Transaction) : (s.log t).errcode = s.errcode := rfl
@[simp] theorem State.log_ie (s : State) (t : Transaction) : (s.log t).ie = s.ie := rfl
@[simp] theorem State.log_policy (s : State) (t : Transaction) : (s.log t).policy = s.policy := rfl
@[simp] theorem State.log_eofpol (s : State) (t : Transaction) : (s.log t).eofpol = s.eofpol := rfl
@[simp] theorem State.log_cfgN (s : State) (t : Transaction) : (s.log t).cfgN = s.cfgN := rfl
@[simp] theorem State.log_cfgT (s : State) (t : Transaction) : (s.log t).cfgT = s.cfgT := rfl
@[simp] theorem State.log_cfgK (s : State) (t : Transaction) : (s.log t).cfgK = s.cfgK := rfl
@[simp] theorem State.log_cfgBlock (s : State) (t : Transaction) : (s.log t).cfgBlock = s.cfgBlock := rfl
@[simp] theorem State.log_cfgSrc (s : State) (t : Transaction) : (s.log t).cfgSrc = s.cfgSrc := rfl
@[simp] theorem State.log_cfgDst (s : State) (t : Transaction) : (s.log t).cfgDst = s.cfgDst := rfl
@[simp] theorem State.log_cfgLen (s : State) (t : Transaction) : (s.log t).cfgLen = s.cfgLen := rfl
@[simp] theorem State.log_rlen (s : State) (t : Transaction) : (s.log t).rlen = s.rlen := rfl
@[simp] theorem State.log_cmdcount (s : State) (t : Transaction) : (s.log t).cmdcount = s.cmdcount := rfl
@[simp] theorem State.log_cmdWord (s : State) (t : Transaction) : (s.log t).cmdWord = s.cmdWord := rfl
@[simp] theorem State.log_mem (s : State) (t : Transaction) : (s.log t).mem = s.mem := rfl
@[simp] theorem State.log_fsm (s : State) (t : Transaction) : (s.log t).fsm = s.fsm := rfl
@[simp] theorem State.log_heldMem (s : State) (t : Transaction) : (s.log t).heldMem = s.heldMem := rfl
@[simp] theorem State.log_trace (s : State) (t : Transaction) : (s.log t).trace = s.trace ++ [t] := rfl
@[simp] theorem State.log_agenda (s : State) (t : Transaction) : (s.log t).agenda = s.agenda := rfl
@[simp] theorem State.log_gWritten (s : State) (t : Transaction) : (s.log t).gWritten = s.gWritten := rfl
@[simp] theorem State.log_epoch (s : State) (t : Transaction) : (s.log t).epoch = s.epoch := rfl
@[simp] theorem State.log_freeCount (s : State) (t : Transaction) : (s.log t).freeCount = s.freeCount := rfl

@[simp] theorem State.writeByte_params (s : State) (a : Nat) (v : Byte) : (s.writeByte a v).params = s.params := rfl
@[simp] theorem State.writeByte_g (s : State) (a : Nat) (v : Byte) : (s.writeByte a v).g = s.g := rfl
@[simp] theorem State.writeByte_c (s : State) (a : Nat) (v : Byte) : (s.writeByte a v).c = s.c := rfl
@[simp] theorem State.writeByte_pdeg (s : State) (a : Nat) (v : Byte) : (s.writeByte a v).pdeg = s.pdeg := rfl
@[simp] theorem State.writeByte_pvalid (s : State) (a : Nat) (v : Byte) : (s.writeByte a v).pvalid = s.pvalid := rfl
@[simp] theorem State.writeByte_x (s : State) (a : Nat) (v : Byte) : (s.writeByte a v).x = s.x := rfl
@[simp] theorem State.writeByte_xcount (s : State) (a : Nat) (v : Byte) : (s.writeByte a v).xcount = s.xcount := rfl
@[simp] theorem State.writeByte_done (s : State) (a : Nat) (v : Byte) : (s.writeByte a v).done = s.done := rfl
@[simp] theorem State.writeByte_err (s : State) (a : Nat) (v : Byte) : (s.writeByte a v).err = s.err := rfl
@[simp] theorem State.writeByte_ovr (s : State) (a : Nat) (v : Byte) : (s.writeByte a v).ovr = s.ovr := rfl
@[simp] theorem State.writeByte_errcode (s : State) (a : Nat) (v : Byte) : (s.writeByte a v).errcode = s.errcode := rfl
@[simp] theorem State.writeByte_ie (s : State) (a : Nat) (v : Byte) : (s.writeByte a v).ie = s.ie := rfl
@[simp] theorem State.writeByte_policy (s : State) (a : Nat) (v : Byte) : (s.writeByte a v).policy = s.policy := rfl
@[simp] theorem State.writeByte_eofpol (s : State) (a : Nat) (v : Byte) : (s.writeByte a v).eofpol = s.eofpol := rfl
@[simp] theorem State.writeByte_cfgN (s : State) (a : Nat) (v : Byte) : (s.writeByte a v).cfgN = s.cfgN := rfl
@[simp] theorem State.writeByte_cfgT (s : State) (a : Nat) (v : Byte) : (s.writeByte a v).cfgT = s.cfgT := rfl
@[simp] theorem State.writeByte_cfgK (s : State) (a : Nat) (v : Byte) : (s.writeByte a v).cfgK = s.cfgK := rfl
@[simp] theorem State.writeByte_cfgBlock (s : State) (a : Nat) (v : Byte) : (s.writeByte a v).cfgBlock = s.cfgBlock := rfl
@[simp] theorem State.writeByte_cfgSrc (s : State) (a : Nat) (v : Byte) : (s.writeByte a v).cfgSrc = s.cfgSrc := rfl
@[simp] theorem State.writeByte_cfgDst (s : State) (a : Nat) (v : Byte) : (s.writeByte a v).cfgDst = s.cfgDst := rfl
@[simp] theorem State.writeByte_cfgLen (s : State) (a : Nat) (v : Byte) : (s.writeByte a v).cfgLen = s.cfgLen := rfl
@[simp] theorem State.writeByte_rlen (s : State) (a : Nat) (v : Byte) : (s.writeByte a v).rlen = s.rlen := rfl
@[simp] theorem State.writeByte_cmdcount (s : State) (a : Nat) (v : Byte) : (s.writeByte a v).cmdcount = s.cmdcount := rfl
@[simp] theorem State.writeByte_cmdWord (s : State) (a : Nat) (v : Byte) : (s.writeByte a v).cmdWord = s.cmdWord := rfl
@[simp] theorem State.writeByte_mem (s : State) (a : Nat) (v : Byte) : (s.writeByte a v).mem = s.mem.store a v := rfl
@[simp] theorem State.writeByte_fsm (s : State) (a : Nat) (v : Byte) : (s.writeByte a v).fsm = s.fsm := rfl
@[simp] theorem State.writeByte_heldMem (s : State) (a : Nat) (v : Byte) : (s.writeByte a v).heldMem = s.heldMem := rfl
@[simp] theorem State.writeByte_trace (s : State) (a : Nat) (v : Byte) : (s.writeByte a v).trace = s.trace := rfl
@[simp] theorem State.writeByte_agenda (s : State) (a : Nat) (v : Byte) : (s.writeByte a v).agenda = s.agenda := rfl
@[simp] theorem State.writeByte_gWritten (s : State) (a : Nat) (v : Byte) : (s.writeByte a v).gWritten = s.gWritten := rfl
@[simp] theorem State.writeByte_epoch (s : State) (a : Nat) (v : Byte) : (s.writeByte a v).epoch = s.epoch := rfl
@[simp] theorem State.writeByte_freeCount (s : State) (a : Nat) (v : Byte) : (s.writeByte a v).freeCount = s.freeCount := rfl

@[simp] theorem State.writeBytes_params (s : State) (a : Nat) (bytes : List Byte) : (s.writeBytes a bytes).params = s.params := rfl
@[simp] theorem State.writeBytes_g (s : State) (a : Nat) (bytes : List Byte) : (s.writeBytes a bytes).g = s.g := rfl
@[simp] theorem State.writeBytes_c (s : State) (a : Nat) (bytes : List Byte) : (s.writeBytes a bytes).c = s.c := rfl
@[simp] theorem State.writeBytes_pdeg (s : State) (a : Nat) (bytes : List Byte) : (s.writeBytes a bytes).pdeg = s.pdeg := rfl
@[simp] theorem State.writeBytes_pvalid (s : State) (a : Nat) (bytes : List Byte) : (s.writeBytes a bytes).pvalid = s.pvalid := rfl
@[simp] theorem State.writeBytes_x (s : State) (a : Nat) (bytes : List Byte) : (s.writeBytes a bytes).x = s.x := rfl
@[simp] theorem State.writeBytes_xcount (s : State) (a : Nat) (bytes : List Byte) : (s.writeBytes a bytes).xcount = s.xcount := rfl
@[simp] theorem State.writeBytes_done (s : State) (a : Nat) (bytes : List Byte) : (s.writeBytes a bytes).done = s.done := rfl
@[simp] theorem State.writeBytes_err (s : State) (a : Nat) (bytes : List Byte) : (s.writeBytes a bytes).err = s.err := rfl
@[simp] theorem State.writeBytes_ovr (s : State) (a : Nat) (bytes : List Byte) : (s.writeBytes a bytes).ovr = s.ovr := rfl
@[simp] theorem State.writeBytes_errcode (s : State) (a : Nat) (bytes : List Byte) : (s.writeBytes a bytes).errcode = s.errcode := rfl
@[simp] theorem State.writeBytes_ie (s : State) (a : Nat) (bytes : List Byte) : (s.writeBytes a bytes).ie = s.ie := rfl
@[simp] theorem State.writeBytes_policy (s : State) (a : Nat) (bytes : List Byte) : (s.writeBytes a bytes).policy = s.policy := rfl
@[simp] theorem State.writeBytes_eofpol (s : State) (a : Nat) (bytes : List Byte) : (s.writeBytes a bytes).eofpol = s.eofpol := rfl
@[simp] theorem State.writeBytes_cfgN (s : State) (a : Nat) (bytes : List Byte) : (s.writeBytes a bytes).cfgN = s.cfgN := rfl
@[simp] theorem State.writeBytes_cfgT (s : State) (a : Nat) (bytes : List Byte) : (s.writeBytes a bytes).cfgT = s.cfgT := rfl
@[simp] theorem State.writeBytes_cfgK (s : State) (a : Nat) (bytes : List Byte) : (s.writeBytes a bytes).cfgK = s.cfgK := rfl
@[simp] theorem State.writeBytes_cfgBlock (s : State) (a : Nat) (bytes : List Byte) : (s.writeBytes a bytes).cfgBlock = s.cfgBlock := rfl
@[simp] theorem State.writeBytes_cfgSrc (s : State) (a : Nat) (bytes : List Byte) : (s.writeBytes a bytes).cfgSrc = s.cfgSrc := rfl
@[simp] theorem State.writeBytes_cfgDst (s : State) (a : Nat) (bytes : List Byte) : (s.writeBytes a bytes).cfgDst = s.cfgDst := rfl
@[simp] theorem State.writeBytes_cfgLen (s : State) (a : Nat) (bytes : List Byte) : (s.writeBytes a bytes).cfgLen = s.cfgLen := rfl
@[simp] theorem State.writeBytes_rlen (s : State) (a : Nat) (bytes : List Byte) : (s.writeBytes a bytes).rlen = s.rlen := rfl
@[simp] theorem State.writeBytes_cmdcount (s : State) (a : Nat) (bytes : List Byte) : (s.writeBytes a bytes).cmdcount = s.cmdcount := rfl
@[simp] theorem State.writeBytes_cmdWord (s : State) (a : Nat) (bytes : List Byte) : (s.writeBytes a bytes).cmdWord = s.cmdWord := rfl
@[simp] theorem State.writeBytes_mem (s : State) (a : Nat) (bytes : List Byte) : (s.writeBytes a bytes).mem = s.mem.storeAll a bytes := rfl
@[simp] theorem State.writeBytes_fsm (s : State) (a : Nat) (bytes : List Byte) : (s.writeBytes a bytes).fsm = s.fsm := rfl
@[simp] theorem State.writeBytes_heldMem (s : State) (a : Nat) (bytes : List Byte) : (s.writeBytes a bytes).heldMem = s.heldMem := rfl
@[simp] theorem State.writeBytes_trace (s : State) (a : Nat) (bytes : List Byte) : (s.writeBytes a bytes).trace = s.trace := rfl
@[simp] theorem State.writeBytes_agenda (s : State) (a : Nat) (bytes : List Byte) : (s.writeBytes a bytes).agenda = s.agenda := rfl
@[simp] theorem State.writeBytes_gWritten (s : State) (a : Nat) (bytes : List Byte) : (s.writeBytes a bytes).gWritten = s.gWritten := rfl
@[simp] theorem State.writeBytes_epoch (s : State) (a : Nat) (bytes : List Byte) : (s.writeBytes a bytes).epoch = s.epoch := rfl
@[simp] theorem State.writeBytes_freeCount (s : State) (a : Nat) (bytes : List Byte) : (s.writeBytes a bytes).freeCount = s.freeCount := rfl

@[simp] theorem State.complete_params (s : State) : s.complete.params = s.params := rfl
@[simp] theorem State.complete_g (s : State) : s.complete.g = s.g := rfl
@[simp] theorem State.complete_c (s : State) : s.complete.c = s.c := rfl
@[simp] theorem State.complete_pdeg (s : State) : s.complete.pdeg = s.pdeg := rfl
@[simp] theorem State.complete_pvalid (s : State) : s.complete.pvalid = s.pvalid := rfl
@[simp] theorem State.complete_x (s : State) : s.complete.x = s.x := rfl
@[simp] theorem State.complete_xcount (s : State) : s.complete.xcount = s.xcount := rfl
@[simp] theorem State.complete_done (s : State) : s.complete.done = true := rfl
@[simp] theorem State.complete_err (s : State) : s.complete.err = false := rfl
@[simp] theorem State.complete_ovr (s : State) : s.complete.ovr = s.ovr := rfl
@[simp] theorem State.complete_errcode (s : State) : s.complete.errcode = 0 := rfl
@[simp] theorem State.complete_ie (s : State) : s.complete.ie = s.ie := rfl
@[simp] theorem State.complete_policy (s : State) : s.complete.policy = s.policy := rfl
@[simp] theorem State.complete_eofpol (s : State) : s.complete.eofpol = s.eofpol := rfl
@[simp] theorem State.complete_cfgN (s : State) : s.complete.cfgN = s.cfgN := rfl
@[simp] theorem State.complete_cfgT (s : State) : s.complete.cfgT = s.cfgT := rfl
@[simp] theorem State.complete_cfgK (s : State) : s.complete.cfgK = s.cfgK := rfl
@[simp] theorem State.complete_cfgBlock (s : State) : s.complete.cfgBlock = s.cfgBlock := rfl
@[simp] theorem State.complete_cfgSrc (s : State) : s.complete.cfgSrc = s.cfgSrc := rfl
@[simp] theorem State.complete_cfgDst (s : State) : s.complete.cfgDst = s.cfgDst := rfl
@[simp] theorem State.complete_cfgLen (s : State) : s.complete.cfgLen = s.cfgLen := rfl
@[simp] theorem State.complete_rlen (s : State) : s.complete.rlen = s.rlen := rfl
@[simp] theorem State.complete_cmdcount (s : State) : s.complete.cmdcount = s.cmdcount := rfl
@[simp] theorem State.complete_cmdWord (s : State) : s.complete.cmdWord = s.cmdWord := rfl
@[simp] theorem State.complete_mem (s : State) : s.complete.mem = s.mem := rfl
@[simp] theorem State.complete_fsm (s : State) : s.complete.fsm = .idle := rfl
@[simp] theorem State.complete_heldMem (s : State) : s.complete.heldMem = s.heldMem := rfl
@[simp] theorem State.complete_trace (s : State) : s.complete.trace = s.trace := rfl
@[simp] theorem State.complete_agenda (s : State) : s.complete.agenda = s.agenda := rfl
@[simp] theorem State.complete_gWritten (s : State) : s.complete.gWritten = s.gWritten := rfl
@[simp] theorem State.complete_epoch (s : State) : s.complete.epoch = s.epoch := rfl
@[simp] theorem State.complete_freeCount (s : State) : s.complete.freeCount = s.freeCount := rfl

@[simp] theorem State.raise_params (s : State) (e : ErrorKind) : (s.raise e).params = s.params := rfl
@[simp] theorem State.raise_g (s : State) (e : ErrorKind) : (s.raise e).g = s.g := rfl
@[simp] theorem State.raise_c (s : State) (e : ErrorKind) : (s.raise e).c = s.c := rfl
@[simp] theorem State.raise_pdeg (s : State) (e : ErrorKind) : (s.raise e).pdeg = s.pdeg := rfl
@[simp] theorem State.raise_pvalid (s : State) (e : ErrorKind) : (s.raise e).pvalid = s.pvalid := rfl
@[simp] theorem State.raise_x (s : State) (e : ErrorKind) : (s.raise e).x = s.x := rfl
@[simp] theorem State.raise_xcount (s : State) (e : ErrorKind) : (s.raise e).xcount = s.xcount := rfl
@[simp] theorem State.raise_done (s : State) (e : ErrorKind) : (s.raise e).done = false := rfl
@[simp] theorem State.raise_err (s : State) (e : ErrorKind) : (s.raise e).err = true := rfl
@[simp] theorem State.raise_ovr (s : State) (e : ErrorKind) : (s.raise e).ovr = s.ovr := rfl
@[simp] theorem State.raise_errcode (s : State) (e : ErrorKind) : (s.raise e).errcode = e.code := rfl
@[simp] theorem State.raise_ie (s : State) (e : ErrorKind) : (s.raise e).ie = s.ie := rfl
@[simp] theorem State.raise_policy (s : State) (e : ErrorKind) : (s.raise e).policy = s.policy := rfl
@[simp] theorem State.raise_eofpol (s : State) (e : ErrorKind) : (s.raise e).eofpol = s.eofpol := rfl
@[simp] theorem State.raise_cfgN (s : State) (e : ErrorKind) : (s.raise e).cfgN = s.cfgN := rfl
@[simp] theorem State.raise_cfgT (s : State) (e : ErrorKind) : (s.raise e).cfgT = s.cfgT := rfl
@[simp] theorem State.raise_cfgK (s : State) (e : ErrorKind) : (s.raise e).cfgK = s.cfgK := rfl
@[simp] theorem State.raise_cfgBlock (s : State) (e : ErrorKind) : (s.raise e).cfgBlock = s.cfgBlock := rfl
@[simp] theorem State.raise_cfgSrc (s : State) (e : ErrorKind) : (s.raise e).cfgSrc = s.cfgSrc := rfl
@[simp] theorem State.raise_cfgDst (s : State) (e : ErrorKind) : (s.raise e).cfgDst = s.cfgDst := rfl
@[simp] theorem State.raise_cfgLen (s : State) (e : ErrorKind) : (s.raise e).cfgLen = s.cfgLen := rfl
@[simp] theorem State.raise_rlen (s : State) (e : ErrorKind) : (s.raise e).rlen = s.rlen := rfl
@[simp] theorem State.raise_cmdcount (s : State) (e : ErrorKind) : (s.raise e).cmdcount = s.cmdcount := rfl
@[simp] theorem State.raise_cmdWord (s : State) (e : ErrorKind) : (s.raise e).cmdWord = s.cmdWord := rfl
@[simp] theorem State.raise_mem (s : State) (e : ErrorKind) : (s.raise e).mem = s.mem := rfl
@[simp] theorem State.raise_fsm (s : State) (e : ErrorKind) : (s.raise e).fsm = .idle := rfl
@[simp] theorem State.raise_heldMem (s : State) (e : ErrorKind) : (s.raise e).heldMem = s.heldMem := rfl
@[simp] theorem State.raise_trace (s : State) (e : ErrorKind) : (s.raise e).trace = s.trace := rfl
@[simp] theorem State.raise_agenda (s : State) (e : ErrorKind) : (s.raise e).agenda = s.agenda := rfl
@[simp] theorem State.raise_gWritten (s : State) (e : ErrorKind) : (s.raise e).gWritten = s.gWritten := rfl
@[simp] theorem State.raise_epoch (s : State) (e : ErrorKind) : (s.raise e).epoch = s.epoch := rfl
@[simp] theorem State.raise_freeCount (s : State) (e : ErrorKind) : (s.raise e).freeCount = s.freeCount := rfl

@[simp] theorem State.accept_params (s : State) (w : Word) : (s.accept w).params = s.params := rfl
@[simp] theorem State.accept_g (s : State) (w : Word) : (s.accept w).g = s.g := rfl
@[simp] theorem State.accept_c (s : State) (w : Word) : (s.accept w).c = s.c := rfl
@[simp] theorem State.accept_pdeg (s : State) (w : Word) : (s.accept w).pdeg = s.pdeg := rfl
@[simp] theorem State.accept_pvalid (s : State) (w : Word) : (s.accept w).pvalid = s.pvalid := rfl
@[simp] theorem State.accept_x (s : State) (w : Word) : (s.accept w).x = s.x := rfl
@[simp] theorem State.accept_xcount (s : State) (w : Word) : (s.accept w).xcount = s.xcount := rfl
@[simp] theorem State.accept_done (s : State) (w : Word) : (s.accept w).done = false := rfl
@[simp] theorem State.accept_err (s : State) (w : Word) : (s.accept w).err = false := rfl
@[simp] theorem State.accept_ovr (s : State) (w : Word) : (s.accept w).ovr = s.ovr := rfl
@[simp] theorem State.accept_errcode (s : State) (w : Word) : (s.accept w).errcode = s.errcode := rfl
@[simp] theorem State.accept_ie (s : State) (w : Word) : (s.accept w).ie = s.ie := rfl
@[simp] theorem State.accept_policy (s : State) (w : Word) : (s.accept w).policy = s.policy := rfl
@[simp] theorem State.accept_eofpol (s : State) (w : Word) : (s.accept w).eofpol = s.eofpol := rfl
@[simp] theorem State.accept_cfgN (s : State) (w : Word) : (s.accept w).cfgN = s.cfgN := rfl
@[simp] theorem State.accept_cfgT (s : State) (w : Word) : (s.accept w).cfgT = s.cfgT := rfl
@[simp] theorem State.accept_cfgK (s : State) (w : Word) : (s.accept w).cfgK = s.cfgK := rfl
@[simp] theorem State.accept_cfgBlock (s : State) (w : Word) : (s.accept w).cfgBlock = s.cfgBlock := rfl
@[simp] theorem State.accept_cfgSrc (s : State) (w : Word) : (s.accept w).cfgSrc = s.cfgSrc := rfl
@[simp] theorem State.accept_cfgDst (s : State) (w : Word) : (s.accept w).cfgDst = s.cfgDst := rfl
@[simp] theorem State.accept_cfgLen (s : State) (w : Word) : (s.accept w).cfgLen = s.cfgLen := rfl
@[simp] theorem State.accept_rlen (s : State) (w : Word) : (s.accept w).rlen = s.rlen := rfl
@[simp] theorem State.accept_cmdcount (s : State) (w : Word) : (s.accept w).cmdcount = s.cmdcount + 1 := rfl
@[simp] theorem State.accept_cmdWord (s : State) (w : Word) : (s.accept w).cmdWord = w := rfl
@[simp] theorem State.accept_mem (s : State) (w : Word) : (s.accept w).mem = s.mem := rfl
@[simp] theorem State.accept_fsm (s : State) (w : Word) : (s.accept w).fsm = s.fsm := rfl
@[simp] theorem State.accept_heldMem (s : State) (w : Word) : (s.accept w).heldMem = s.heldMem := rfl
@[simp] theorem State.accept_trace (s : State) (w : Word) : (s.accept w).trace = s.trace := rfl
@[simp] theorem State.accept_agenda (s : State) (w : Word) : (s.accept w).agenda = s.agenda := rfl
@[simp] theorem State.accept_gWritten (s : State) (w : Word) : (s.accept w).gWritten = s.gWritten := rfl
@[simp] theorem State.accept_epoch (s : State) (w : Word) : (s.accept w).epoch = s.epoch := rfl
@[simp] theorem State.accept_freeCount (s : State) (w : Word) : (s.accept w).freeCount = s.freeCount := rfl

@[simp] theorem State.dropWrite_params (s : State) : s.dropWrite.params = s.params := rfl
@[simp] theorem State.dropWrite_g (s : State) : s.dropWrite.g = s.g := rfl
@[simp] theorem State.dropWrite_c (s : State) : s.dropWrite.c = s.c := rfl
@[simp] theorem State.dropWrite_pdeg (s : State) : s.dropWrite.pdeg = s.pdeg := rfl
@[simp] theorem State.dropWrite_pvalid (s : State) : s.dropWrite.pvalid = s.pvalid := rfl
@[simp] theorem State.dropWrite_x (s : State) : s.dropWrite.x = s.x := rfl
@[simp] theorem State.dropWrite_xcount (s : State) : s.dropWrite.xcount = s.xcount := rfl
@[simp] theorem State.dropWrite_done (s : State) : s.dropWrite.done = s.done := rfl
@[simp] theorem State.dropWrite_err (s : State) : s.dropWrite.err = s.err := rfl
@[simp] theorem State.dropWrite_ovr (s : State) : s.dropWrite.ovr = true := rfl
@[simp] theorem State.dropWrite_errcode (s : State) : s.dropWrite.errcode = s.errcode := rfl
@[simp] theorem State.dropWrite_ie (s : State) : s.dropWrite.ie = s.ie := rfl
@[simp] theorem State.dropWrite_policy (s : State) : s.dropWrite.policy = s.policy := rfl
@[simp] theorem State.dropWrite_eofpol (s : State) : s.dropWrite.eofpol = s.eofpol := rfl
@[simp] theorem State.dropWrite_cfgN (s : State) : s.dropWrite.cfgN = s.cfgN := rfl
@[simp] theorem State.dropWrite_cfgT (s : State) : s.dropWrite.cfgT = s.cfgT := rfl
@[simp] theorem State.dropWrite_cfgK (s : State) : s.dropWrite.cfgK = s.cfgK := rfl
@[simp] theorem State.dropWrite_cfgBlock (s : State) : s.dropWrite.cfgBlock = s.cfgBlock := rfl
@[simp] theorem State.dropWrite_cfgSrc (s : State) : s.dropWrite.cfgSrc = s.cfgSrc := rfl
@[simp] theorem State.dropWrite_cfgDst (s : State) : s.dropWrite.cfgDst = s.cfgDst := rfl
@[simp] theorem State.dropWrite_cfgLen (s : State) : s.dropWrite.cfgLen = s.cfgLen := rfl
@[simp] theorem State.dropWrite_rlen (s : State) : s.dropWrite.rlen = s.rlen := rfl
@[simp] theorem State.dropWrite_cmdcount (s : State) : s.dropWrite.cmdcount = s.cmdcount := rfl
@[simp] theorem State.dropWrite_cmdWord (s : State) : s.dropWrite.cmdWord = s.cmdWord := rfl
@[simp] theorem State.dropWrite_mem (s : State) : s.dropWrite.mem = s.mem := rfl
@[simp] theorem State.dropWrite_fsm (s : State) : s.dropWrite.fsm = s.fsm := rfl
@[simp] theorem State.dropWrite_heldMem (s : State) : s.dropWrite.heldMem = s.heldMem := rfl
@[simp] theorem State.dropWrite_trace (s : State) : s.dropWrite.trace = s.trace := rfl
@[simp] theorem State.dropWrite_agenda (s : State) : s.dropWrite.agenda = s.agenda := rfl
@[simp] theorem State.dropWrite_gWritten (s : State) : s.dropWrite.gWritten = s.gWritten := rfl
@[simp] theorem State.dropWrite_epoch (s : State) : s.dropWrite.epoch = s.epoch := rfl
@[simp] theorem State.dropWrite_freeCount (s : State) : s.dropWrite.freeCount = s.freeCount := rfl

@[simp] theorem State.clearStatus_params (s : State) (w : Word) : (s.clearStatus w).params = s.params := rfl
@[simp] theorem State.clearStatus_g (s : State) (w : Word) : (s.clearStatus w).g = s.g := rfl
@[simp] theorem State.clearStatus_c (s : State) (w : Word) : (s.clearStatus w).c = s.c := rfl
@[simp] theorem State.clearStatus_pdeg (s : State) (w : Word) : (s.clearStatus w).pdeg = s.pdeg := rfl
@[simp] theorem State.clearStatus_pvalid (s : State) (w : Word) : (s.clearStatus w).pvalid = s.pvalid := rfl
@[simp] theorem State.clearStatus_x (s : State) (w : Word) : (s.clearStatus w).x = s.x := rfl
@[simp] theorem State.clearStatus_xcount (s : State) (w : Word) : (s.clearStatus w).xcount = s.xcount := rfl
@[simp] theorem State.clearStatus_done (s : State) (w : Word) : (s.clearStatus w).done = (s.done && !w.getLsbD 1) := rfl
@[simp] theorem State.clearStatus_err (s : State) (w : Word) : (s.clearStatus w).err = (s.err && !w.getLsbD 2) := rfl
@[simp] theorem State.clearStatus_ovr (s : State) (w : Word) : (s.clearStatus w).ovr = (s.ovr && !w.getLsbD 3) := rfl
@[simp] theorem State.clearStatus_errcode (s : State) (w : Word) : (s.clearStatus w).errcode = s.errcode := rfl
@[simp] theorem State.clearStatus_ie (s : State) (w : Word) : (s.clearStatus w).ie = s.ie := rfl
@[simp] theorem State.clearStatus_policy (s : State) (w : Word) : (s.clearStatus w).policy = s.policy := rfl
@[simp] theorem State.clearStatus_eofpol (s : State) (w : Word) : (s.clearStatus w).eofpol = s.eofpol := rfl
@[simp] theorem State.clearStatus_cfgN (s : State) (w : Word) : (s.clearStatus w).cfgN = s.cfgN := rfl
@[simp] theorem State.clearStatus_cfgT (s : State) (w : Word) : (s.clearStatus w).cfgT = s.cfgT := rfl
@[simp] theorem State.clearStatus_cfgK (s : State) (w : Word) : (s.clearStatus w).cfgK = s.cfgK := rfl
@[simp] theorem State.clearStatus_cfgBlock (s : State) (w : Word) : (s.clearStatus w).cfgBlock = s.cfgBlock := rfl
@[simp] theorem State.clearStatus_cfgSrc (s : State) (w : Word) : (s.clearStatus w).cfgSrc = s.cfgSrc := rfl
@[simp] theorem State.clearStatus_cfgDst (s : State) (w : Word) : (s.clearStatus w).cfgDst = s.cfgDst := rfl
@[simp] theorem State.clearStatus_cfgLen (s : State) (w : Word) : (s.clearStatus w).cfgLen = s.cfgLen := rfl
@[simp] theorem State.clearStatus_rlen (s : State) (w : Word) : (s.clearStatus w).rlen = s.rlen := rfl
@[simp] theorem State.clearStatus_cmdcount (s : State) (w : Word) : (s.clearStatus w).cmdcount = s.cmdcount := rfl
@[simp] theorem State.clearStatus_cmdWord (s : State) (w : Word) : (s.clearStatus w).cmdWord = s.cmdWord := rfl
@[simp] theorem State.clearStatus_mem (s : State) (w : Word) : (s.clearStatus w).mem = s.mem := rfl
@[simp] theorem State.clearStatus_fsm (s : State) (w : Word) : (s.clearStatus w).fsm = s.fsm := rfl
@[simp] theorem State.clearStatus_heldMem (s : State) (w : Word) : (s.clearStatus w).heldMem = s.heldMem := rfl
@[simp] theorem State.clearStatus_trace (s : State) (w : Word) : (s.clearStatus w).trace = s.trace := rfl
@[simp] theorem State.clearStatus_agenda (s : State) (w : Word) : (s.clearStatus w).agenda = s.agenda := rfl
@[simp] theorem State.clearStatus_gWritten (s : State) (w : Word) : (s.clearStatus w).gWritten = s.gWritten := rfl
@[simp] theorem State.clearStatus_epoch (s : State) (w : Word) : (s.clearStatus w).epoch = s.epoch := rfl
@[simp] theorem State.clearStatus_freeCount (s : State) (w : Word) : (s.clearStatus w).freeCount = s.freeCount := rfl

@[simp] theorem State.finishPoly_params (s : State) (c0 : Byte) (d : Nat) : (s.finishPoly c0 d).params = s.params := rfl
@[simp] theorem State.finishPoly_g (s : State) (c0 : Byte) (d : Nat) : (s.finishPoly c0 d).g = s.g := rfl
@[simp] theorem State.finishPoly_c (s : State) (c0 : Byte) (d : Nat) : (s.finishPoly c0 d).c = s.c.setIfInBounds 0 c0 := rfl
@[simp] theorem State.finishPoly_pdeg (s : State) (c0 : Byte) (d : Nat) : (s.finishPoly c0 d).pdeg = BitVec.ofNat 8 d := rfl
@[simp] theorem State.finishPoly_pvalid (s : State) (c0 : Byte) (d : Nat) : (s.finishPoly c0 d).pvalid = true := rfl
@[simp] theorem State.finishPoly_x (s : State) (c0 : Byte) (d : Nat) : (s.finishPoly c0 d).x = s.x := rfl
@[simp] theorem State.finishPoly_xcount (s : State) (c0 : Byte) (d : Nat) : (s.finishPoly c0 d).xcount = s.xcount := rfl
@[simp] theorem State.finishPoly_done (s : State) (c0 : Byte) (d : Nat) : (s.finishPoly c0 d).done = true := rfl
@[simp] theorem State.finishPoly_err (s : State) (c0 : Byte) (d : Nat) : (s.finishPoly c0 d).err = false := rfl
@[simp] theorem State.finishPoly_ovr (s : State) (c0 : Byte) (d : Nat) : (s.finishPoly c0 d).ovr = s.ovr := rfl
@[simp] theorem State.finishPoly_errcode (s : State) (c0 : Byte) (d : Nat) : (s.finishPoly c0 d).errcode = 0 := rfl
@[simp] theorem State.finishPoly_ie (s : State) (c0 : Byte) (d : Nat) : (s.finishPoly c0 d).ie = s.ie := rfl
@[simp] theorem State.finishPoly_policy (s : State) (c0 : Byte) (d : Nat) : (s.finishPoly c0 d).policy = s.policy := rfl
@[simp] theorem State.finishPoly_eofpol (s : State) (c0 : Byte) (d : Nat) : (s.finishPoly c0 d).eofpol = s.eofpol := rfl
@[simp] theorem State.finishPoly_cfgN (s : State) (c0 : Byte) (d : Nat) : (s.finishPoly c0 d).cfgN = s.cfgN := rfl
@[simp] theorem State.finishPoly_cfgT (s : State) (c0 : Byte) (d : Nat) : (s.finishPoly c0 d).cfgT = s.cfgT := rfl
@[simp] theorem State.finishPoly_cfgK (s : State) (c0 : Byte) (d : Nat) : (s.finishPoly c0 d).cfgK = s.cfgK := rfl
@[simp] theorem State.finishPoly_cfgBlock (s : State) (c0 : Byte) (d : Nat) : (s.finishPoly c0 d).cfgBlock = s.cfgBlock := rfl
@[simp] theorem State.finishPoly_cfgSrc (s : State) (c0 : Byte) (d : Nat) : (s.finishPoly c0 d).cfgSrc = s.cfgSrc := rfl
@[simp] theorem State.finishPoly_cfgDst (s : State) (c0 : Byte) (d : Nat) : (s.finishPoly c0 d).cfgDst = s.cfgDst := rfl
@[simp] theorem State.finishPoly_cfgLen (s : State) (c0 : Byte) (d : Nat) : (s.finishPoly c0 d).cfgLen = s.cfgLen := rfl
@[simp] theorem State.finishPoly_rlen (s : State) (c0 : Byte) (d : Nat) : (s.finishPoly c0 d).rlen = s.rlen := rfl
@[simp] theorem State.finishPoly_cmdcount (s : State) (c0 : Byte) (d : Nat) : (s.finishPoly c0 d).cmdcount = s.cmdcount := rfl
@[simp] theorem State.finishPoly_cmdWord (s : State) (c0 : Byte) (d : Nat) : (s.finishPoly c0 d).cmdWord = s.cmdWord := rfl
@[simp] theorem State.finishPoly_mem (s : State) (c0 : Byte) (d : Nat) : (s.finishPoly c0 d).mem = s.mem := rfl
@[simp] theorem State.finishPoly_fsm (s : State) (c0 : Byte) (d : Nat) : (s.finishPoly c0 d).fsm = .idle := rfl
@[simp] theorem State.finishPoly_heldMem (s : State) (c0 : Byte) (d : Nat) : (s.finishPoly c0 d).heldMem = s.heldMem := rfl
@[simp] theorem State.finishPoly_trace (s : State) (c0 : Byte) (d : Nat) : (s.finishPoly c0 d).trace = s.trace := rfl
@[simp] theorem State.finishPoly_agenda (s : State) (c0 : Byte) (d : Nat) : (s.finishPoly c0 d).agenda = s.agenda := rfl
@[simp] theorem State.finishPoly_gWritten (s : State) (c0 : Byte) (d : Nat) : (s.finishPoly c0 d).gWritten = s.gWritten := rfl
@[simp] theorem State.finishPoly_epoch (s : State) (c0 : Byte) (d : Nat) : (s.finishPoly c0 d).epoch = s.epoch := rfl
@[simp] theorem State.finishPoly_freeCount (s : State) (c0 : Byte) (d : Nat) : (s.finishPoly c0 d).freeCount = s.freeCount := rfl

@[simp] theorem State.startSampling_params (s : State) (job : SplitJob) : (s.startSampling job).params = s.params := rfl
@[simp] theorem State.startSampling_g (s : State) (job : SplitJob) : (s.startSampling job).g = s.g := rfl
@[simp] theorem State.startSampling_c (s : State) (job : SplitJob) : (s.startSampling job).c = s.c := rfl
@[simp] theorem State.startSampling_pdeg (s : State) (job : SplitJob) : (s.startSampling job).pdeg = s.pdeg := rfl
@[simp] theorem State.startSampling_pvalid (s : State) (job : SplitJob) : (s.startSampling job).pvalid = s.pvalid := rfl
@[simp] theorem State.startSampling_x (s : State) (job : SplitJob) : (s.startSampling job).x = s.x := rfl
@[simp] theorem State.startSampling_xcount (s : State) (job : SplitJob) : (s.startSampling job).xcount = 0 := rfl
@[simp] theorem State.startSampling_done (s : State) (job : SplitJob) : (s.startSampling job).done = s.done := rfl
@[simp] theorem State.startSampling_err (s : State) (job : SplitJob) : (s.startSampling job).err = s.err := rfl
@[simp] theorem State.startSampling_ovr (s : State) (job : SplitJob) : (s.startSampling job).ovr = s.ovr := rfl
@[simp] theorem State.startSampling_errcode (s : State) (job : SplitJob) : (s.startSampling job).errcode = s.errcode := rfl
@[simp] theorem State.startSampling_ie (s : State) (job : SplitJob) : (s.startSampling job).ie = s.ie := rfl
@[simp] theorem State.startSampling_policy (s : State) (job : SplitJob) : (s.startSampling job).policy = s.policy := rfl
@[simp] theorem State.startSampling_eofpol (s : State) (job : SplitJob) : (s.startSampling job).eofpol = s.eofpol := rfl
@[simp] theorem State.startSampling_cfgN (s : State) (job : SplitJob) : (s.startSampling job).cfgN = s.cfgN := rfl
@[simp] theorem State.startSampling_cfgT (s : State) (job : SplitJob) : (s.startSampling job).cfgT = s.cfgT := rfl
@[simp] theorem State.startSampling_cfgK (s : State) (job : SplitJob) : (s.startSampling job).cfgK = s.cfgK := rfl
@[simp] theorem State.startSampling_cfgBlock (s : State) (job : SplitJob) : (s.startSampling job).cfgBlock = s.cfgBlock := rfl
@[simp] theorem State.startSampling_cfgSrc (s : State) (job : SplitJob) : (s.startSampling job).cfgSrc = s.cfgSrc := rfl
@[simp] theorem State.startSampling_cfgDst (s : State) (job : SplitJob) : (s.startSampling job).cfgDst = s.cfgDst := rfl
@[simp] theorem State.startSampling_cfgLen (s : State) (job : SplitJob) : (s.startSampling job).cfgLen = s.cfgLen := rfl
@[simp] theorem State.startSampling_rlen (s : State) (job : SplitJob) : (s.startSampling job).rlen = s.rlen := rfl
@[simp] theorem State.startSampling_cmdcount (s : State) (job : SplitJob) : (s.startSampling job).cmdcount = s.cmdcount := rfl
@[simp] theorem State.startSampling_cmdWord (s : State) (job : SplitJob) : (s.startSampling job).cmdWord = s.cmdWord := rfl
@[simp] theorem State.startSampling_mem (s : State) (job : SplitJob) : (s.startSampling job).mem = s.mem := rfl
@[simp] theorem State.startSampling_fsm (s : State) (job : SplitJob) : (s.startSampling job).fsm = .sampleDraw job [] := rfl
@[simp] theorem State.startSampling_heldMem (s : State) (job : SplitJob) : (s.startSampling job).heldMem = s.heldMem := rfl
@[simp] theorem State.startSampling_trace (s : State) (job : SplitJob) : (s.startSampling job).trace = s.trace := rfl
@[simp] theorem State.startSampling_agenda (s : State) (job : SplitJob) : (s.startSampling job).agenda = s.agenda := rfl
@[simp] theorem State.startSampling_gWritten (s : State) (job : SplitJob) : (s.startSampling job).gWritten = s.gWritten := rfl
@[simp] theorem State.startSampling_epoch (s : State) (job : SplitJob) : (s.startSampling job).epoch = s.epoch := rfl
@[simp] theorem State.startSampling_freeCount (s : State) (job : SplitJob) : (s.startSampling job).freeCount = s.freeCount := rfl

@[simp] theorem State.setXcount_params (s : State) (n : Nat) : (s.setXcount n).params = s.params := rfl
@[simp] theorem State.setXcount_g (s : State) (n : Nat) : (s.setXcount n).g = s.g := rfl
@[simp] theorem State.setXcount_c (s : State) (n : Nat) : (s.setXcount n).c = s.c := rfl
@[simp] theorem State.setXcount_pdeg (s : State) (n : Nat) : (s.setXcount n).pdeg = s.pdeg := rfl
@[simp] theorem State.setXcount_pvalid (s : State) (n : Nat) : (s.setXcount n).pvalid = s.pvalid := rfl
@[simp] theorem State.setXcount_x (s : State) (n : Nat) : (s.setXcount n).x = s.x := rfl
@[simp] theorem State.setXcount_xcount (s : State) (n : Nat) : (s.setXcount n).xcount = BitVec.ofNat 9 n := rfl
@[simp] theorem State.setXcount_done (s : State) (n : Nat) : (s.setXcount n).done = s.done := rfl
@[simp] theorem State.setXcount_err (s : State) (n : Nat) : (s.setXcount n).err = s.err := rfl
@[simp] theorem State.setXcount_ovr (s : State) (n : Nat) : (s.setXcount n).ovr = s.ovr := rfl
@[simp] theorem State.setXcount_errcode (s : State) (n : Nat) : (s.setXcount n).errcode = s.errcode := rfl
@[simp] theorem State.setXcount_ie (s : State) (n : Nat) : (s.setXcount n).ie = s.ie := rfl
@[simp] theorem State.setXcount_policy (s : State) (n : Nat) : (s.setXcount n).policy = s.policy := rfl
@[simp] theorem State.setXcount_eofpol (s : State) (n : Nat) : (s.setXcount n).eofpol = s.eofpol := rfl
@[simp] theorem State.setXcount_cfgN (s : State) (n : Nat) : (s.setXcount n).cfgN = s.cfgN := rfl
@[simp] theorem State.setXcount_cfgT (s : State) (n : Nat) : (s.setXcount n).cfgT = s.cfgT := rfl
@[simp] theorem State.setXcount_cfgK (s : State) (n : Nat) : (s.setXcount n).cfgK = s.cfgK := rfl
@[simp] theorem State.setXcount_cfgBlock (s : State) (n : Nat) : (s.setXcount n).cfgBlock = s.cfgBlock := rfl
@[simp] theorem State.setXcount_cfgSrc (s : State) (n : Nat) : (s.setXcount n).cfgSrc = s.cfgSrc := rfl
@[simp] theorem State.setXcount_cfgDst (s : State) (n : Nat) : (s.setXcount n).cfgDst = s.cfgDst := rfl
@[simp] theorem State.setXcount_cfgLen (s : State) (n : Nat) : (s.setXcount n).cfgLen = s.cfgLen := rfl
@[simp] theorem State.setXcount_rlen (s : State) (n : Nat) : (s.setXcount n).rlen = s.rlen := rfl
@[simp] theorem State.setXcount_cmdcount (s : State) (n : Nat) : (s.setXcount n).cmdcount = s.cmdcount := rfl
@[simp] theorem State.setXcount_cmdWord (s : State) (n : Nat) : (s.setXcount n).cmdWord = s.cmdWord := rfl
@[simp] theorem State.setXcount_mem (s : State) (n : Nat) : (s.setXcount n).mem = s.mem := rfl
@[simp] theorem State.setXcount_fsm (s : State) (n : Nat) : (s.setXcount n).fsm = s.fsm := rfl
@[simp] theorem State.setXcount_heldMem (s : State) (n : Nat) : (s.setXcount n).heldMem = s.heldMem := rfl
@[simp] theorem State.setXcount_trace (s : State) (n : Nat) : (s.setXcount n).trace = s.trace := rfl
@[simp] theorem State.setXcount_agenda (s : State) (n : Nat) : (s.setXcount n).agenda = s.agenda := rfl
@[simp] theorem State.setXcount_gWritten (s : State) (n : Nat) : (s.setXcount n).gWritten = s.gWritten := rfl
@[simp] theorem State.setXcount_epoch (s : State) (n : Nat) : (s.setXcount n).epoch = s.epoch := rfl
@[simp] theorem State.setXcount_freeCount (s : State) (n : Nat) : (s.setXcount n).freeCount = s.freeCount := rfl

@[simp] theorem State.setRlen_params (s : State) (v : Word) : (s.setRlen v).params = s.params := rfl
@[simp] theorem State.setRlen_g (s : State) (v : Word) : (s.setRlen v).g = s.g := rfl
@[simp] theorem State.setRlen_c (s : State) (v : Word) : (s.setRlen v).c = s.c := rfl
@[simp] theorem State.setRlen_pdeg (s : State) (v : Word) : (s.setRlen v).pdeg = s.pdeg := rfl
@[simp] theorem State.setRlen_pvalid (s : State) (v : Word) : (s.setRlen v).pvalid = s.pvalid := rfl
@[simp] theorem State.setRlen_x (s : State) (v : Word) : (s.setRlen v).x = s.x := rfl
@[simp] theorem State.setRlen_xcount (s : State) (v : Word) : (s.setRlen v).xcount = s.xcount := rfl
@[simp] theorem State.setRlen_done (s : State) (v : Word) : (s.setRlen v).done = s.done := rfl
@[simp] theorem State.setRlen_err (s : State) (v : Word) : (s.setRlen v).err = s.err := rfl
@[simp] theorem State.setRlen_ovr (s : State) (v : Word) : (s.setRlen v).ovr = s.ovr := rfl
@[simp] theorem State.setRlen_errcode (s : State) (v : Word) : (s.setRlen v).errcode = s.errcode := rfl
@[simp] theorem State.setRlen_ie (s : State) (v : Word) : (s.setRlen v).ie = s.ie := rfl
@[simp] theorem State.setRlen_policy (s : State) (v : Word) : (s.setRlen v).policy = s.policy := rfl
@[simp] theorem State.setRlen_eofpol (s : State) (v : Word) : (s.setRlen v).eofpol = s.eofpol := rfl
@[simp] theorem State.setRlen_cfgN (s : State) (v : Word) : (s.setRlen v).cfgN = s.cfgN := rfl
@[simp] theorem State.setRlen_cfgT (s : State) (v : Word) : (s.setRlen v).cfgT = s.cfgT := rfl
@[simp] theorem State.setRlen_cfgK (s : State) (v : Word) : (s.setRlen v).cfgK = s.cfgK := rfl
@[simp] theorem State.setRlen_cfgBlock (s : State) (v : Word) : (s.setRlen v).cfgBlock = s.cfgBlock := rfl
@[simp] theorem State.setRlen_cfgSrc (s : State) (v : Word) : (s.setRlen v).cfgSrc = s.cfgSrc := rfl
@[simp] theorem State.setRlen_cfgDst (s : State) (v : Word) : (s.setRlen v).cfgDst = s.cfgDst := rfl
@[simp] theorem State.setRlen_cfgLen (s : State) (v : Word) : (s.setRlen v).cfgLen = s.cfgLen := rfl
@[simp] theorem State.setRlen_rlen (s : State) (v : Word) : (s.setRlen v).rlen = v := rfl
@[simp] theorem State.setRlen_cmdcount (s : State) (v : Word) : (s.setRlen v).cmdcount = s.cmdcount := rfl
@[simp] theorem State.setRlen_cmdWord (s : State) (v : Word) : (s.setRlen v).cmdWord = s.cmdWord := rfl
@[simp] theorem State.setRlen_mem (s : State) (v : Word) : (s.setRlen v).mem = s.mem := rfl
@[simp] theorem State.setRlen_fsm (s : State) (v : Word) : (s.setRlen v).fsm = s.fsm := rfl
@[simp] theorem State.setRlen_heldMem (s : State) (v : Word) : (s.setRlen v).heldMem = s.heldMem := rfl
@[simp] theorem State.setRlen_trace (s : State) (v : Word) : (s.setRlen v).trace = s.trace := rfl
@[simp] theorem State.setRlen_agenda (s : State) (v : Word) : (s.setRlen v).agenda = s.agenda := rfl
@[simp] theorem State.setRlen_gWritten (s : State) (v : Word) : (s.setRlen v).gWritten = s.gWritten := rfl
@[simp] theorem State.setRlen_epoch (s : State) (v : Word) : (s.setRlen v).epoch = s.epoch := rfl
@[simp] theorem State.setRlen_freeCount (s : State) (v : Word) : (s.setRlen v).freeCount = s.freeCount := rfl

@[simp] theorem State.clearPvalid_params (s : State) : s.clearPvalid.params = s.params := rfl
@[simp] theorem State.clearPvalid_g (s : State) : s.clearPvalid.g = s.g := rfl
@[simp] theorem State.clearPvalid_c (s : State) : s.clearPvalid.c = s.c := rfl
@[simp] theorem State.clearPvalid_pdeg (s : State) : s.clearPvalid.pdeg = s.pdeg := rfl
@[simp] theorem State.clearPvalid_pvalid (s : State) : s.clearPvalid.pvalid = false := rfl
@[simp] theorem State.clearPvalid_x (s : State) : s.clearPvalid.x = s.x := rfl
@[simp] theorem State.clearPvalid_xcount (s : State) : s.clearPvalid.xcount = s.xcount := rfl
@[simp] theorem State.clearPvalid_done (s : State) : s.clearPvalid.done = s.done := rfl
@[simp] theorem State.clearPvalid_err (s : State) : s.clearPvalid.err = s.err := rfl
@[simp] theorem State.clearPvalid_ovr (s : State) : s.clearPvalid.ovr = s.ovr := rfl
@[simp] theorem State.clearPvalid_errcode (s : State) : s.clearPvalid.errcode = s.errcode := rfl
@[simp] theorem State.clearPvalid_ie (s : State) : s.clearPvalid.ie = s.ie := rfl
@[simp] theorem State.clearPvalid_policy (s : State) : s.clearPvalid.policy = s.policy := rfl
@[simp] theorem State.clearPvalid_eofpol (s : State) : s.clearPvalid.eofpol = s.eofpol := rfl
@[simp] theorem State.clearPvalid_cfgN (s : State) : s.clearPvalid.cfgN = s.cfgN := rfl
@[simp] theorem State.clearPvalid_cfgT (s : State) : s.clearPvalid.cfgT = s.cfgT := rfl
@[simp] theorem State.clearPvalid_cfgK (s : State) : s.clearPvalid.cfgK = s.cfgK := rfl
@[simp] theorem State.clearPvalid_cfgBlock (s : State) : s.clearPvalid.cfgBlock = s.cfgBlock := rfl
@[simp] theorem State.clearPvalid_cfgSrc (s : State) : s.clearPvalid.cfgSrc = s.cfgSrc := rfl
@[simp] theorem State.clearPvalid_cfgDst (s : State) : s.clearPvalid.cfgDst = s.cfgDst := rfl
@[simp] theorem State.clearPvalid_cfgLen (s : State) : s.clearPvalid.cfgLen = s.cfgLen := rfl
@[simp] theorem State.clearPvalid_rlen (s : State) : s.clearPvalid.rlen = s.rlen := rfl
@[simp] theorem State.clearPvalid_cmdcount (s : State) : s.clearPvalid.cmdcount = s.cmdcount := rfl
@[simp] theorem State.clearPvalid_cmdWord (s : State) : s.clearPvalid.cmdWord = s.cmdWord := rfl
@[simp] theorem State.clearPvalid_mem (s : State) : s.clearPvalid.mem = s.mem := rfl
@[simp] theorem State.clearPvalid_fsm (s : State) : s.clearPvalid.fsm = s.fsm := rfl
@[simp] theorem State.clearPvalid_heldMem (s : State) : s.clearPvalid.heldMem = s.heldMem := rfl
@[simp] theorem State.clearPvalid_trace (s : State) : s.clearPvalid.trace = s.trace := rfl
@[simp] theorem State.clearPvalid_agenda (s : State) : s.clearPvalid.agenda = s.agenda := rfl
@[simp] theorem State.clearPvalid_gWritten (s : State) : s.clearPvalid.gWritten = s.gWritten := rfl
@[simp] theorem State.clearPvalid_epoch (s : State) : s.clearPvalid.epoch = s.epoch := rfl
@[simp] theorem State.clearPvalid_freeCount (s : State) : s.clearPvalid.freeCount = s.freeCount := rfl

@[simp] theorem State.goto_params (s : State) (f : Fsm) : (s.goto f).params = s.params := rfl
@[simp] theorem State.goto_g (s : State) (f : Fsm) : (s.goto f).g = s.g := rfl
@[simp] theorem State.goto_c (s : State) (f : Fsm) : (s.goto f).c = s.c := rfl
@[simp] theorem State.goto_pdeg (s : State) (f : Fsm) : (s.goto f).pdeg = s.pdeg := rfl
@[simp] theorem State.goto_pvalid (s : State) (f : Fsm) : (s.goto f).pvalid = s.pvalid := rfl
@[simp] theorem State.goto_x (s : State) (f : Fsm) : (s.goto f).x = s.x := rfl
@[simp] theorem State.goto_xcount (s : State) (f : Fsm) : (s.goto f).xcount = s.xcount := rfl
@[simp] theorem State.goto_done (s : State) (f : Fsm) : (s.goto f).done = s.done := rfl
@[simp] theorem State.goto_err (s : State) (f : Fsm) : (s.goto f).err = s.err := rfl
@[simp] theorem State.goto_ovr (s : State) (f : Fsm) : (s.goto f).ovr = s.ovr := rfl
@[simp] theorem State.goto_errcode (s : State) (f : Fsm) : (s.goto f).errcode = s.errcode := rfl
@[simp] theorem State.goto_ie (s : State) (f : Fsm) : (s.goto f).ie = s.ie := rfl
@[simp] theorem State.goto_policy (s : State) (f : Fsm) : (s.goto f).policy = s.policy := rfl
@[simp] theorem State.goto_eofpol (s : State) (f : Fsm) : (s.goto f).eofpol = s.eofpol := rfl
@[simp] theorem State.goto_cfgN (s : State) (f : Fsm) : (s.goto f).cfgN = s.cfgN := rfl
@[simp] theorem State.goto_cfgT (s : State) (f : Fsm) : (s.goto f).cfgT = s.cfgT := rfl
@[simp] theorem State.goto_cfgK (s : State) (f : Fsm) : (s.goto f).cfgK = s.cfgK := rfl
@[simp] theorem State.goto_cfgBlock (s : State) (f : Fsm) : (s.goto f).cfgBlock = s.cfgBlock := rfl
@[simp] theorem State.goto_cfgSrc (s : State) (f : Fsm) : (s.goto f).cfgSrc = s.cfgSrc := rfl
@[simp] theorem State.goto_cfgDst (s : State) (f : Fsm) : (s.goto f).cfgDst = s.cfgDst := rfl
@[simp] theorem State.goto_cfgLen (s : State) (f : Fsm) : (s.goto f).cfgLen = s.cfgLen := rfl
@[simp] theorem State.goto_rlen (s : State) (f : Fsm) : (s.goto f).rlen = s.rlen := rfl
@[simp] theorem State.goto_cmdcount (s : State) (f : Fsm) : (s.goto f).cmdcount = s.cmdcount := rfl
@[simp] theorem State.goto_cmdWord (s : State) (f : Fsm) : (s.goto f).cmdWord = s.cmdWord := rfl
@[simp] theorem State.goto_mem (s : State) (f : Fsm) : (s.goto f).mem = s.mem := rfl
@[simp] theorem State.goto_fsm (s : State) (f : Fsm) : (s.goto f).fsm = f := rfl
@[simp] theorem State.goto_heldMem (s : State) (f : Fsm) : (s.goto f).heldMem = s.heldMem := rfl
@[simp] theorem State.goto_trace (s : State) (f : Fsm) : (s.goto f).trace = s.trace := rfl
@[simp] theorem State.goto_agenda (s : State) (f : Fsm) : (s.goto f).agenda = s.agenda := rfl
@[simp] theorem State.goto_gWritten (s : State) (f : Fsm) : (s.goto f).gWritten = s.gWritten := rfl
@[simp] theorem State.goto_epoch (s : State) (f : Fsm) : (s.goto f).epoch = s.epoch := rfl
@[simp] theorem State.goto_freeCount (s : State) (f : Fsm) : (s.goto f).freeCount = s.freeCount := rfl

@[simp] theorem State.withAgenda_params (s : State) (rest : List Event) : (s.withAgenda rest).params = s.params := rfl
@[simp] theorem State.withAgenda_g (s : State) (rest : List Event) : (s.withAgenda rest).g = s.g := rfl
@[simp] theorem State.withAgenda_c (s : State) (rest : List Event) : (s.withAgenda rest).c = s.c := rfl
@[simp] theorem State.withAgenda_pdeg (s : State) (rest : List Event) : (s.withAgenda rest).pdeg = s.pdeg := rfl
@[simp] theorem State.withAgenda_pvalid (s : State) (rest : List Event) : (s.withAgenda rest).pvalid = s.pvalid := rfl
@[simp] theorem State.withAgenda_x (s : State) (rest : List Event) : (s.withAgenda rest).x = s.x := rfl
@[simp] theorem State.withAgenda_xcount (s : State) (rest : List Event) : (s.withAgenda rest).xcount = s.xcount := rfl
@[simp] theorem State.withAgenda_done (s : State) (rest : List Event) : (s.withAgenda rest).done = s.done := rfl
@[simp] theorem State.withAgenda_err (s : State) (rest : List Event) : (s.withAgenda rest).err = s.err := rfl
@[simp] theorem State.withAgenda_ovr (s : State) (rest : List Event) : (s.withAgenda rest).ovr = s.ovr := rfl
@[simp] theorem State.withAgenda_errcode (s : State) (rest : List Event) : (s.withAgenda rest).errcode = s.errcode := rfl
@[simp] theorem State.withAgenda_ie (s : State) (rest : List Event) : (s.withAgenda rest).ie = s.ie := rfl
@[simp] theorem State.withAgenda_policy (s : State) (rest : List Event) : (s.withAgenda rest).policy = s.policy := rfl
@[simp] theorem State.withAgenda_eofpol (s : State) (rest : List Event) : (s.withAgenda rest).eofpol = s.eofpol := rfl
@[simp] theorem State.withAgenda_cfgN (s : State) (rest : List Event) : (s.withAgenda rest).cfgN = s.cfgN := rfl
@[simp] theorem State.withAgenda_cfgT (s : State) (rest : List Event) : (s.withAgenda rest).cfgT = s.cfgT := rfl
@[simp] theorem State.withAgenda_cfgK (s : State) (rest : List Event) : (s.withAgenda rest).cfgK = s.cfgK := rfl
@[simp] theorem State.withAgenda_cfgBlock (s : State) (rest : List Event) : (s.withAgenda rest).cfgBlock = s.cfgBlock := rfl
@[simp] theorem State.withAgenda_cfgSrc (s : State) (rest : List Event) : (s.withAgenda rest).cfgSrc = s.cfgSrc := rfl
@[simp] theorem State.withAgenda_cfgDst (s : State) (rest : List Event) : (s.withAgenda rest).cfgDst = s.cfgDst := rfl
@[simp] theorem State.withAgenda_cfgLen (s : State) (rest : List Event) : (s.withAgenda rest).cfgLen = s.cfgLen := rfl
@[simp] theorem State.withAgenda_rlen (s : State) (rest : List Event) : (s.withAgenda rest).rlen = s.rlen := rfl
@[simp] theorem State.withAgenda_cmdcount (s : State) (rest : List Event) : (s.withAgenda rest).cmdcount = s.cmdcount := rfl
@[simp] theorem State.withAgenda_cmdWord (s : State) (rest : List Event) : (s.withAgenda rest).cmdWord = s.cmdWord := rfl
@[simp] theorem State.withAgenda_mem (s : State) (rest : List Event) : (s.withAgenda rest).mem = s.mem := rfl
@[simp] theorem State.withAgenda_fsm (s : State) (rest : List Event) : (s.withAgenda rest).fsm = s.fsm := rfl
@[simp] theorem State.withAgenda_heldMem (s : State) (rest : List Event) : (s.withAgenda rest).heldMem = s.heldMem := rfl
@[simp] theorem State.withAgenda_trace (s : State) (rest : List Event) : (s.withAgenda rest).trace = s.trace := rfl
@[simp] theorem State.withAgenda_agenda (s : State) (rest : List Event) : (s.withAgenda rest).agenda = rest := rfl
@[simp] theorem State.withAgenda_gWritten (s : State) (rest : List Event) : (s.withAgenda rest).gWritten = s.gWritten := rfl
@[simp] theorem State.withAgenda_epoch (s : State) (rest : List Event) : (s.withAgenda rest).epoch = s.epoch := rfl
@[simp] theorem State.withAgenda_freeCount (s : State) (rest : List Event) : (s.withAgenda rest).freeCount = s.freeCount := rfl

@[simp] theorem State.withHeld_params (s : State) (ts : List MemTxn) : (s.withHeld ts).params = s.params := rfl
@[simp] theorem State.withHeld_g (s : State) (ts : List MemTxn) : (s.withHeld ts).g = s.g := rfl
@[simp] theorem State.withHeld_c (s : State) (ts : List MemTxn) : (s.withHeld ts).c = s.c := rfl
@[simp] theorem State.withHeld_pdeg (s : State) (ts : List MemTxn) : (s.withHeld ts).pdeg = s.pdeg := rfl
@[simp] theorem State.withHeld_pvalid (s : State) (ts : List MemTxn) : (s.withHeld ts).pvalid = s.pvalid := rfl
@[simp] theorem State.withHeld_x (s : State) (ts : List MemTxn) : (s.withHeld ts).x = s.x := rfl
@[simp] theorem State.withHeld_xcount (s : State) (ts : List MemTxn) : (s.withHeld ts).xcount = s.xcount := rfl
@[simp] theorem State.withHeld_done (s : State) (ts : List MemTxn) : (s.withHeld ts).done = s.done := rfl
@[simp] theorem State.withHeld_err (s : State) (ts : List MemTxn) : (s.withHeld ts).err = s.err := rfl
@[simp] theorem State.withHeld_ovr (s : State) (ts : List MemTxn) : (s.withHeld ts).ovr = s.ovr := rfl
@[simp] theorem State.withHeld_errcode (s : State) (ts : List MemTxn) : (s.withHeld ts).errcode = s.errcode := rfl
@[simp] theorem State.withHeld_ie (s : State) (ts : List MemTxn) : (s.withHeld ts).ie = s.ie := rfl
@[simp] theorem State.withHeld_policy (s : State) (ts : List MemTxn) : (s.withHeld ts).policy = s.policy := rfl
@[simp] theorem State.withHeld_eofpol (s : State) (ts : List MemTxn) : (s.withHeld ts).eofpol = s.eofpol := rfl
@[simp] theorem State.withHeld_cfgN (s : State) (ts : List MemTxn) : (s.withHeld ts).cfgN = s.cfgN := rfl
@[simp] theorem State.withHeld_cfgT (s : State) (ts : List MemTxn) : (s.withHeld ts).cfgT = s.cfgT := rfl
@[simp] theorem State.withHeld_cfgK (s : State) (ts : List MemTxn) : (s.withHeld ts).cfgK = s.cfgK := rfl
@[simp] theorem State.withHeld_cfgBlock (s : State) (ts : List MemTxn) : (s.withHeld ts).cfgBlock = s.cfgBlock := rfl
@[simp] theorem State.withHeld_cfgSrc (s : State) (ts : List MemTxn) : (s.withHeld ts).cfgSrc = s.cfgSrc := rfl
@[simp] theorem State.withHeld_cfgDst (s : State) (ts : List MemTxn) : (s.withHeld ts).cfgDst = s.cfgDst := rfl
@[simp] theorem State.withHeld_cfgLen (s : State) (ts : List MemTxn) : (s.withHeld ts).cfgLen = s.cfgLen := rfl
@[simp] theorem State.withHeld_rlen (s : State) (ts : List MemTxn) : (s.withHeld ts).rlen = s.rlen := rfl
@[simp] theorem State.withHeld_cmdcount (s : State) (ts : List MemTxn) : (s.withHeld ts).cmdcount = s.cmdcount := rfl
@[simp] theorem State.withHeld_cmdWord (s : State) (ts : List MemTxn) : (s.withHeld ts).cmdWord = s.cmdWord := rfl
@[simp] theorem State.withHeld_mem (s : State) (ts : List MemTxn) : (s.withHeld ts).mem = s.mem := rfl
@[simp] theorem State.withHeld_fsm (s : State) (ts : List MemTxn) : (s.withHeld ts).fsm = s.fsm := rfl
@[simp] theorem State.withHeld_heldMem (s : State) (ts : List MemTxn) : (s.withHeld ts).heldMem = ts := rfl
@[simp] theorem State.withHeld_trace (s : State) (ts : List MemTxn) : (s.withHeld ts).trace = s.trace := rfl
@[simp] theorem State.withHeld_agenda (s : State) (ts : List MemTxn) : (s.withHeld ts).agenda = s.agenda := rfl
@[simp] theorem State.withHeld_gWritten (s : State) (ts : List MemTxn) : (s.withHeld ts).gWritten = s.gWritten := rfl
@[simp] theorem State.withHeld_epoch (s : State) (ts : List MemTxn) : (s.withHeld ts).epoch = s.epoch := rfl
@[simp] theorem State.withHeld_freeCount (s : State) (ts : List MemTxn) : (s.withHeld ts).freeCount = s.freeCount := rfl

@[simp] theorem State.writeShares_params (s : State) (a : Nat) (shares : List (List Byte)) : (s.writeShares a shares).params = s.params := rfl
@[simp] theorem State.writeShares_g (s : State) (a : Nat) (shares : List (List Byte)) : (s.writeShares a shares).g = s.g := rfl
@[simp] theorem State.writeShares_c (s : State) (a : Nat) (shares : List (List Byte)) : (s.writeShares a shares).c = s.c := rfl
@[simp] theorem State.writeShares_pdeg (s : State) (a : Nat) (shares : List (List Byte)) : (s.writeShares a shares).pdeg = s.pdeg := rfl
@[simp] theorem State.writeShares_pvalid (s : State) (a : Nat) (shares : List (List Byte)) : (s.writeShares a shares).pvalid = s.pvalid := rfl
@[simp] theorem State.writeShares_x (s : State) (a : Nat) (shares : List (List Byte)) : (s.writeShares a shares).x = s.x := rfl
@[simp] theorem State.writeShares_xcount (s : State) (a : Nat) (shares : List (List Byte)) : (s.writeShares a shares).xcount = s.xcount := rfl
@[simp] theorem State.writeShares_done (s : State) (a : Nat) (shares : List (List Byte)) : (s.writeShares a shares).done = s.done := rfl
@[simp] theorem State.writeShares_err (s : State) (a : Nat) (shares : List (List Byte)) : (s.writeShares a shares).err = s.err := rfl
@[simp] theorem State.writeShares_ovr (s : State) (a : Nat) (shares : List (List Byte)) : (s.writeShares a shares).ovr = s.ovr := rfl
@[simp] theorem State.writeShares_errcode (s : State) (a : Nat) (shares : List (List Byte)) : (s.writeShares a shares).errcode = s.errcode := rfl
@[simp] theorem State.writeShares_ie (s : State) (a : Nat) (shares : List (List Byte)) : (s.writeShares a shares).ie = s.ie := rfl
@[simp] theorem State.writeShares_policy (s : State) (a : Nat) (shares : List (List Byte)) : (s.writeShares a shares).policy = s.policy := rfl
@[simp] theorem State.writeShares_eofpol (s : State) (a : Nat) (shares : List (List Byte)) : (s.writeShares a shares).eofpol = s.eofpol := rfl
@[simp] theorem State.writeShares_cfgN (s : State) (a : Nat) (shares : List (List Byte)) : (s.writeShares a shares).cfgN = s.cfgN := rfl
@[simp] theorem State.writeShares_cfgT (s : State) (a : Nat) (shares : List (List Byte)) : (s.writeShares a shares).cfgT = s.cfgT := rfl
@[simp] theorem State.writeShares_cfgK (s : State) (a : Nat) (shares : List (List Byte)) : (s.writeShares a shares).cfgK = s.cfgK := rfl
@[simp] theorem State.writeShares_cfgBlock (s : State) (a : Nat) (shares : List (List Byte)) : (s.writeShares a shares).cfgBlock = s.cfgBlock := rfl
@[simp] theorem State.writeShares_cfgSrc (s : State) (a : Nat) (shares : List (List Byte)) : (s.writeShares a shares).cfgSrc = s.cfgSrc := rfl
@[simp] theorem State.writeShares_cfgDst (s : State) (a : Nat) (shares : List (List Byte)) : (s.writeShares a shares).cfgDst = s.cfgDst := rfl
@[simp] theorem State.writeShares_cfgLen (s : State) (a : Nat) (shares : List (List Byte)) : (s.writeShares a shares).cfgLen = s.cfgLen := rfl
@[simp] theorem State.writeShares_rlen (s : State) (a : Nat) (shares : List (List Byte)) : (s.writeShares a shares).rlen = s.rlen := rfl
@[simp] theorem State.writeShares_cmdcount (s : State) (a : Nat) (shares : List (List Byte)) : (s.writeShares a shares).cmdcount = s.cmdcount := rfl
@[simp] theorem State.writeShares_cmdWord (s : State) (a : Nat) (shares : List (List Byte)) : (s.writeShares a shares).cmdWord = s.cmdWord := rfl
@[simp] theorem State.writeShares_mem (s : State) (a : Nat) (shares : List (List Byte)) : (s.writeShares a shares).mem = s.mem.storeShares a shares := rfl
@[simp] theorem State.writeShares_fsm (s : State) (a : Nat) (shares : List (List Byte)) : (s.writeShares a shares).fsm = s.fsm := rfl
@[simp] theorem State.writeShares_heldMem (s : State) (a : Nat) (shares : List (List Byte)) : (s.writeShares a shares).heldMem = s.heldMem := rfl
@[simp] theorem State.writeShares_trace (s : State) (a : Nat) (shares : List (List Byte)) : (s.writeShares a shares).trace = s.trace := rfl
@[simp] theorem State.writeShares_agenda (s : State) (a : Nat) (shares : List (List Byte)) : (s.writeShares a shares).agenda = s.agenda := rfl
@[simp] theorem State.writeShares_gWritten (s : State) (a : Nat) (shares : List (List Byte)) : (s.writeShares a shares).gWritten = s.gWritten := rfl
@[simp] theorem State.writeShares_epoch (s : State) (a : Nat) (shares : List (List Byte)) : (s.writeShares a shares).epoch = s.epoch := rfl
@[simp] theorem State.writeShares_freeCount (s : State) (a : Nat) (shares : List (List Byte)) : (s.writeShares a shares).freeCount = s.freeCount := rfl

@[simp] theorem State.softReset_params (s : State) : s.softReset.params = s.params := rfl
@[simp] theorem State.softReset_g (s : State) : s.softReset.g = s.g := rfl
@[simp] theorem State.softReset_c (s : State) : s.softReset.c = Vector.replicate 255 0 := rfl
@[simp] theorem State.softReset_pdeg (s : State) : s.softReset.pdeg = 0 := rfl
@[simp] theorem State.softReset_pvalid (s : State) : s.softReset.pvalid = false := rfl
@[simp] theorem State.softReset_x (s : State) : s.softReset.x = Vector.replicate 255 0 := rfl
@[simp] theorem State.softReset_xcount (s : State) : s.softReset.xcount = 0 := rfl
@[simp] theorem State.softReset_done (s : State) : s.softReset.done = false := rfl
@[simp] theorem State.softReset_err (s : State) : s.softReset.err = false := rfl
@[simp] theorem State.softReset_ovr (s : State) : s.softReset.ovr = false := rfl
@[simp] theorem State.softReset_errcode (s : State) : s.softReset.errcode = 0 := rfl
@[simp] theorem State.softReset_ie (s : State) : s.softReset.ie = false := rfl
@[simp] theorem State.softReset_policy (s : State) : s.softReset.policy = .perByte := rfl
@[simp] theorem State.softReset_eofpol (s : State) : s.softReset.eofpol = .leaderOnly := rfl
@[simp] theorem State.softReset_cfgN (s : State) : s.softReset.cfgN = 0 := rfl
@[simp] theorem State.softReset_cfgT (s : State) : s.softReset.cfgT = 0 := rfl
@[simp] theorem State.softReset_cfgK (s : State) : s.softReset.cfgK = 0 := rfl
@[simp] theorem State.softReset_cfgBlock (s : State) : s.softReset.cfgBlock = 0 := rfl
@[simp] theorem State.softReset_cfgSrc (s : State) : s.softReset.cfgSrc = 0 := rfl
@[simp] theorem State.softReset_cfgDst (s : State) : s.softReset.cfgDst = 0 := rfl
@[simp] theorem State.softReset_cfgLen (s : State) : s.softReset.cfgLen = 0 := rfl
@[simp] theorem State.softReset_rlen (s : State) : s.softReset.rlen = 0 := rfl
@[simp] theorem State.softReset_cmdcount (s : State) : s.softReset.cmdcount = 0 := rfl
@[simp] theorem State.softReset_cmdWord (s : State) : s.softReset.cmdWord = 0 := rfl
@[simp] theorem State.softReset_mem (s : State) : s.softReset.mem = s.mem := rfl
@[simp] theorem State.softReset_fsm (s : State) : s.softReset.fsm = .idle := rfl
@[simp] theorem State.softReset_heldMem (s : State) : s.softReset.heldMem = s.heldMem := rfl
@[simp] theorem State.softReset_trace (s : State) : s.softReset.trace = s.trace := rfl
@[simp] theorem State.softReset_agenda (s : State) : s.softReset.agenda = s.agenda := rfl
@[simp] theorem State.softReset_gWritten (s : State) : s.softReset.gWritten = s.gWritten := rfl
@[simp] theorem State.softReset_epoch (s : State) : s.softReset.epoch = s.epoch := rfl
@[simp] theorem State.softReset_freeCount (s : State) : s.softReset.freeCount = s.freeCount := rfl

@[simp] theorem State.hardReset_params (s : State) : s.hardReset.params = s.params := rfl
@[simp] theorem State.hardReset_g (s : State) : s.hardReset.g = Vector.replicate 16 0 := rfl
@[simp] theorem State.hardReset_c (s : State) : s.hardReset.c = Vector.replicate 255 0 := rfl
@[simp] theorem State.hardReset_pdeg (s : State) : s.hardReset.pdeg = 0 := rfl
@[simp] theorem State.hardReset_pvalid (s : State) : s.hardReset.pvalid = false := rfl
@[simp] theorem State.hardReset_x (s : State) : s.hardReset.x = Vector.replicate 255 0 := rfl
@[simp] theorem State.hardReset_xcount (s : State) : s.hardReset.xcount = 0 := rfl
@[simp] theorem State.hardReset_done (s : State) : s.hardReset.done = false := rfl
@[simp] theorem State.hardReset_err (s : State) : s.hardReset.err = false := rfl
@[simp] theorem State.hardReset_ovr (s : State) : s.hardReset.ovr = false := rfl
@[simp] theorem State.hardReset_errcode (s : State) : s.hardReset.errcode = 0 := rfl
@[simp] theorem State.hardReset_ie (s : State) : s.hardReset.ie = false := rfl
@[simp] theorem State.hardReset_policy (s : State) : s.hardReset.policy = .perByte := rfl
@[simp] theorem State.hardReset_eofpol (s : State) : s.hardReset.eofpol = .leaderOnly := rfl
@[simp] theorem State.hardReset_cfgN (s : State) : s.hardReset.cfgN = 0 := rfl
@[simp] theorem State.hardReset_cfgT (s : State) : s.hardReset.cfgT = 0 := rfl
@[simp] theorem State.hardReset_cfgK (s : State) : s.hardReset.cfgK = 0 := rfl
@[simp] theorem State.hardReset_cfgBlock (s : State) : s.hardReset.cfgBlock = 0 := rfl
@[simp] theorem State.hardReset_cfgSrc (s : State) : s.hardReset.cfgSrc = 0 := rfl
@[simp] theorem State.hardReset_cfgDst (s : State) : s.hardReset.cfgDst = 0 := rfl
@[simp] theorem State.hardReset_cfgLen (s : State) : s.hardReset.cfgLen = 0 := rfl
@[simp] theorem State.hardReset_rlen (s : State) : s.hardReset.rlen = 0 := rfl
@[simp] theorem State.hardReset_cmdcount (s : State) : s.hardReset.cmdcount = 0 := rfl
@[simp] theorem State.hardReset_cmdWord (s : State) : s.hardReset.cmdWord = 0 := rfl
@[simp] theorem State.hardReset_mem (s : State) : s.hardReset.mem = [] := rfl
@[simp] theorem State.hardReset_fsm (s : State) : s.hardReset.fsm = .idle := rfl
@[simp] theorem State.hardReset_heldMem (s : State) : s.hardReset.heldMem = s.heldMem := rfl
@[simp] theorem State.hardReset_trace (s : State) : s.hardReset.trace = s.trace := rfl
@[simp] theorem State.hardReset_agenda (s : State) : s.hardReset.agenda = s.agenda := rfl
@[simp] theorem State.hardReset_gWritten (s : State) : s.hardReset.gWritten = 0 := rfl
@[simp] theorem State.hardReset_epoch (s : State) : s.hardReset.epoch = s.epoch + 1 := rfl
@[simp] theorem State.hardReset_freeCount (s : State) : s.hardReset.freeCount = s.freeCount := rfl

theorem State.setXs_fields (s : State) (k : Nat) (bs : List Byte) : s.setXs k bs = { s with x := (s.setXs k bs).x } := by
  induction bs generalizing s k with
  | nil => rfl
  | cons b bs ih => rw [State.setXs, ih]; rfl

@[simp] theorem State.setXs_params (s : State) (k : Nat) (bs : List Byte) : (s.setXs k bs).params = s.params := by rw [s.setXs_fields]
@[simp] theorem State.setXs_g (s : State) (k : Nat) (bs : List Byte) : (s.setXs k bs).g = s.g := by rw [s.setXs_fields]
@[simp] theorem State.setXs_c (s : State) (k : Nat) (bs : List Byte) : (s.setXs k bs).c = s.c := by rw [s.setXs_fields]
@[simp] theorem State.setXs_pdeg (s : State) (k : Nat) (bs : List Byte) : (s.setXs k bs).pdeg = s.pdeg := by rw [s.setXs_fields]
@[simp] theorem State.setXs_pvalid (s : State) (k : Nat) (bs : List Byte) : (s.setXs k bs).pvalid = s.pvalid := by rw [s.setXs_fields]
@[simp] theorem State.setXs_xcount (s : State) (k : Nat) (bs : List Byte) : (s.setXs k bs).xcount = s.xcount := by rw [s.setXs_fields]
@[simp] theorem State.setXs_done (s : State) (k : Nat) (bs : List Byte) : (s.setXs k bs).done = s.done := by rw [s.setXs_fields]
@[simp] theorem State.setXs_err (s : State) (k : Nat) (bs : List Byte) : (s.setXs k bs).err = s.err := by rw [s.setXs_fields]
@[simp] theorem State.setXs_ovr (s : State) (k : Nat) (bs : List Byte) : (s.setXs k bs).ovr = s.ovr := by rw [s.setXs_fields]
@[simp] theorem State.setXs_errcode (s : State) (k : Nat) (bs : List Byte) : (s.setXs k bs).errcode = s.errcode := by rw [s.setXs_fields]
@[simp] theorem State.setXs_ie (s : State) (k : Nat) (bs : List Byte) : (s.setXs k bs).ie = s.ie := by rw [s.setXs_fields]
@[simp] theorem State.setXs_policy (s : State) (k : Nat) (bs : List Byte) : (s.setXs k bs).policy = s.policy := by rw [s.setXs_fields]
@[simp] theorem State.setXs_eofpol (s : State) (k : Nat) (bs : List Byte) : (s.setXs k bs).eofpol = s.eofpol := by rw [s.setXs_fields]
@[simp] theorem State.setXs_cfgN (s : State) (k : Nat) (bs : List Byte) : (s.setXs k bs).cfgN = s.cfgN := by rw [s.setXs_fields]
@[simp] theorem State.setXs_cfgT (s : State) (k : Nat) (bs : List Byte) : (s.setXs k bs).cfgT = s.cfgT := by rw [s.setXs_fields]
@[simp] theorem State.setXs_cfgK (s : State) (k : Nat) (bs : List Byte) : (s.setXs k bs).cfgK = s.cfgK := by rw [s.setXs_fields]
@[simp] theorem State.setXs_cfgBlock (s : State) (k : Nat) (bs : List Byte) : (s.setXs k bs).cfgBlock = s.cfgBlock := by rw [s.setXs_fields]
@[simp] theorem State.setXs_cfgSrc (s : State) (k : Nat) (bs : List Byte) : (s.setXs k bs).cfgSrc = s.cfgSrc := by rw [s.setXs_fields]
@[simp] theorem State.setXs_cfgDst (s : State) (k : Nat) (bs : List Byte) : (s.setXs k bs).cfgDst = s.cfgDst := by rw [s.setXs_fields]
@[simp] theorem State.setXs_cfgLen (s : State) (k : Nat) (bs : List Byte) : (s.setXs k bs).cfgLen = s.cfgLen := by rw [s.setXs_fields]
@[simp] theorem State.setXs_rlen (s : State) (k : Nat) (bs : List Byte) : (s.setXs k bs).rlen = s.rlen := by rw [s.setXs_fields]
@[simp] theorem State.setXs_cmdcount (s : State) (k : Nat) (bs : List Byte) : (s.setXs k bs).cmdcount = s.cmdcount := by rw [s.setXs_fields]
@[simp] theorem State.setXs_cmdWord (s : State) (k : Nat) (bs : List Byte) : (s.setXs k bs).cmdWord = s.cmdWord := by rw [s.setXs_fields]
@[simp] theorem State.setXs_mem (s : State) (k : Nat) (bs : List Byte) : (s.setXs k bs).mem = s.mem := by rw [s.setXs_fields]
@[simp] theorem State.setXs_fsm (s : State) (k : Nat) (bs : List Byte) : (s.setXs k bs).fsm = s.fsm := by rw [s.setXs_fields]
@[simp] theorem State.setXs_heldMem (s : State) (k : Nat) (bs : List Byte) : (s.setXs k bs).heldMem = s.heldMem := by rw [s.setXs_fields]
@[simp] theorem State.setXs_trace (s : State) (k : Nat) (bs : List Byte) : (s.setXs k bs).trace = s.trace := by rw [s.setXs_fields]
@[simp] theorem State.setXs_agenda (s : State) (k : Nat) (bs : List Byte) : (s.setXs k bs).agenda = s.agenda := by rw [s.setXs_fields]
@[simp] theorem State.setXs_gWritten (s : State) (k : Nat) (bs : List Byte) : (s.setXs k bs).gWritten = s.gWritten := by rw [s.setXs_fields]
@[simp] theorem State.setXs_epoch (s : State) (k : Nat) (bs : List Byte) : (s.setXs k bs).epoch = s.epoch := by rw [s.setXs_fields]
@[simp] theorem State.setXs_freeCount (s : State) (k : Nat) (bs : List Byte) : (s.setXs k bs).freeCount = s.freeCount := by rw [s.setXs_fields]

@[simp] theorem State.getG_setG_same (s : State) (i : Reg) (v : Byte) : (s.setG i v).getG i = v := by
  simp [State.getG, State.setG]

theorem State.getG_setG_of_ne (s : State) (i j : Reg) (v : Byte) (h : j ≠ i) : (s.setG i v).getG j = s.getG j := by
  have hij : i.toNat ≠ j.toNat := fun e => h (BitVec.eq_of_toNat_eq e.symm)
  simp [State.getG, State.setG, hij]

/-- Reading G depends on the register file alone. -/
theorem State.getG_congr {s t : State} (h : t.g = s.g) (i : Reg) : t.getG i = s.getG i := by
  simp only [State.getG, h]

/-- Reading MEM depends on the listed bytes and the epoch alone. -/
theorem State.readByte_congr {s t : State} (h : t.mem = s.mem) (he : t.epoch = s.epoch) (a : Nat) : t.readByte a = s.readByte a := by
  simp only [State.readByte, State.unwrittenByte, h, he]

/-- A channel's transcript depends on the record alone. -/
theorem State.channelBytes_congr {s t : State} (h : t.trace = s.trace) (ch : Channel) : t.channelBytes ch = s.channelBytes ch := by
  simp only [State.channelBytes, h]

/-- BUSY depends on the FSM alone. -/
theorem State.busy_eq_false_iff (s : State) : s.busy = false ↔ s.fsm = .idle := by simp [State.busy]

theorem State.channelBytes_log (s : State) (t : Transaction) (ch : Channel) :
    (s.log t).channelBytes ch = s.channelBytes ch ++ t.bytesOn ch := by
  simp [State.channelBytes]

end Sys2Proof.Machine
end

