-- ==== Sys2Proof/Laws/Ops.lean ====
section
/-! SUPPORT. Laws/Ops.lean: for each shared operation, once, everything it can do. -/

namespace Sys2Proof.Machine

/-- A field command ends by writing G[rd], or with ArithmeticError (41_field.md section 2). -/
theorem State.writeField_cases (s : State) (rd : Reg) (r : Option Byte) :
    (∃ v, r = some v ∧ s.writeField rd r = (s.setG rd v).complete) ∨ (r = none ∧ s.writeField rd r = s.raise .arithmetic) := by
  cases r with
  | none => exact .inr ⟨rfl, rfl⟩
  | some v => exact .inl ⟨v, rfl, rfl⟩

/-- ShareBlock's end: a finished SPLIT, or the first slice WRITE of SSPLIT. -/
theorem State.finishBlock_cases (s : State) (job : SplitJob) (xs : List Byte) (n : Nat) (ys : List (List Byte)) :
    (∃ dst secret, job.target = .mem dst secret ∧ s.finishBlock job xs n ys =
      ((s.writeShares dst (sharesOf xs ys)).setRlen (BitVec.ofNat 32 (job.n * (secret.length + 1)))).complete) ∨
    (∃ block, job.target = .stream block ∧ s.finishBlock job xs n ys = s.goto (.sliceWrite job xs n ys 0)) := by
  unfold State.finishBlock
  split
  · rename_i dst secret h
    exact .inl ⟨dst, secret, h, rfl⟩
  · rename_i block h
    exact .inr ⟨block, h, rfl⟩

/-- ShareBlock's start: an empty block ends at once, any other one waits for its first coefficient. -/
theorem State.startBlock_cases (s : State) (job : SplitJob) (xs block : List Byte) :
    (block = [] ∧ s.startBlock job xs block = s.finishBlock job xs 0 (List.replicate job.n [])) ∨
    (block ≠ [] ∧ s.startBlock job xs block =
      s.goto (.coefDraw job xs { n := block.length, todo := block, coefs := [], ys := List.replicate job.n [] })) := by
  cases block with
  | nil => exact .inl ⟨rfl, rfl⟩
  | cons b bs => exact .inr ⟨by simp, rfl⟩

/-- A drawn coefficient: another one is needed; or the current byte's polynomial is complete and the next byte begins; or the block ends. -/
theorem State.coefDrawn_cases (s : State) (job : SplitJob) (xs : List Byte) (sh : Sharing) (b : Byte) :
    ((sh.coefs ++ [b]).length < job.t - 1 ∧
      s.coefDrawn job xs sh b = s.goto (.coefDraw job xs { sh with coefs := sh.coefs ++ [b] })) ∨
    (¬(sh.coefs ++ [b]).length < job.t - 1 ∧ job.policy = .perByte ∧ sh.todo.tail ≠ [] ∧
      s.coefDrawn job xs sh b =
        s.goto (.coefDraw job xs { sh with
          todo := sh.todo.tail
          coefs := []
          ys := appendColumn s.params.poly xs (sh.coefs ++ [b]) sh.ys (sh.todo.headD 0) })) ∨
    (¬(sh.coefs ++ [b]).length < job.t - 1 ∧ job.policy = .perByte ∧ sh.todo.tail = [] ∧
      s.coefDrawn job xs sh b =
        s.finishBlock job xs sh.n (appendColumn s.params.poly xs (sh.coefs ++ [b]) sh.ys (sh.todo.headD 0))) ∨
    (¬(sh.coefs ++ [b]).length < job.t - 1 ∧ job.policy = .perBlock ∧
      s.coefDrawn job xs sh b =
        s.finishBlock job xs sh.n (sh.todo.foldl (appendColumn s.params.poly xs (sh.coefs ++ [b])) sh.ys)) := by
  unfold State.coefDrawn
  by_cases h : (sh.coefs ++ [b]).length < job.t - 1
  · exact .inl ⟨h, if_pos h⟩
  · simp only [h, if_false, not_false_eq_true, true_and, false_and, false_or]
    cases hp : job.policy with
    | perBlock => simp
    | perByte =>
      cases ht : sh.todo.tail with
      | nil => simp
      | cons c cs => simp

/-- The end of sampling: the block of SPLIT begins, or the header writes of SSPLIT. -/
theorem State.finishSampling_cases (s : State) (job : SplitJob) (xs : List Byte) :
    (∃ dst secret, job.target = .mem dst secret ∧
      s.finishSampling job xs = (s.setXcount job.n).startBlock job xs secret) ∨
    (∃ block, job.target = .stream block ∧
      s.finishSampling job xs = (s.setXcount job.n).goto (.headerWrite job xs 0)) := by
  unfold State.finishSampling
  split
  · rename_i dst secret h
    exact .inl ⟨dst, secret, h, rfl⟩
  · rename_i block h
    exact .inr ⟨block, h, rfl⟩

/-- A sampling attempt: rejected, accepted with more to come, or the last one. -/
theorem State.sampled_cases (s : State) (job : SplitJob) (xs : List Byte) (b : Byte) :
    ((b = 0 ∨ b ∈ xs) ∧ s.sampled job xs b = s.goto (.sampleDraw job xs)) ∨
    (¬(b = 0 ∨ b ∈ xs) ∧ (xs ++ [b]).length < job.n ∧
      s.sampled job xs b = (s.setX xs.length b).goto (.sampleDraw job (xs ++ [b]))) ∨
    (¬(b = 0 ∨ b ∈ xs) ∧ ¬(xs ++ [b]).length < job.n ∧
      s.sampled job xs b = (s.setX xs.length b).finishSampling job (xs ++ [b])) := by
  unfold State.sampled
  by_cases h : b = 0 ∨ b ∈ xs
  · exact .inl ⟨h, if_pos h⟩
  · rw [if_neg h]
    by_cases h2 : (xs ++ [b]).length < job.n
    · exact .inr (.inl ⟨h, h2, if_pos h2⟩)
    · exact .inr (.inr ⟨h, h2, if_neg h2⟩)

/-- A chunk taken in an SCOMB round: the next part, or the WRITE of the reconstruction. -/
theorem State.chunkTaken_cases (s : State) (job : CombJob) (xs : List Byte) (chunks : List (List Byte)) :
    (chunks.length < job.k ∧ s.chunkTaken job xs chunks = s.goto (.partRead job xs chunks)) ∨
    (¬chunks.length < job.k ∧ s.chunkTaken job xs chunks =
      s.goto (.mainWrite job xs (combineBlock s.params.poly xs chunks (chunks.headD []).length))) := by
  unfold State.chunkTaken
  by_cases h : chunks.length < job.k
  · exact .inl ⟨h, if_pos h⟩
  · exact .inr ⟨h, if_neg h⟩

/-- A carried-out MEM transaction: a recorded read, a write of an existing byte, or an ignored write. -/
theorem State.carryOut_cases (s : State) (t : MemTxn) :
    (∃ a v, t = .read a ∧ s.carryOut t = s.log (.memRead a v)) ∨
    (∃ a v, t = .write a v ∧ a.toNat < s.params.memBytes ∧ s.carryOut t = s.writeByte a.toNat v) ∨
    (∃ a v, t = .write a v ∧ ¬a.toNat < s.params.memBytes ∧ s.carryOut t = s) := by
  cases t with
  | read a => exact .inl ⟨a, _, rfl, rfl⟩
  | write a v =>
    unfold State.carryOut
    by_cases h : a.toNat < s.params.memBytes
    · exact .inr (.inl ⟨a, v, rfl, h, if_pos h⟩)
    · exact .inr (.inr ⟨a, v, rfl, h, if_neg h⟩)

/-- The duplicate check of COMBINE and SCOMB is distinctness. -/
theorem hasDuplicate_eq_false_iff (xs : List Byte) : hasDuplicate xs = false ↔ xs.Nodup := by
  induction xs with
  | nil => simp [hasDuplicate]
  | cons x xs ih => simp [hasDuplicate, ih]

/-- One column appended: as many slices as there were, if there is one per coordinate. -/
@[simp] theorem length_appendColumn (poly : Poly) (xs coefs : List Byte) (ys : List (List Byte)) (b : Byte) :
    (appendColumn poly xs coefs ys b).length = min ys.length xs.length := by
  simp [appendColumn]

/-- A reconstructed block has the asked length. -/
@[simp] theorem length_combineBlock (poly : Poly) (xs : List Byte) (ys : List (List Byte)) (n : Nat) :
    (combineBlock poly xs ys n).length = n := by
  simp [combineBlock]

/-- `MemRead(a, n)` has n bytes. -/
@[simp] theorem State.length_readBytes (s : State) (a n : Nat) : (s.readBytes a n).length = n := by
  simp [State.readBytes]

end Sys2Proof.Machine
end

