-- ==== Sys2Proof/Laws/PerInstr.lean ====
section
/-! SUPPORT. Laws/PerInstr.lean: one lemma per constructor of Instr for the family LegalFields: the fields an assembler places for a command
are legal, by the field-wise check of WellFormed.lean (30_encoding.md R112, R115). -/

namespace Sys2Proof.Laws.LegalFields

/-- The fields of the command are legal: its opcode is defined and its format's must-be-zero fields are zero. -/
def Statement (i : Instr) : Prop := (fieldsFor i).legal = true

theorem nop : Statement .nop := rfl
theorem ldi (rd : Reg) (imm : Byte) : Statement (.ldi rd imm) := rfl
theorem gadd (rd ra rb : Reg) : Statement (.gadd rd ra rb) := rfl
theorem gmul (rd ra rb : Reg) : Statement (.gmul rd ra rb) := rfl
theorem gdiv (rd ra rb : Reg) : Statement (.gdiv rd ra rb) := rfl
theorem ginv (rd ra : Reg) : Statement (.ginv rd ra) := rfl
theorem pnew (ra : Reg) (degree : Byte) : Statement (.pnew ra degree) := rfl
theorem pseti (ra : Reg) : Statement (.pseti ra) := rfl
theorem peval (rd ra : Reg) : Statement (.peval rd ra) := rfl
theorem split : Statement .split := rfl
theorem combine : Statement .combine := rfl
theorem ssplit : Statement .ssplit := rfl
theorem scomb : Statement .scomb := rfl

end Sys2Proof.Laws.LegalFields
end

