-- ==== Sys2Proof/Laws/Step.lean ====
section
/-! SUPPORT. Laws/Step.lean: the step by cases: which event it takes, and what each kind of event does. -/

namespace Sys2Proof.Machine

/-- Releasing carries out the oldest waiting transaction, or does nothing. -/
theorem State.releaseHeld_cases (s : State) :
    (∃ t rest, s.heldMem = t :: rest ∧ s.memHeld = false ∧ s.releaseHeld = (s.withHeld rest).carryOut t) ∨
    ((s.heldMem = [] ∨ s.memHeld = true) ∧ s.releaseHeld = s) := by
  unfold State.releaseHeld
  cases hm : s.heldMem with
  | nil => exact .inr ⟨.inl rfl, rfl⟩
  | cons t rest =>
    cases hb : s.memHeld with
    | true => exact .inr ⟨.inr rfl, rfl⟩
    | false => exact .inl ⟨t, rest, rfl, rfl, rfl⟩

/-- A release comes first exactly if a transaction waits, no SPLIT holds it, and no event that goes first is next. -/
theorem State.releaseFirst_eq_true_iff (s : State) :
    s.releaseFirst = true ↔
      s.heldMem ≠ [] ∧ s.memHeld = false ∧ ∀ e rest, s.agenda = e :: rest → e.goesFirst = false := by
  unfold State.releaseFirst
  cases s.heldMem <;> cases s.memHeld <;> cases s.agenda <;> simp

/-- A step handles the next event, carries out a released MEM transaction, or finds nothing to do. -/
theorem step_cases (s : State) :
    (∃ e rest, s.agenda = e :: rest ∧ (s.heldMem = [] ∨ s.memHeld = true ∨ e.goesFirst = true) ∧
      step s = (s.withAgenda rest).handle e) ∨
    (∃ t rest, s.heldMem = t :: rest ∧ s.memHeld = false ∧ (∀ e es, s.agenda = e :: es → e.goesFirst = false) ∧
      step s = .next ((s.withHeld rest).carryOut t)) ∨
    (s.agenda = [] ∧ (s.heldMem = [] ∨ s.memHeld = true) ∧ step s = .next s) := by
  unfold step State.advance
  by_cases h : s.releaseFirst = true
  · rw [if_pos h]
    obtain ⟨hne, hb, hu⟩ := s.releaseFirst_eq_true_iff.1 h
    rcases s.releaseHeld_cases with ⟨t, rest, hm, -, hr⟩ | ⟨hm | hm, -⟩
    · exact .inr (.inl ⟨t, rest, hm, hb, hu, by rw [hr]⟩)
    · exact absurd hm hne
    · rw [hb] at hm; cases hm
  · rw [if_neg h]
    rw [s.releaseFirst_eq_true_iff] at h
    unfold State.nextEvent
    cases ha : s.agenda with
    | nil =>
      refine .inr (.inr ⟨rfl, ?_, rfl⟩)
      cases hm : s.heldMem <;> cases hb : s.memHeld <;> simp_all
    | cons e rest =>
      refine .inl ⟨e, rest, rfl, ?_, rfl⟩
      cases hm : s.heldMem <;> cases hb : s.memHeld <;> cases hg : e.goesFirst <;> simp_all

/-- With an event next, the step handles it. -/
theorem step_of_event {s : State} {e : Event} {rest : List Event} (ha : s.agenda = e :: rest)
    (hm : s.heldMem = [] ∨ s.memHeld = true ∨ e.goesFirst = true) : step s = (s.withAgenda rest).handle e := by
  rcases step_cases s with ⟨e', rest', ha', -, hs⟩ | ⟨t, rest', hm', hb, hu, -⟩ | ⟨ha', -⟩
  · rw [ha] at ha'
    obtain ⟨rfl, rfl⟩ := List.cons.inj ha'
    exact hs
  · have := hu e rest ha
    rcases hm with hm | hm | hm <;> simp_all
  · rw [ha] at ha'; cases ha'

/-- A write to CMD is dropped, runs a command, or ends an ILLEGAL word. -/
theorem State.submit_cases (s : State) (w : Word) :
    (s.busy = true ∧ s.submit w = .next s.dropWrite) ∨
    (s.busy = false ∧ ∃ i, decode w = .ok i ∧ s.submit w = exec i (s.accept w)) ∨
    (s.busy = false ∧ ∃ e, decode w = .error e ∧ s.submit w = .next ((s.accept w).raise .illegalCommand)) := by
  unfold State.submit
  cases hb : s.busy with
  | true => exact .inl ⟨rfl, rfl⟩
  | false =>
    cases hd : decode w with
    | ok i => exact .inr (.inl ⟨rfl, i, rfl, rfl⟩)
    | error e => exact .inr (.inr ⟨rfl, e, rfl, rfl⟩)

/-- A register-port write submits a command or writes another register. -/
theorem State.regWrite_cases (s : State) (offset : BitVec 12) (w : Word) :
    (regAt offset = .cmd ∧ s.regWrite offset w = s.submit w) ∨
    (regAt offset ≠ .cmd ∧ s.regWrite offset w = .next (s.hostWrite (regAt offset) w)) := by
  unfold State.regWrite
  split
  · rename_i h; exact .inl ⟨h, rfl⟩
  · rename_i h; exact .inr ⟨h, rfl⟩

/-- A write of a register other than CMD resets, is dropped, or is carried out. -/
theorem State.hostWrite_cases (s : State) (r : RegName) (w : Word) :
    (r = .ctrl ∧ w.getLsbD 31 = true ∧ s.hostWrite r w = s.softReset) ∨
    (¬(r = .ctrl ∧ w.getLsbD 31 = true) ∧ s.busy = true ∧ r.dropsWhenBusy = true ∧ s.hostWrite r w = s.dropWrite) ∨
    (¬(r = .ctrl ∧ w.getLsbD 31 = true) ∧ (s.busy = false ∨ r.dropsWhenBusy = false) ∧ s.hostWrite r w = s.storeReg w r) := by
  unfold State.hostWrite
  by_cases h : r = .ctrl ∧ w.getLsbD 31 = true
  · exact .inl ⟨h.1, h.2, by simp [h]⟩
  · rw [if_neg h]
    by_cases hd : (s.busy && r.dropsWhenBusy) = true
    · rw [if_pos hd]
      rw [Bool.and_eq_true] at hd
      exact .inr (.inl ⟨h, hd.1, hd.2, rfl⟩)
    · rw [if_neg hd]
      rw [Bool.not_eq_true, Bool.and_eq_false_iff] at hd
      exact .inr (.inr ⟨h, hd, rfl⟩)

end Sys2Proof.Machine
end

