-- ==== Sys2Proof/Tests/Slice0.lean ====
section
/-! SUPPORT. Tests/Slice0.lean: the model's own tests, each expected value taken from the spec (95_test_vectors.md, or the rule named
beside it), and for every obligation with hypotheses a witness that meets them. -/

namespace Sys2Proof.Tests

open Sys2Proof.Machine

set_option Elab.async false

/-! ## Helpers -/

/-- A small unit right after reset: POLY = 0x11B, MEM_BYTES = 0x100, BLOCK_MAX = 64. -/
def unit : State := { State.reset with params := { poly := .p11B, memLast := 0xFF, blockMaxPred := 63 } }

/-- The unit with G1 = a and G2 = b. -/
def withG (a b : Byte) : State := (unit.setG 1 a).setG 2 b

/-- The unit with the given bytes of MEM from address 0 on. -/
def withMem (bytes : List Byte) : State := unit.writeBytes 0 bytes

/-- The unit with one event on the agenda. -/
def given (s : State) (e : Event) : State := { s with agenda := [e] }

/-- The result is a next state that satisfies `p`. -/
def nextIs (r : Result) (p : State → Bool) : Bool :=
  match r with
  | .next t => p t
  | .fault _ => false
  | .refused _ => false

/-- The result is the error completion with this code. -/
def endsWith (r : Result) (code : BitVec 8) : Bool :=
  nextIs r fun t => t.err && !t.done && !t.busy && t.errcode == code

/-- The result is the success completion, and `p` holds. -/
def succeeds (r : Result) (p : State → Bool) : Bool :=
  nextIs r fun t => t.done && !t.err && !t.busy && t.errcode == 0 && p t

/-- A DRAW answered with a byte. -/
def drawn (b : Byte) : Event := .entropy (.byte b)

/-- The split of a secret at dst = 0x10 with N = 3, T = 2, per-byte policy. -/
def memJob (secret : List Byte) : SplitJob := { n := 3, t := 2, policy := .perByte, target := .mem 0x10 secret }

/-- The streaming split of V36. -/
def streamJob : SplitJob := { n := 2, t := 2, policy := .perByte, target := .stream 2 }

/-- The streaming combine of V37. -/
def combJob : CombJob := { k := 2, block := 2, eofpol := .leaderOnly }

/-- The same under the SYMMETRIC rule. -/
def symJob : CombJob := { combJob with eofpol := .symmetric }

/-- The unit at a point of the FSM. -/
def atPoint (f : Fsm) : State := { unit with fsm := f }

/-- A busy unit: PNEW waiting for its first draw (V21). -/
def waiting : State := atPoint (.polyDraw 0x41 2 1)

/-- SPLIT waiting for the last coordinate of V1. -/
def sampling : State := { atPoint (.sampleDraw (memJob [0x41]) [1, 2]) with x := (Vector.replicate 255 0).set 0 1 |>.set 1 2 }

/-- SPLIT waiting for its last coefficient in V1. -/
def sharing : State :=
  atPoint (.coefDraw (memJob [0x41]) [1, 2, 3] { n := 1, todo := [0x41], coefs := [], ys := [[], [], []] })

/-- MEM with the shares `01 44`, `02 4B` at 0x10 and two descriptors at 0; CFG_K = 2, CFG_DST = 0x20 (V1). -/
def combining : State :=
  { withMem ([0x10, 0, 0, 0, 2, 0, 0, 0, 0x12, 0, 0, 0, 2, 0, 0, 0] ++ [0x01, 0x44, 0x02, 0x4B]) with cfgK := 2, cfgDst := 0x20 }

/-! ## Well-formedness: one ill-formed term per must-be-zero field of each format (30_encoding.md R112) -/

theorem test_wellFormed_zero : ([Format.n, .r3, .r2, .r1a, .i, .ai].all fun f => Fields.wellFormed ⟨0, 0, 0, 0, 0, 0⟩ f) = true := by
  decide

theorem test_wellFormed_n :
    ([⟨0, 1, 0, 0, 0, 0⟩, ⟨0, 0, 1, 0, 0, 0⟩, ⟨0, 0, 0, 1, 0, 0⟩, ⟨0, 0, 0, 0, 1, 0⟩, ⟨0, 0, 0, 0, 0, 1⟩].any fun f =>
      Fields.wellFormed f .n) = false := by decide

theorem test_wellFormed_r3 :
    ([⟨0x10, 0, 0, 0, 1, 0⟩, ⟨0x10, 0, 0, 0, 0, 1⟩].any fun f => Fields.wellFormed f .r3) = false ∧
      Fields.wellFormed ⟨0x10, 15, 15, 15, 0, 0⟩ .r3 = true := by decide

theorem test_wellFormed_r2 :
    ([⟨0x13, 0, 0, 1, 0, 0⟩, ⟨0x13, 0, 0, 0, 1, 0⟩, ⟨0x13, 0, 0, 0, 0, 1⟩].any fun f => Fields.wellFormed f .r2) = false ∧
      Fields.wellFormed ⟨0x13, 15, 15, 0, 0, 0⟩ .r2 = true := by decide

theorem test_wellFormed_r1a :
    ([⟨0x21, 1, 0, 0, 0, 0⟩, ⟨0x21, 0, 0, 1, 0, 0⟩, ⟨0x21, 0, 0, 0, 1, 0⟩, ⟨0x21, 0, 0, 0, 0, 1⟩].any fun f =>
      Fields.wellFormed f .r1a) = false ∧ Fields.wellFormed ⟨0x21, 0, 15, 0, 0, 0⟩ .r1a = true := by decide

theorem test_wellFormed_i :
    ([⟨0x01, 0, 1, 0, 0, 0⟩, ⟨0x01, 0, 0, 1, 0, 0⟩, ⟨0x01, 0, 0, 0, 1, 0⟩].any fun f => Fields.wellFormed f .i) = false ∧
      Fields.wellFormed ⟨0x01, 15, 0, 0, 0, 255⟩ .i = true := by decide

theorem test_wellFormed_ai :
    ([⟨0x20, 1, 0, 0, 0, 0⟩, ⟨0x20, 0, 0, 1, 0, 0⟩, ⟨0x20, 0, 0, 0, 1, 0⟩].any fun f => Fields.wellFormed f .ai) = false ∧
      Fields.wellFormed ⟨0x20, 0, 15, 0, 0, 255⟩ .ai = true := by decide

theorem test_legal_refuses_reserved_opcode : Fields.legal ⟨0x02, 0, 0, 0, 0, 0⟩ = false := by decide

/-! ## Decoding: 95_test_vectors.md section 2.1, words as 30_encoding.md R115 writes them -/

theorem test_decode_unit :
    decode 0x00000000 = .ok .nop ∧ decode 0x017000FF = .ok (.ldi 7 0xFF) ∧
    decode 0b00000001_1010_0000_0000_0000_01011010 = .ok (.ldi 10 0x5A) := by decide

theorem test_decode_field :
    decode 0x10312000 = .ok (.gadd 3 1 2) ∧ decode 0x11922000 = .ok (.gmul 9 2 2) ∧
    decode 0b00010010_0101_0011_0001_0000_00000000 = .ok (.gdiv 5 3 1) ∧ decode 0x13410000 = .ok (.ginv 4 1) := by decide

theorem test_decode_polynomial :
    decode 0x20010001 = .ok (.pnew 1 1) ∧ decode 0x200100FF = .ok (.pnew 1 255) ∧ decode 0x21050000 = .ok (.pseti 5) ∧
    decode 0b00100010_0011_0010_0000_0000_00000000 = .ok (.peval 3 2) := by decide

theorem test_decode_engine_and_streaming :
    decode 0x30000000 = .ok .split ∧ decode 0x31000000 = .ok .combine ∧ decode 0x40000000 = .ok .ssplit ∧
    decode 0b01000001_0000_0000_0000_0000_00000000 = .ok .scomb := by decide

theorem test_decode_reserved_bits :
    ([0x00000001, 0x01710000, 0x10312100, 0x10000001, 0x13412000, 0x20110001, 0x21150000, 0x30000001].all fun w =>
      match decode w with | .error .reservedBitSet => true | .error .reservedOpcode => false | .ok _ => false) = true := by decide

theorem test_decode_reserved_opcodes :
    ([0x02000000, 0x14000000, 0x23000000, 0x32000000, 0x42000000, 0xFF000000].all fun w =>
      match decode w with | .error .reservedOpcode => true | .error .reservedBitSet => false | .ok _ => false) = true := by decide

theorem test_encode :
    encode (.ldi 7 0xFF) = 0x017000FF ∧ encode (.gadd 3 1 2) = 0x10312000 ∧ encode (.pnew 1 1) = 0x20010001 ∧
    encode (.pseti 5) = 0x21050000 ∧ encode .scomb = 0x41000000 := by decide

/-- Every row's word, run as the first command after reset, is accepted: CMDCOUNT = 1 (40_unit.md R141). -/
theorem test_every_row_runs_from_reset :
    ([0x00000000, 0x01000000, 0x10000000, 0x11000000, 0x12000000, 0x13000000, 0x20000000, 0x21000000, 0x22000000, 0x30000000,
      0x31000000, 0x40000000, 0x41000000].all fun w => nextIs (step (State.reset.withFetchWord 32 w)) fun t => t.cmdcount == 1) =
      true := by decide +kernel

/-! ## Unit control, completion, irq: 95_test_vectors.md section 2.2 -/

theorem test_nop_counts :
    succeeds (step ({ unit with cmdcount := 5 }.withFetchWord 32 0)) (fun t => t.cmdcount == 6) = true ∧
    succeeds (step ({ unit with cmdcount := 0xFFFFFFFF }.withFetchWord 32 0)) (fun t => t.cmdcount == 0) = true := by decide +kernel

theorem test_ldi :
    succeeds (exec (.ldi 7 0xFF) unit) (fun t => t.getG 7 == 0xFF) = true ∧
    succeeds (exec (.ldi 0 0) (unit.setG 0 9)) (fun t => t.getG 0 == 0) = true := by decide +kernel

theorem test_illegal_word :
    nextIs (step ({ unit with done := true }.withFetchWord 32 0x02000000)) (fun t =>
      t.cmdcount == 1 && t.err && !t.done && t.errcode == 7) = true := by decide +kernel

theorem test_irq :
    nextIs (step ({ unit with ie := true }.withFetchWord 32 0)) State.irq = true ∧
    nextIs (step (given { unit with ie := true, done := true } (.regWrite 0x004 0x2))) (fun t => !t.done && !t.irq) = true ∧
    nextIs (step (given { unit with done := true } (.regWrite 0x00C 0x1))) State.irq = true := by decide +kernel

theorem test_status_clear :
    nextIs (step (given { unit with err := true, errcode := 2 } (.regWrite 0x004 0x2))) (fun t => t.err && t.errcode == 2) = true ∧
    nextIs (step (given { unit with ovr := true } (.regWrite 0x004 0x8))) (fun t => !t.ovr) = true := by decide +kernel

theorem test_busy_drops :
    nextIs (step (given waiting (.regWrite 0x010 5))) (fun t => t.cfgN == 0 && t.ovr && t.busy && t.errcode == 0) = true ∧
    nextIs (step (given waiting (.regWrite 0x000 0))) (fun t => t.ovr && t.cmdcount == 0) = true := by decide +kernel

theorem test_reset_may_land_a_write :
    (HostFiles.withdraw ⟨none, [partOutput [] 0]⟩ (some 1) (some (.stream (.write (.part 0) [7, 8])))).parts.map HostFile.written =
      [[7]] ∧
    (HostFiles.withdraw ⟨none, [partOutput [] 0]⟩ none (some (.stream (.write (.part 0) [7, 8])))).parts.map HostFile.written =
      [[]] := by decide +kernel

theorem test_read_id_and_status :
    unit.readReg (regAt 0x03C) = 0x53535501 ∧ { unit with err := true }.readReg (regAt 0x004) = 0x00000004 ∧
    unit.readReg (regAt 0x040) = 0x11B := by decide +kernel

/-! ## Field unit: 95_test_vectors.md section 2.3 -/

theorem test_gadd :
    succeeds (exec (.gadd 3 1 2) (withG 0x53 0xCA)) (fun t => t.getG 3 == 0x99) = true ∧
    succeeds (exec (.gadd 6 6 6) (unit.setG 6 0x3C)) (fun t => t.getG 6 == 0) = true := by decide +kernel

theorem test_gmul :
    succeeds (exec (.gmul 3 1 2) (withG 0x57 0x83)) (fun t => t.getG 3 == 0xC1) = true ∧
    succeeds (exec (.gmul 1 1 1) (withG 3 0)) (fun t => t.getG 1 == 0x05) = true := by decide +kernel

theorem test_gdiv :
    succeeds (exec (.gdiv 3 1 2) (withG 0xCA 0x53)) (fun t => t.getG 3 == 0x75) = true ∧
    endsWith (exec (.gdiv 1 1 2) (withG 0x37 0)) 2 = true := by decide +kernel

theorem test_ginv :
    succeeds (exec (.ginv 1 1) (withG 0x53 0)) (fun t => t.getG 1 == 0xCA) = true ∧
    endsWith (exec (.ginv 4 2) (withG 0x53 0)) 2 = true := by decide +kernel

theorem test_gfmul_vectors :
    gfmul .p11B 0x53 0xCA = 0x01 ∧ gfmul .p11B 0x57 0x13 = 0xFE ∧ gfmul .p11B 0xFF 0xFF = 0x13 ∧ gfmul .p11B 0x02 0x87 = 0x15 ∧
    gfmul .p11D 0x53 0xCA = 0x8F ∧ gfmul .p11D 0x80 0x02 = 0x1D := by decide +kernel

theorem test_gfinv_vectors :
    gfinv .p11B 0x02 = some 0x8D ∧ gfinv .p11B 0xFF = some 0x1C ∧ gfinv .p11D 0x02 = some 0x8E ∧ gfinv .p11D 0xFF = some 0xFD := by
  decide +kernel

theorem test_gfmul_poly_independent :
    (Poly.all.all fun p => gfmul p 0x10 0x08 == 0x80 && gfmul p 0x03 0x0F == 0x11 && gfmul p 0x0F 0x0F == 0x55) = true := by
  decide +kernel

/-! ## Polynomial evaluator: 95_test_vectors.md section 2.4 -/

theorem test_pnew :
    nextIs (exec (.pnew 1 1) (unit.setG 1 0x41)) (fun t => t.busy && t.phase == 1 && !t.pvalid) = true ∧
    endsWith (exec (.pnew 1 255) { unit with pvalid := true }) 1 = true := by decide +kernel

theorem test_pnew_answer :
    succeeds (step (given (atPoint (.polyDraw 0x41 1 1)) (drawn 0x05))) (fun t => t.polyCoefs == [0x41, 0x05] && t.pvalid) = true ∧
    endsWith (step (given (atPoint (.polyDraw 0x41 2 2)) (.entropy .fail))) 3 = true := by decide +kernel

theorem test_pseti :
    succeeds (exec (.pseti 5) { unit.setG 5 0x42 with c := (Vector.replicate 255 0).set 1 5, pdeg := 1, pvalid := true }) (fun t =>
      t.polyCoefs == [0x42, 0x05]) = true ∧
    endsWith (exec (.pseti 5) unit) 8 = true := by decide +kernel

theorem test_peval :
    succeeds (exec (.peval 3 2) { withG 0 0x03 with c := (Vector.replicate 255 0).set 0 0x41 |>.set 1 5, pdeg := 1, pvalid := true })
      (fun t => t.getG 3 == 0x4E) = true ∧
    endsWith (exec (.peval 3 2) unit) 8 = true := by decide +kernel

theorem test_evaluate_vectors :
    ([0x00, 0x01, 0x02, 0x80, 0xFF].map fun x => evaluate .p11B [0x10, 0x57, 0x83] x) = [0x10, 0xC4, 0x84, 0xA8, 0x7B] := by
  decide +kernel

/-! ## Engine: 95_test_vectors.md V1, V31, V33, V34, V35 -/

theorem test_split :
    nextIs (exec .split { withMem [0x41] with cfgN := 3, cfgT := 2, cfgLen := 1, cfgDst := 0x10 }) (fun t =>
      t.busy && t.phase == 1 && t.memHeld && t.fsm == .sampleDraw (memJob [0x41]) []) = true ∧
    endsWith (exec .split { unit with cfgN := 2, cfgT := 2, cfgLen := 1, cfgDst := 0xFF }) 9 = true ∧
    ([(1, 2), (0, 0), (2, 1), (3, 4)].all fun nt => endsWith (exec .split { unit with cfgN := nt.1, cfgT := nt.2 }) 1) = true ∧
    nextIs (exec .split { unit with cfgN := 2, cfgT := 2, cfgSrc := 0xFFFFFFFF }) State.busy = true := by decide +kernel

theorem test_split_answers :
    nextIs (step (given sampling (drawn 0x01))) (fun t => t.fsm == .sampleDraw (memJob [0x41]) [1, 2]) = true ∧
    nextIs (step (given sampling (drawn 0x03))) (fun t =>
      t.fsm == .coefDraw (memJob [0x41]) [1, 2, 3] { n := 1, todo := [0x41], coefs := [], ys := [[], [], []] } && t.xcount == 3) =
      true ∧
    succeeds (step (given sharing (drawn 0x05))) (fun t =>
      t.readBytes 0x10 6 == [0x01, 0x44, 0x02, 0x4B, 0x03, 0x4E] && t.rlen == 6) = true ∧
    endsWith (step (given sharing (.entropy .fail))) 3 = true := by decide +kernel

theorem test_combine :
    succeeds (exec .combine combining) (fun t =>
      t.readByte 0x20 == 0x41 && t.rlen == 1 && t.xcount == 2 && t.x.toList.take 2 == [1, 2]) = true ∧
    endsWith (exec .combine (combining.writeByte 0x12 0x01)) 2 = true := by decide +kernel

theorem test_combine_errors :
    endsWith (exec .combine { combining with cfgK := 1 }) 1 = true ∧ endsWith (exec .combine { combining with cfgK := 255 }) 1 = true ∧
    endsWith (exec .combine (combining.writeByte 4 0)) 1 = true ∧ endsWith (exec .combine (combining.writeByte 12 3)) 4 = true ∧
    endsWith (exec .combine { combining with cfgSrc := 0xF8 }) 9 = true ∧
    endsWith (exec .combine { combining with cfgK := 0, cfgSrc := 0xF8 }) 1 = true := by decide +kernel

theorem test_lagrange_vectors :
    ([Poly.p11B, .p1F9].all fun p =>
      lagrange0 p [1, 2, 3] [0x40, 0x49, 0x48] == 0x41 && lagrange0 p [1, 2] [0x40, 0x49] == 0x47 &&
      lagrange0 p [1, 3] [0x40, 0x48] == 0x44 && lagrange0 p [1, 2, 3] [0x40, 0x49, 0x49] == 0x40 &&
      lagrange0 p [0, 5, 9] [0x77, 0x12, 0x34] == 0x77 && lagrange0 p [1, 2] [0x55, 0x55] == 0x55) = true := by decide +kernel

/-- V32, per-byte and per-block, share 0. -/
theorem test_slice_vectors :
    sliceOf .p11B .perByte 2 [0x53, 0x00, 0xFF] [0x11, 0x22, 0x33] 0x07 = [0x24, 0xEE, 0x66] ∧
    sliceOf .p11B .perBlock 2 [0x53, 0x00, 0xFF] [0x11] 0x07 = [0x24, 0x77, 0x88] := by decide +kernel

/-! ## Streaming: 95_test_vectors.md V36, V37, V38, V39, V40 -/

theorem test_ssplit :
    nextIs (exec .ssplit { unit with cfgN := 2, cfgT := 2, cfgBlock := 2, rlen := 9 }) (fun t =>
      t.busy && t.phase == 1 && t.rlen == 0 && !t.memHeld) = true ∧
    endsWith (exec .ssplit { unit with cfgN := 2, cfgT := 2, cfgBlock := 65 }) 1 = true := by decide +kernel

theorem test_ssplit_answers :
    nextIs (step (given (atPoint (.coefDraw streamJob [1, 2] { n := 2, todo := [0x42], coefs := [], ys := [[0x40], [0x43]] }))
      (drawn 0x02))) (fun t => t.request == some (.stream (.write (.part 0) [0x40, 0x40]))) = true ∧
    nextIs (step (given (atPoint (.sliceWrite streamJob [1, 2] 2 [[0x40, 0x40], [0x43, 0x46]] 1)) (.stream .ok))) (fun t =>
      t.rlen == 2 && t.request == some (.stream (.read .main 2)) && t.channelBytes (.part 1) == [0x43, 0x46]) = true := by
  decide +kernel

theorem test_scomb :
    nextIs (exec .scomb { unit with cfgK := 2, cfgBlock := 2, xcount := 3 }) (fun t =>
      t.request == some (.stream (.read (.part 0) 1)) && t.xcount == 0 && t.phase == 2) = true ∧
    endsWith (exec .scomb { unit with cfgK := 2 }) 1 = true := by decide +kernel

theorem test_scomb_answers :
    nextIs (step (given (atPoint (.partRead combJob [2, 1] [[0x43, 0x46]])) (.stream (.chunk [0x40, 0x40])))) (fun t =>
      t.request == some (.stream (.write .main [0x41, 0x42]))) = true ∧
    endsWith (step (given (atPoint (.partRead combJob [1, 2] [[0x40]])) (.stream .eof))) 5 = true ∧
    endsWith (step (given (atPoint (.headerRead combJob [])) (.stream .eof))) 6 = true ∧
    endsWith (step (given (atPoint (.headerRead combJob [1])) (.stream (.chunk [1])))) 2 = true ∧
    endsWith (step (given (atPoint (.partRead combJob [1, 2] [[1, 1]])) (.stream (.chunk [1])))) 4 = true ∧
    endsWith (step (given (atPoint (.partRead combJob [1, 2] [])) (.stream (.chunk [1, 1, 1])))) 6 = true ∧
    endsWith (step (given (atPoint (.partRead combJob [1, 2] [])) (.stream (.chunk [])))) 6 = true ∧
    succeeds (step (given (atPoint (.partRead combJob [2, 1] [])) (.stream .eof))) (fun _ => true) = true ∧
    nextIs (step (given (atPoint (.partRead symJob [2, 1] [])) (.stream .eof))) (fun t =>
      t.request == some (.stream (.read (.part 1) 2))) = true ∧
    endsWith (step (given (atPoint (.endRead symJob 1)) (.stream (.chunk [0x40])))) 5 = true := by decide +kernel

/-! ## Host duties (V41) and reset (V42) -/

theorem test_part_names :
    partFileName ['s', '_', '%', 'i', '.', 'b', 'i', 'n'] 0 = ['s', '_', '1', '.', 'b', 'i', 'n'] ∧
    partFileName ['%', 'i', '_', '%', 'i'] 1 = ['2', '_', '2'] ∧
    nameMatches ['s', '_', '0', '0', '7'] ['s', '_', '%', 'i'] = true ∧ nameMatches ['1', 'a'] ['%', 'i'] = false ∧
    nameMatches ['p', '2', '_', '1'] ['p', '2', '_', '%', 'i'] = false := by decide +kernel

/-- Two part files as the directory gives them. -/
def partEntry (name : List Char) (bytes : List Byte) : DirEntry := { name := name, directory := false, bytes := bytes, opens := true }

/-- V10, and 44_streaming.md R284: CH_PART(k) is entry k. -/
theorem test_combine_host :
    combineHostError [partEntry ['1'] [1, 0x40, 0x40, 0x40], partEntry ['2'] [2, 0x43, 0x46]] ⟨.regular, [], true⟩ =
      some .sizeMismatch ∧
    combineHostError (List.replicate 256 (partEntry ['1'] [])) ⟨.regular, [], true⟩ = some .validation ∧
    ((combineFiles [partEntry ['2'] [2, 0x43], partEntry ['1'] [1, 0x40]] ⟨.regular, [7], true⟩).file (.part 1)).map HostFile.unread =
      some [1, 0x40] := by decide +kernel

/-- 44_streaming.md R286 to R288: min(max, remaining) from a file, a host's length from a standard stream, truncation at the first WRITE, and
an input error that leaves no handle. -/
theorem test_host_answers :
    ((partEntry ['1'] [1, 2, 3]).openInput.answerRead (.answer 1) 2).1 = .chunk [1, 2] ∧
    ((MainStream.openInput ⟨.standard, [1, 2, 3], true⟩).answerRead (.answer 1) 2).1 = .chunk [1] ∧
    ((partOutput [] 0).answerWrite (.answer 0) [5]).2.written = [5] ∧ ((partOutput [] 0).answerWrite (.fail none) [5]).1 = .err ∧
    (let v : Served := ⟨unit, HostFiles.empty, [], false, none⟩
     let w := v.combine [] [partEntry ['1'] [1, 2], partEntry ['2'] [2]] 1 ⟨.regular, [7], true⟩
     w.report = some (.failed .sizeMismatch) ∧ w.files.handlesOpen = false ∧ w.unit = unit) := by decide +kernel

/-- 44_streaming.md R288, R289: a FAIL draw ends the split, and a bad N ends it at once; the handles are released and the error is reported. -/
theorem test_host_reports :
    (let v : Served := ⟨sampling, splitFiles [] 3 ⟨.standard, [9], true⟩, [.fail], true, none⟩
     (v.serve (.answer 1)).report = some (.failed .entropy) ∧ (v.serve (.answer 1)).files.handlesOpen = false ∧
       (v.reset false none).report = some .aborted) ∧
    ((⟨unit, HostFiles.empty, [], false, none⟩ : Served).split [] 1 2 1 ⟨.standard, [9], true⟩).report = some (.failed .validation) := by
  decide +kernel

/-- 70_reset_and_hazards.md R340: a reset comes before a released MEM transaction, and between two of them. -/
theorem test_reset_is_not_delayed :
    nextIs (step (given { withMem [1] with heldMem := [.write 0 9], cfgN := 3 } (.regWrite 0x00C 0x80000000))) (fun t =>
      t.cfgN == 0 && t.readByte 0 == 1 && t.heldMem == [.write 0 9]) = true ∧
    nextIs (step { unit with heldMem := [.write 0 9, .read 0], agenda := [.memStep, .rst] }) (fun t =>
      t.agenda == [.rst] && t.heldMem == [.read 0] && t.readByte 0 == 9) = true := by decide +kernel

theorem test_soft_reset :
    nextIs (step (given { (sampling.setG 3 0x5A).writeByte 0 0x41 with cmdcount := 1, cfgN := 3 } (.regWrite 0x00C 0x80000000)))
      (fun t => !t.busy && !t.done && !t.err && t.cmdcount == 0 && t.cfgN == 0 && t.getG 3 == 0x5A && t.readByte 0 == 0x41 &&
        !t.memHeld) = true ∧
    nextIs (step (given unit (.lateEntropy (.byte 9)))) (fun t => t == unit) = true := by decide +kernel

/-! ## Witnesses: for each obligation with hypotheses, a state and operands that meet them, clause by clause -/

/-- The event given to a unit with no held MEM transaction is the next one. -/
theorem given_eventIsNext (s : State) (e : Event) (h : s.heldMem = []) : (given s e).eventIsNext e [] := ⟨rfl, .inl h⟩

theorem witness_EncodeAndDecodeAgree :
    decode 0x017000FF = .ok (.ldi 7 0xFF) ∧ decode 0x220F0000 = .ok (.peval 0 15) := by decide

theorem witness_StepRunsTheAcceptedCommand :
    (given unit (.regWrite 0x003 0x017000FF)).eventIsNext (.regWrite 0x003 0x017000FF) [] ∧ regAt 0x003 = .cmd ∧
      (given unit (.regWrite 0x003 0x017000FF)).busy = false ∧ decode 0x017000FF = .ok (.ldi 7 0xFF) :=
  ⟨given_eventIsNext _ _ rfl, by decide, by decide +kernel, by decide⟩

theorem witness_IllegalWordEndsWithIllegalCommand :
    (given unit (.regWrite 0x000 0x02000000)).eventIsNext (.regWrite 0x000 0x02000000) [] ∧ regAt 0x000 = .cmd ∧
      (given unit (.regWrite 0x000 0x02000000)).busy = false ∧ decode 0x02000000 = .error .reservedOpcode ∧
      decode 0x01000800 = .error .reservedBitSet :=
  ⟨given_eventIsNext _ _ rfl, by decide, by decide +kernel, by decide, by decide⟩

theorem witness_BusyUnitDropsHostWrites :
    waiting.busy = true ∧
      (∀ off w, (given waiting (.regWrite off w)).eventIsNext (.regWrite off w) []) ∧
      (∀ off, (given waiting (.regRead off)).eventIsNext (.regRead off) []) ∧
      regAt 0x000 = .cmd ∧ regAt 0x010 = .cfgN ∧ regAt 0x028 = .cfgLen ∧ regAt 0x13C = .g 15 ∧
      (regAt 0x00C = .ctrl ∧ (0x7FFFFFFF : Word).getLsbD 31 = false ∧ (0x80000000 : Word).getLsbD 31 = true) ∧
      regAt 0x004 = .status ∧ regAt 0x008 = .errcode ∧ regAt 0x7F8 = .x 254 ∧ regAt 0x7FC = .reserved ∧
      (∀ off, (given { unit with xcount := 5 } (.regRead off)).eventIsNext (.regRead off) []) ∧
      (regAt 0x410 = .x 4 ∧ 4 < { unit with xcount := 5 }.xcount.toNat) ∧
      (regAt 0x414 = .x 5 ∧ { unit with xcount := 5 }.xcount.toNat ≤ 5) ∧ ∀ k, regAt 0x004 ≠ .x k :=
  ⟨by decide +kernel, fun _ _ => given_eventIsNext _ _ rfl, fun _ => given_eventIsNext _ _ rfl, by decide, by decide, by decide,
    by decide, by decide, by decide, by decide, by decide, by decide, fun _ => given_eventIsNext _ _ rfl, by decide +kernel,
    by decide +kernel, fun _ h => nomatch h⟩

theorem witness_CmdcountCountsAcceptedWords :
    (∀ e, (given unit e).eventIsNext e []) ∧ (∀ e, (given waiting e).eventIsNext e []) ∧
      nextIs (step (given unit (.regWrite 0x000 0xFFFFFFFF))) (fun _ => true) = true ∧
      nextIs (step (given waiting (.regWrite 0x000 0))) (fun _ => true) = true ∧
      nextIs (step (given waiting (.regWrite 0x00C 0x80000000))) (fun _ => true) = true ∧
      nextIs (step (given waiting (.regWrite 0x00C 0))) (fun _ => true) = true ∧
      nextIs (step (given unit .rst)) (fun _ => true) = true ∧ nextIs (step (given waiting (drawn 1))) (fun _ => true) = true :=
  ⟨fun _ => given_eventIsNext _ _ rfl, fun _ => given_eventIsNext _ _ rfl, by decide +kernel, by decide +kernel, by decide +kernel,
    by decide +kernel, by decide +kernel, by decide +kernel⟩

theorem witness_UnansweredUnitStaysAsItIs :
    (waiting.agenda = [] ∧ waiting.heldMem = []) ∧
      ({ sharing with heldMem := [.read 0] }.agenda = [] ∧ { sharing with heldMem := [.read 0] }.memHeld = true) := by
  decide +kernel

/-- Clauses 1 and 2 both in an idle unit and while the other port's request is outstanding. -/
theorem witness_AnswersWithoutRequestAreIgnored :
    (∀ e, (given unit e).eventIsNext e []) ∧ unit.request ≠ some .draw ∧ (∀ r, unit.request ≠ some (.stream r)) ∧
      (∀ e, (given waiting e).eventIsNext e []) ∧ (∀ r, waiting.request ≠ some (.stream r)) ∧
      (∀ e, (given (atPoint (.chunkRead streamJob [1, 2])) e).eventIsNext e []) ∧
      (atPoint (.chunkRead streamJob [1, 2])).request ≠ some .draw :=
  ⟨fun _ => given_eventIsNext unit _ rfl, by decide +kernel, (fun _ h => nomatch h), fun _ => given_eventIsNext waiting _ rfl,
    (fun _ h => nomatch h), fun _ => given_eventIsNext _ _ rfl, by decide +kernel⟩

/-- The two kinds, the second also with a released MEM transaction waiting, which does not come before it. -/
theorem witness_EitherResetLeavesTheUnitIdle :
    (given waiting .rst).eventIsNext .rst [] ∧
      (given waiting (.regWrite 0x00C 0x80000000)).eventIsNext (.regWrite 0x00C 0x80000000) [] ∧ regAt 0x00C = .ctrl ∧
      (0x80000000 : Word).getLsbD 31 = true ∧
      (given { unit with heldMem := [.read 0] } (.regWrite 0x00C 0x80000000)).eventIsNext (.regWrite 0x00C 0x80000000) [] :=
  ⟨given_eventIsNext _ _ rfl, given_eventIsNext _ _ rfl, by decide, by decide, rfl, .inr (.inr (by decide))⟩

theorem witness_SoftResetKeepsRegistersAndMemory :
    (given sampling (.regWrite 0x00F 0xFFFFFFFF)).eventIsNext (.regWrite 0x00F 0xFFFFFFFF) [] ∧ regAt 0x00F = .ctrl ∧
      (0xFFFFFFFF : Word).getLsbD 31 = true :=
  ⟨given_eventIsNext _ _ rfl, by decide, by decide⟩

theorem witness_NoStepChangesTheParameters :
    nextIs (step (given waiting .rst)) (fun _ => true) = true ∧ nextIs (step unit) (fun _ => true) = true := by decide +kernel

theorem witness_RegisterPortReachesG :
    (given unit (.regRead 0x100)).eventIsNext (.regRead 0x100) [] ∧
      (given unit (.regWrite 0x13C 0x1FF)).eventIsNext (.regWrite 0x13C 0x1FF) [] ∧
      (given unit (.regWrite 0x13C 0x1FF)).busy = false ∧
      (given waiting (.regWrite 0x100 0)).eventIsNext (.regWrite 0x100 0) [] ∧
      (given waiting (.regWrite 0x100 0)).busy = true :=
  ⟨given_eventIsNext _ _ rfl, given_eventIsNext _ _ rfl, by decide +kernel, given_eventIsNext _ _ rfl, by decide +kernel⟩

/-- Address 0xFF is the last byte of MEM, 0x100 the first that does not exist; a released transaction with nothing next, with `memStep`
next, and with each reset next. -/
theorem witness_MemPortMovesBytesUnlessHeld :
    let released := { unit with heldMem := [.read 0, .write 1 2] }
    (unit.memHeld = false ∧ unit.heldMem = []) ∧ (given unit (.memPort (.read 0x100))).agenda = [.memPort (.read 0x100)] ∧
      unit.params.memBytes ≤ (0x100 : Word).toNat ∧ (0xFF : Word).toNat < unit.params.memBytes ∧
      (sharing.memHeld = true ∧ (given sharing (.memPort (.read 0))).agenda = [.memPort (.read 0)]) ∧
      (released.memHeld = false ∧ released.agenda = []) ∧ Event.goesFirst (.regRead 0x004) = false ∧
      (given released .memStep).agenda = [.memStep] ∧ (given released .rst).agenda = [.rst] ∧
      (given released (.regWrite 0x00C 0x80000000)).agenda = [.regWrite 0x00C 0x80000000] ∧ regAt 0x00C = .ctrl ∧
      (0x80000000 : Word).getLsbD 31 = true := by decide +kernel

/-- Each of the ways in which MEM changes: rst, the host's write at once and after a hold, the last draw of SPLIT, COMBINE. -/
theorem witness_OnlySplitCombineAndTheHostChangeMem :
    nextIs (step (given (withMem [1]) .rst)) (fun t => t.mem != (withMem [1]).mem) = true ∧
      nextIs (step (given unit (.memPort (.write 3 9)))) (fun t => t.mem != unit.mem) = true ∧
      nextIs (step { unit with heldMem := [.write 3 9] }) (fun t => t.mem != unit.mem) = true ∧
      nextIs (step (given { withMem [1] with heldMem := [.write 0 9] } .memStep)) (fun t => t.readByte 0 != (withMem [1]).readByte 0) =
        true ∧
      nextIs (step (given sharing (drawn 5))) (fun t => t.mem != sharing.mem) = true ∧
      nextIs (step (given combining (.regWrite 0x000 0x31000000))) (fun t => t.mem != combining.mem) = true := by decide +kernel

/-- Each kind of register, at the ends of the map; CTRL with bit 31 clear. -/
theorem witness_NarrowRegistersKeepTheLowBits :
    unit.busy = false ∧ (∀ off w, (given unit (.regWrite off w)).eventIsNext (.regWrite off w) []) ∧
      regAt 0x010 = .cfgN ∧ regAt 0x014 = .cfgT ∧ regAt 0x018 = .cfgK ∧ regAt 0x01C = .cfgBlock ∧ regAt 0x020 = .cfgSrc ∧
      regAt 0x024 = .cfgDst ∧ regAt 0x028 = .cfgLen ∧ regAt 0x100 = .g 0 ∧ regAt 0x13C = .g 15 ∧
      (regAt 0x00C = .ctrl ∧ (0x7FFFFFFF : Word).getLsbD 31 = false) ∧ regAt 0x004 = .status ∧ regAt 0x008 = .errcode ∧
      regAt 0x7F8 = .x 254 ∧ regAt 0x04C = .reserved :=
  ⟨by decide +kernel, fun _ _ => given_eventIsNext _ _ rfl, by decide, by decide, by decide, by decide, by decide, by decide, by decide,
    by decide, by decide, by decide, by decide, by decide, by decide, by decide⟩

theorem witness_OnlyDestinationsAndTheHostChangeG :
    nextIs (step (given (unit.setG 7 1) .rst)) (fun t => t.getG 7 != 1) = true ∧
      nextIs (step (given unit (.regWrite 0x11C 5))) (fun t => t.getG 7 != 0) = true ∧
      nextIs (step (given unit (.regWrite 0x000 0x017000FF))) (fun t => t.getG 7 != 0) = true := by decide +kernel

/-- An executing SPLIT meets the invariant, and its last draw is a step. -/
theorem witness_EveryStepKeepsTheInvariant :
    (given sharing (drawn 5)).Inv ∧ nextIs (step (given sharing (drawn 5))) (fun _ => true) = true := by
  refine ⟨⟨⟨by decide +kernel, by decide +kernel⟩, by decide +kernel, by decide +kernel, by decide +kernel, by decide +kernel,
    by decide +kernel, by decide +kernel, by decide +kernel, ?_⟩, by decide +kernel⟩
  show Fsm.wf _ _
  simp [given, sharing, atPoint, unit, memJob, Fsm.wf, SplitJob.wf, coordinatesOk, Params.memBytes]

theorem witness_PvalidIsClearWhileSecretsAreInUse :
    (waiting.fsm.clearsPvalid = true ∧ waiting.pvalid = false) ∧
      nextIs (step (given waiting (drawn 1))) (fun t => t.fsm.clearsPvalid) = true ∧
      nextIs (step (given { unit with pvalid := true, cfgN := 2, cfgT := 2 } (.regWrite 0x000 0x30000000))) (fun t =>
        t.fsm.clearsPvalid) = true := by decide +kernel

theorem witness_CoordinateTableFollowsTheCommand :
    (given sampling (drawn 3)).Inv ∧
      (given sampling (drawn 3)).x.toList.take (given sampling (drawn 3)).fsm.coordinates.length =
        (given sampling (drawn 3)).fsm.coordinates ∧
      nextIs (step (given sampling (drawn 3))) (fun t => t.fsm.coordinates == [1, 2, 3]) = true := by
  refine ⟨⟨⟨by decide +kernel, by decide +kernel⟩, by decide +kernel, by decide +kernel, by decide +kernel, by decide +kernel,
    by decide +kernel, by decide +kernel, by decide +kernel, ?_⟩, by decide +kernel, by decide +kernel⟩
  show Fsm.wf _ _
  simp [given, sampling, atPoint, unit, memJob, Fsm.wf, SplitJob.wf, coordinatesOk, Params.memBytes]

theorem witness_NothingWrittenToAChannelIsTakenBack :
    nextIs (step (given (atPoint (.mainWrite combJob [2, 1] [0x41])) (.stream .ok))) (fun t => t.channelBytes .main == [0x41]) =
      true := by decide +kernel

/-- An error at acceptance, one on an answer from an executing command; ERRCODE changed by each of the four kinds of event that can. -/
theorem witness_CommandsEndOnlyWithTheirErrors :
    unit.err = false ∧ endsWith (exec (.gdiv 1 2 3) unit) 2 = true ∧ endsWith (exec .split unit) 1 = true ∧
      (waiting.err = false ∧ waiting.busy = true) ∧ endsWith (step (given waiting (.entropy .fail))) 3 = true ∧
      endsWith (step (given unit (.regWrite 0x000 0x30000000))) 1 = true ∧
      endsWith (step (given (atPoint (.chunkRead streamJob [1, 2])) (.stream .err))) 6 = true ∧
      ([Event.rst, .regWrite 0x00C 0x80000000].all fun e =>
        nextIs (step (given { unit with errcode := 4 } e)) fun t => t.errcode == 0) = true := by decide +kernel

/-- Entry 4 of 5 is the last valid one. -/
theorem witness_StatusBitsAndIrq : (4 : Fin 255).val < { unit with xcount := 5 }.xcount.toNat := by decide +kernel

theorem witness_NopOnlyCompletes :
    (opcOf 0x00000001 = 0x00 ∧ (0x00000001 : Word) ≠ 0) ∧ unit.busy = false ∧
      (given unit (.regWrite 0x000 0x00000000)).eventIsNext (.regWrite 0x000 0x00000000) [] :=
  ⟨by decide, by decide +kernel, given_eventIsNext _ _ rfl⟩

theorem witness_LdiLoadsTheImmediate :
    (opcOf 0x01000100 = 0x01 ∧ (0x01000100 : Word).extractLsb' 8 12 ≠ 0 ∧ opcOf 0x01080000 = 0x01 ∧
      (0x01080000 : Word).extractLsb' 8 12 ≠ 0) ∧ unit.busy = false := by decide +kernel

theorem witness_GaddAddsInTheField :
    (opcOf 0x10000800 = 0x10 ∧ (0x10000800 : Word).extractLsb' 0 12 ≠ 0) ∧ unit.busy = false ∧
      (withG 7 7).getG 1 = (withG 7 7).getG 2 ∧ (withG 0 7).getG 1 = 0 ∧ (withG 7 0).getG 2 = 0 ∧
      (withG 0x53 0xCA).getG 1 = 0x53 ∧ (withG 0x53 0xCA).getG 2 = 0xCA := by decide +kernel

theorem witness_GmulMultipliesInTheField :
    (opcOf 0x11000001 = 0x11 ∧ (0x11000001 : Word).extractLsb' 0 12 ≠ 0) ∧ unit.busy = false ∧
      (withG 0 7).getG 1 = 0 ∧ (withG 7 0).getG 2 = 0 ∧ (withG 1 7).getG 1 = 1 ∧ (withG 7 1).getG 2 = 1 ∧
      ((withG 0x80 2).getG 1 = 0x80 ∧ (withG 0x80 2).getG 2 = 0x02) ∧
      ((withG 3 0xF).getG 1 = 0x03 ∧ (withG 3 0xF).getG 2 = 0x0F) := by decide +kernel

theorem witness_GdivDividesOrRaises :
    (opcOf 0x12000800 = 0x12 ∧ (0x12000800 : Word).extractLsb' 0 12 ≠ 0) ∧ (withG 5 0).busy = false ∧ (withG 5 0).getG 2 = 0 ∧
      (withG 5 1).getG 2 ≠ 0 ∧ ((withG 0 9).getG 1 = 0 ∧ (withG 0 9).getG 2 ≠ 0) ∧
      ((withG 9 9).getG 1 = (withG 9 9).getG 2 ∧ (withG 9 9).getG 2 ≠ 0) ∧
      ((withG 0x11 3).getG 1 = 0x11 ∧ (withG 0x11 3).getG 2 = 0x03) := by decide +kernel

theorem witness_GinvInvertsOrRaises :
    (opcOf 0x13008000 = 0x13 ∧ (0x13008000 : Word).extractLsb' 0 16 ≠ 0) ∧ unit.busy = false ∧ (withG 0 1).getG 1 = 0 ∧
      (withG 0 1).getG 2 ≠ 0 ∧ gfinv .p11B 0x53 = some 0xCA := by decide +kernel

theorem witness_GfmulLaws :
    (0x0F : Byte).toNat < 0x10 ∧ (0x0F : Byte).toNat.log2 + (0x0F : Byte).toNat.log2 < 8 := by decide

theorem witness_GfinvIsTheUniqueInverse : (1 : Byte) ≠ 0 ∧ gfmul .p11B 1 1 = 1 ∧ (0xFF : Byte) ≠ 0 := by decide +kernel

theorem witness_RegisterCommandsFrame :
    ([Instr.nop, .ldi 1 2, .gadd 1 2 3, .gmul 1 2 3, .gdiv 1 2 3, .ginv 1 2, .pseti 1, .peval 1 2].all fun i =>
      nextIs (exec i unit) fun _ => true) = true ∧ destOf (.gadd 1 2 3) ≠ some 2 := by decide +kernel

theorem witness_PnewWithoutDraws : unit.busy = false := by decide +kernel

/-- Degree 1 and degree 254, the ends of the range. -/
theorem witness_PnewBuildsThePolynomialFromItsDraws :
    let one := { unit with agenda := drawAnswers [5] ++ [Event.rst] }
    let most := { unit with agenda := drawAnswers (List.replicate 254 9) ++ [] }
    (one.busy = false ∧ one.heldMem = [] ∧ 1 ≤ (1 : Byte).toNat ∧ (1 : Byte).toNat ≤ 254 ∧ [(5 : Byte)].length = (1 : Byte).toNat ∧
      one.agenda = drawAnswers [5] ++ [Event.rst]) ∧
    most.busy = false ∧ most.heldMem = [] ∧ 1 ≤ (254 : Byte).toNat ∧ (254 : Byte).toNat ≤ 254 ∧
      (List.replicate 254 (9 : Byte)).length = (254 : Byte).toNat ∧
      most.agenda = drawAnswers (List.replicate 254 9) ++ [] := by decide +kernel

theorem witness_EntropyFailureEndsTheCommand :
    (∀ s ∈ [waiting, sampling, sharing], (given s (.entropy .fail)).eventIsNext (.entropy .fail) []) ∧
      ([waiting, sampling, sharing].all fun s => (given s (.entropy .fail)).request == some .draw) = true :=
  ⟨fun s hs => given_eventIsNext s _ (by
    rcases List.mem_cons.1 hs with rfl | hs
    · rfl
    · rcases List.mem_cons.1 hs with rfl | hs
      · rfl
      · rcases List.mem_singleton.1 hs with rfl; rfl), by decide +kernel⟩

theorem witness_PsetiReplacesTheIntercept :
    (opcOf 0x21100000 = 0x21 ∧ (0x21100000 : Word).extractLsb' 20 4 ≠ 0) ∧
      (opcOf 0x21008000 = 0x21 ∧ (0x21008000 : Word).extractLsb' 0 16 ≠ 0) ∧ (unit.busy = false ∧ unit.pvalid = false) ∧
      ({ unit with pvalid := true }.busy = false ∧ { unit with pvalid := true }.pvalid = true) := by decide +kernel

theorem witness_PevalEvaluatesOrRaises :
    (opcOf 0x22000001 = 0x22 ∧ (0x22000001 : Word).extractLsb' 0 16 ≠ 0) ∧ (unit.busy = false ∧ unit.pvalid = false) ∧
      (let s := { withG 0 3 with pvalid := true, c := (Vector.replicate 255 0).set 0 0x41 |>.set 1 5, pdeg := 1 }
       s.busy = false ∧ s.pvalid = true ∧ s.getG 1 = 0 ∧ s.polyCoefs = [0x41, 0x05] ∧ s.getG 2 = 0x03) ∧
      { unit with pvalid := true }.pdeg = 0 := by decide +kernel

theorem witness_EvaluateIsThePolynomialSum : [(0x41 : Byte)] ≠ [] := by decide

/-- Each failing condition of the first check at its boundary, and of the second: one byte past the end of MEM. -/
theorem witness_SplitChecksComeInOrder :
    unit.busy = false ∧
      ([(1, 1), (2, 1), (3, 4)].all fun nt =>
        let s := { unit with cfgN := nt.1, cfgT := nt.2 }
        !decide (2 ≤ s.cfgN.toNat ∧ s.cfgN.toNat ≤ 255 ∧ 2 ≤ s.cfgT.toNat ∧ s.cfgT.toNat ≤ 255 ∧ s.cfgT.toNat ≤ s.cfgN.toNat)) = true ∧
      (let s := { unit with cfgN := 2, cfgT := 2, cfgLen := 1, cfgSrc := 0x100 }
       2 ≤ s.cfgT.toNat ∧ s.cfgT.toNat ≤ s.cfgN.toNat ∧ s.cfgLen.toNat ≠ 0 ∧ s.params.memBytes < s.cfgSrc.toNat + s.cfgLen.toNat) ∧
      (let s := { unit with cfgN := 2, cfgT := 2, cfgLen := 0, cfgDst := 0xFF }
       2 ≤ s.cfgT.toNat ∧ s.cfgT.toNat ≤ s.cfgN.toNat ∧ s.params.memBytes < s.cfgDst.toNat + s.cfgN.toNat * (s.cfgLen.toNat + 1)) := by
  decide +kernel

/-- V1's operands and draws. -/
theorem witness_SplitWritesTheSharesOfTheSecret :
    let draws : List Byte := [0x00, 0x01, 0x01, 0x02, 0x03]
    let s := { withMem [0x41] with
      cfgN := 3, cfgT := 2, cfgLen := 1, cfgDst := 0x10, agenda := drawAnswers (draws ++ [0x05]) ++ [Event.rst] }
    s.busy = false ∧ splitValid 3 2 = true ∧ inRange s.params 0 1 = true ∧ inRange s.params 0x10 (3 * (1 + 1)) = true ∧
      (acceptedCoordinates draws).length = 3 ∧ (acceptedCoordinates draws.dropLast).length < 3 ∧
      [(0x05 : Byte)].length = coefficientDraws s.policy 2 1 ∧ s.agenda = drawAnswers (draws ++ [0x05]) ++ [Event.rst] := by
  decide +kernel

theorem witness_SamplingCollectsDistinctNonzeroBytes :
    let s := { atPoint (.sampleDraw (memJob [0x41]) []) with agenda := drawAnswers [0, 1, 1, 2] ++ [] }
    s.fsm = .sampleDraw (memJob [0x41]) [] ∧ s.heldMem = [] ∧ (memJob [0x41]).n ≤ 255 ∧
      (acceptedCoordinates [0, 1, 1, 2]).length < (memJob [0x41]).n ∧ s.agenda = drawAnswers [0, 1, 1, 2] ++ [] := by decide +kernel

theorem witness_CombineWritesTheReconstruction :
    let s := combining
    s.busy = false ∧ 2 ≤ s.cfgK.toNat ∧ s.cfgK.toNat ≤ 254 ∧ inRange s.params s.cfgSrc.toNat (8 * s.cfgK.toNat) = true ∧
      (∀ j, j < s.cfgK.toNat → (s.rd32 (s.cfgSrc.toNat + 8 * j + 4)).toNat = 1 + 1 ∧
        inRange s.params (s.rd32 (s.cfgSrc.toNat + 8 * j)).toNat (1 + 1) = true) ∧
      inRange s.params s.cfgDst.toNat 1 = true ∧
      ((List.range s.cfgK.toNat).map fun j => s.readByte (s.rd32 (s.cfgSrc.toNat + 8 * j)).toNat).Nodup := by decide +kernel

/-- The two counts outside 2 to 254; the table one byte past the end; a share of length 0; one out of range; two lengths; a destination
out of range; a repeated coordinate. Total lengths are those of `combining` but for the byte named. -/
theorem witness_CombineChecksComeInOrder :
    let total := fun (s : State) (j : Nat) => (s.rd32 (s.cfgSrc.toNat + 8 * j + 4)).toNat
    let addr := fun (s : State) (j : Nat) => (s.rd32 (s.cfgSrc.toNat + 8 * j)).toNat
    let shareOk := fun (s : State) (j : Nat) => decide (total s j ≠ 0) && inRange s.params (addr s j) (total s j)
    ¬(2 ≤ { combining with cfgK := 1 }.cfgK.toNat) ∧ ¬({ combining with cfgK := 255 }.cfgK.toNat ≤ 254) ∧
      inRange combining.params 0xF1 (8 * 2) = false ∧ inRange combining.params 0 (8 * 2) = true ∧
      (shareOk (combining.writeByte 12 0) 0 = true ∧ total (combining.writeByte 12 0) 1 = 0) ∧
      (shareOk (combining.writeByte 8 0xFF) 0 = true ∧ total (combining.writeByte 8 0xFF) 1 ≠ 0 ∧
        inRange combining.params (addr (combining.writeByte 8 0xFF) 1) (total (combining.writeByte 8 0xFF) 1) = false) ∧
      (shareOk (combining.writeByte 12 3) 0 = true ∧ shareOk (combining.writeByte 12 3) 1 = true ∧
        total (combining.writeByte 12 3) 1 ≠ total (combining.writeByte 12 3) 0) ∧
      (shareOk combining 0 = true ∧ shareOk combining 1 = true ∧ total combining 1 = total combining 0 ∧
        inRange combining.params 0x100 (total combining 0 - 1) = false ∧ inRange combining.params 0x20 (total combining 0 - 1) = true) ∧
      (combining.writeByte 0x12 1).readByte (addr combining 0) = (combining.writeByte 0x12 1).readByte (addr combining 1) := by
  decide +kernel

theorem witness_ReconstructionRecoversTheSecret :
    2 ≤ [(1 : Byte), 2].length ∧ [(1 : Byte), 2].Nodup ∧ [(5 : Byte)].length = coefficientDraws .perByte 2 [(0x41 : Byte)].length ∧
      ([] : List Byte).length = coefficientDraws .perBlock 2 ([] : List Byte).length := by decide

theorem witness_LagrangeIgnoresTheOrderOfShares :
    [((1 : Byte), (0x44 : Byte)), (2, 0x4B)].Perm [(2, 0x4B), (1, 0x44)] := List.Perm.swap _ _ _

theorem witness_StreamingChecksComeFirst :
    unit.busy = false ∧ ¬(2 ≤ unit.cfgN.toNat) ∧ ¬(2 ≤ unit.cfgK.toNat) ∧
      ¬({ unit with cfgBlock := 65 }.cfgBlock.toNat ≤ unit.params.blockMax) ∧ ¬(1 ≤ unit.cfgBlock.toNat) := by decide +kernel

/-- V36's operands and answers. -/
theorem witness_SsplitStreamsTheShares :
    let draws : List Byte := [1, 2]
    let rounds : List (List Byte × List Byte) := [([0x41, 0x42], [1, 2]), ([0x43], [3])]
    let answers := drawAnswers draws ++ okAnswers 2 ++ rounds.flatMap (splitRoundAnswers 2) ++ [.stream .eof]
    let s := { unit with cfgN := 2, cfgT := 2, cfgBlock := 2, agenda := answers ++ [Event.rst] }
    s.busy = false ∧ s.heldMem = [] ∧ splitValid 2 2 = true ∧ blockValid s.params 2 = true ∧
      (acceptedCoordinates draws).length = 2 ∧ (acceptedCoordinates draws.dropLast).length < 2 ∧
      (∀ r ∈ rounds, legalChunk 2 r.1 = true ∧ r.2.length = coefficientDraws s.policy 2 r.1.length) ∧
      s.agenda = answers ++ [Event.rst] := by decide +kernel

/-- V37's operands and answers, and the same under SYMMETRIC. -/
theorem witness_ScombStreamsTheReconstruction :
    let rounds : List (List (List Byte)) := [[[0x43, 0x46], [0x40, 0x40]], [[0x45], [0x40]]]
    let xs : List Byte := [2, 1]
    let answers := fun p => (xs.map fun x => Event.stream (.chunk [x])) ++ rounds.flatMap combineRoundAnswers ++
      List.replicate (endAnswers p 2) (.stream .eof)
    ∀ p ∈ [EofPolicy.leaderOnly, .symmetric],
      let s := { unit with cfgK := 2, cfgBlock := 2, eofpol := p, agenda := answers p ++ [Event.rst] }
      s.busy = false ∧ s.heldMem = [] ∧ combineCountValid 2 = true ∧ blockValid s.params 2 = true ∧ xs.length = 2 ∧ xs.Nodup ∧
        (∀ r ∈ rounds, r.length = 2 ∧ ∀ c ∈ r, legalChunk 2 c = true ∧ c.length = (r.headD []).length) ∧
        s.agenda = answers p ++ [Event.rst] := by decide +kernel

/-- A chunk one byte too long, an empty one, and an ERR. -/
theorem witness_IllegalStreamAnswersAreIoErrors :
    let s := atPoint (.chunkRead streamJob [1, 2])
    (∀ a, (given s (.stream a)).eventIsNext (.stream a) []) ∧ s.request = some (.stream (.read .main 2)) ∧
      legalAnswer (.read .main 2) (.chunk [1, 2, 3]) = false ∧ legalAnswer (.read .main 2) (.chunk []) = false ∧
      legalAnswer (.write .main [1]) .err = false :=
  ⟨fun _ => given_eventIsNext _ _ rfl, by decide +kernel, by decide, by decide, by decide⟩

theorem witness_ScombHeaderAndRoundErrors :
    (∀ a, (given (atPoint (.headerRead combJob [1])) (.stream a)).eventIsNext (.stream a) []) ∧
      (atPoint (.headerRead combJob [1])).fsm = .headerRead combJob [1] ∧ combJob.k ≤ 254 ∧ [(1 : Byte)].length + 1 = combJob.k ∧
      ¬([(1 : Byte)] ++ [1]).Nodup ∧
      (∀ a, (given (atPoint (.partRead combJob [1, 2] [[1, 1]])) (.stream a)).eventIsNext (.stream a) []) ∧
      (atPoint (.partRead combJob [1, 2] [[1, 1]])).fsm = .partRead combJob [1, 2] [[1, 1]] ∧
      legalChunk combJob.block [1] = true ∧ [(1 : Byte)].length ≠ [(1 : Byte), 1].length :=
  ⟨fun _ => given_eventIsNext _ _ rfl, by decide +kernel, by decide, by decide, by decide, fun _ => given_eventIsNext _ _ rfl,
    by decide +kernel, by decide, by decide⟩

/-- With K = 2 part 1 is the last; with K = 3 it is not. -/
theorem witness_EndOfStreamRules :
    (∀ j ∈ [combJob, symJob], (given (atPoint (.partRead j [1, 2] [])) (.stream .eof)).eventIsNext (.stream .eof) []) ∧
      combJob.eofpol = .leaderOnly ∧ symJob.eofpol = .symmetric ∧
      (∀ a, (given (atPoint (.endRead symJob 1)) (.stream a)).eventIsNext (.stream a) []) ∧
      symJob.k ≤ 1 + 1 ∧ 1 + 1 < { symJob with k := 3 }.k ∧ legalChunk symJob.block [7] = true :=
  ⟨fun _ _ => given_eventIsNext _ _ rfl, by decide, by decide, fun _ => given_eventIsNext _ _ rfl, by decide, by decide, by decide⟩

theorem witness_EmptyPatternNamesMatchAtCombine :
    ['p', 'a', 'r', 't'] ≠ [] ∧ hasToken ['p', 'a', 'r', 't'] = false ∧
      ({ kind := .standard, bytes := [], opens := true } : MainStream).opens = true := by decide

end Sys2Proof.Tests
end

section
/-! The configurable polynomials (00_scope.md R7): `Poly.all` is the whole type, its values are distinct, and they are the values that
pass the trial division. -/

namespace Sys2Proof

theorem Poly.mem_all (p : Poly) : p ∈ Poly.all := by cases p <;> decide

theorem Poly.bits_injective : Function.Injective Poly.bits := by
  have distinct : (Poly.all.map Poly.bits).Nodup := by decide
  exact fun p q h => List.inj_on_of_nodup_map distinct p.mem_all q.mem_all h

theorem Poly.ofBits_eq_some_iff {b : BitVec 9} {p : Poly} : Poly.ofBits b = some p ↔ p.bits = b := by
  constructor
  · intro h
    simpa using List.find?_some h
  · rintro rfl
    have found : (Poly.ofBits p.bits).isSome := List.find?_isSome.mpr ⟨p, p.mem_all, by simp⟩
    obtain ⟨q, hq⟩ := Option.isSome_iff_exists.mp found
    have hbits : q.bits = p.bits := by simpa using List.find?_some hq
    rw [hq, Poly.bits_injective hbits]

theorem Poly.legalBits_bits (p : Poly) : Poly.legalBits p.bits = true := by cases p <;> decide

/-- G1 of 93_implementation_defined.md: trial division of all 9-bit values leaves no polynomial outside the list. -/
theorem Poly.mem_bits_of_legalBits : ∀ b : BitVec 9, Poly.legalBits b = true → b ∈ Poly.all.map Poly.bits := by
  decide +kernel

theorem Poly.legalBits_iff {b : BitVec 9} : Poly.legalBits b = true ↔ ∃ p : Poly, p.bits = b := by
  constructor
  · intro legal
    obtain ⟨p, -, hp⟩ := List.mem_map.mp (Poly.mem_bits_of_legalBits b legal)
    exact ⟨p, hp⟩
  · rintro ⟨p, rfl⟩
    exact p.legalBits_bits

/-- Settles O14: `ofBits` finds a value exactly when it is a constructor's value, which is when it passes the trial division. -/
theorem configurablePolynomialsAreTheLegalOnes : Obligations.ConfigurablePolynomialsAreTheLegalOnes := by
  refine ⟨fun b => ?_, fun p => Poly.ofBits_eq_some_iff.mpr rfl, rfl⟩
  rw [Bool.eq_iff_iff, Option.isSome_iff_exists, Poly.legalBits_iff]
  simp only [Poly.ofBits_eq_some_iff]

end Sys2Proof
end

section
/-! What one step can do, said once: the step by the event it takes (`step_next_cases`, `State.Handled`), and the command that an
acceptance runs by the way it begins or ends (`State.Runs`). -/

namespace Sys2Proof.Machine

/-- What one event can lead to (40_unit.md R140, R141, 10_state.md R51, 70_reset_and_hazards.md R341). -/
inductive State.Handled (s : State) : Event → State → Prop
  | hardReset : s.Handled .rst s.hardReset
  | softReset {off : BitVec 12} {w : Word} (ctrl : regAt off = .ctrl) (srst : w.getLsbD 31 = true) :
      s.Handled (.regWrite off w) s.softReset
  | dropped {off : BitVec 12} {w : Word} (noReset : ¬(regAt off = .ctrl ∧ w.getLsbD 31 = true)) (busy : s.busy = true) :
      s.Handled (.regWrite off w) s.dropWrite
  | command {off : BitVec 12} {w : Word} {i : Instr} {t : State} (cmd : regAt off = .cmd) (idle : s.busy = false)
      (decoded : decode w = .ok i) (run : exec i (s.accept w) = .next t) : s.Handled (.regWrite off w) t
  | illegal {off : BitVec 12} {w : Word} (cmd : regAt off = .cmd) (idle : s.busy = false) :
      s.Handled (.regWrite off w) ((s.accept w).raise .illegalCommand)
  | stored {off : BitVec 12} {w : Word} (notCmd : regAt off ≠ .cmd) (noReset : ¬(regAt off = .ctrl ∧ w.getLsbD 31 = true)) :
      s.Handled (.regWrite off w) (s.storeReg w (regAt off))
  | read (off : BitVec 12) : s.Handled (.regRead off) (s.hostRead off)
  | memPort (m : MemTxn) : s.Handled (.memPort m) (s.memAccess m)
  | entropy (a : EntropyAnswer) : s.Handled (.entropy a) (s.entropyAnswer a)
  | stream (a : StreamAnswer) : s.Handled (.stream a) (s.streamAnswer a)
  | lateEntropy (a : EntropyAnswer) : s.Handled (.lateEntropy a) s
  | lateStream (a : StreamAnswer) : s.Handled (.lateStream a) s
  | memStep : s.Handled .memStep s.releaseHeld

theorem State.handled_of_submit {s t : State} {off : BitVec 12} {w : Word} (cmd : regAt off = .cmd) (h : s.submit w = .next t) :
    s.Handled (.regWrite off w) t := by
  obtain ⟨busy, hs⟩ | ⟨idle, i, decoded, hs⟩ | ⟨idle, _, -, hs⟩ := s.submit_cases w <;> rw [hs] at h
  · cases h
    exact .dropped (by simp [cmd]) busy
  · exact .command cmd idle decoded h
  · cases h
    exact .illegal cmd idle

theorem State.handled_hostWrite (s : State) {off : BitVec 12} (w : Word) (notCmd : regAt off ≠ .cmd) :
    s.Handled (.regWrite off w) (s.hostWrite (regAt off) w) := by
  obtain ⟨ctrl, srst, hs⟩ | ⟨noReset, busy, -, hs⟩ | ⟨noReset, -, hs⟩ := s.hostWrite_cases (regAt off) w <;> rw [hs]
  · exact .softReset ctrl srst
  · exact .dropped noReset busy
  · exact .stored notCmd noReset

theorem State.handled_of_handle {s t : State} {e : Event} (h : s.handle e = .next t) : s.Handled e t := by
  cases e with
  | regWrite off w =>
    obtain ⟨cmd, hs⟩ | ⟨notCmd, hs⟩ := s.regWrite_cases off w
    · exact State.handled_of_submit cmd (hs ▸ h)
    · cases hs.symm.trans h
      exact s.handled_hostWrite w notCmd
  | rst => cases h; exact .hardReset
  | regRead off => cases h; exact .read off
  | memPort m => cases h; exact .memPort m
  | entropy a => cases h; exact .entropy a
  | stream a => cases h; exact .stream a
  | lateEntropy a => cases h; exact .lateEntropy a
  | lateStream a => cases h; exact .lateStream a
  | memStep => cases h; exact .memStep

/-- A step handles the next event, carries out a released MEM transaction, or changes nothing. -/
theorem step_next_cases {s t : State} (h : step s = .next t) :
    (∃ e rest, s.agenda = e :: rest ∧ (s.withAgenda rest).Handled e t) ∨
    (∃ m rest, t = (s.withHeld rest).carryOut m) ∨ t = s := by
  obtain ⟨e, rest, ha, -, hs⟩ | ⟨m, rest, -, -, -, hs⟩ | ⟨-, -, hs⟩ := step_cases s
  · exact .inl ⟨e, rest, ha, State.handled_of_handle (hs ▸ h)⟩
  · cases hs.symm.trans h
    exact .inr (.inl ⟨m, rest, rfl⟩)
  · cases hs.symm.trans h
    exact .inr (.inr rfl)

/-- What a command leaves at the end of the step that accepts it: it has ended, or it waits at its first request (40_unit.md R141). -/
inductive State.Runs (s : State) : Instr → State → Prop
  | failed (i : Instr) (e : ErrorKind) : s.Runs i (s.raise e)
  | nop : s.Runs .nop s.complete
  | wroteG {i : Instr} {rd : Reg} (dest : destOf i = some rd) (v : Byte) : s.Runs i (s.setG rd v).complete
  | setIntercept (ra : Reg) : s.Runs (.pseti ra) (s.setC 0 (s.getG ra)).complete
  | constantPoly (ra : Reg) : s.Runs (.pnew ra 0) (s.clearPvalid.finishPoly (s.getG ra) 0)
  | drawsPoly (ra : Reg) {d : Byte} (pos : 1 ≤ d.toNat) (le : d.toNat ≤ 254) :
      s.Runs (.pnew ra d) (s.clearPvalid.goto (.polyDraw (s.getG ra) d.toNat 1))
  | split (wf : s.splitJob.wf s.params) : s.Runs .split (s.clearPvalid.startSampling s.splitJob)
  | combined {dst : Nat} {xs out : List Byte} (count : xs.length ≤ 254) (fits : inRange s.params dst out.length = true) :
      s.Runs .combine (s.finishCombine dst xs out)
  | ssplit (wf : s.streamSplitJob.wf s.params) :
      s.Runs .ssplit ((s.clearPvalid.setRlen 0).startSampling s.streamSplitJob)
  | scomb (wf : s.combJob.wf s.params) : s.Runs .scomb (((s.setRlen 0).setXcount 0).goto (.headerRead s.combJob []))

theorem splitValid_iff (n t : Nat) : splitValid n t = true ↔ 2 ≤ t ∧ t ≤ n ∧ n ≤ 255 := by
  simp only [splitValid, Bool.and_eq_true, decide_eq_true_eq]
  omega

theorem inRange_iff (p : Params) (a n : Nat) : inRange p a n = true ↔ n = 0 ∨ a + n ≤ p.memBytes := by
  simp [inRange]

theorem blockValid_iff (p : Params) (b : Nat) : blockValid p b = true ↔ 1 ≤ b ∧ b ≤ p.blockMax := by
  simp [blockValid]

theorem combineCountValid_iff (k : Nat) : combineCountValid k = true ↔ 2 ≤ k ∧ k ≤ 254 := by
  simp [combineCountValid]

/-- As many descriptors as asked for are read, if none is refused. -/
theorem State.length_of_readDescriptors {s : State} {tab k count : Nat} {ds : List Descriptor}
    (h : s.readDescriptors tab k count = .ok ds) : ds.length = count := by
  induction count generalizing k ds with
  | zero => cases h; rfl
  | succ count ih =>
    rw [State.readDescriptors] at h
    split at h
    · cases h
    · split at h
      · cases h
      · split at h
        · rename_i tail hrest
          cases h
          rw [List.length_cons, ih hrest]
        · cases h

theorem State.splitJob_wf {s : State} (valid : splitValid s.cfgN.toNat s.cfgT.toNat = true)
    (fits : inRange s.params s.cfgDst.toNat (s.cfgN.toNat * (s.cfgLen.toNat + 1)) = true) : s.splitJob.wf s.params := by
  rw [splitValid_iff] at valid
  obtain ⟨ht, htn, hn⟩ := valid
  have nonempty : s.cfgN.toNat * (s.cfgLen.toNat + 1) ≠ 0 := Nat.mul_ne_zero (by omega) (by omega)
  rw [inRange_iff] at fits
  refine ⟨ht, htn, hn, ?_⟩
  simpa [State.splitJob, nonempty] using fits

theorem State.streamSplitJob_wf {s : State} (valid : splitValid s.cfgN.toNat s.cfgT.toNat = true)
    (block : blockValid s.params s.cfgBlock.toNat = true) : s.streamSplitJob.wf s.params := by
  rw [splitValid_iff] at valid
  obtain ⟨ht, htn, hn⟩ := valid
  exact ⟨ht, htn, hn, (blockValid_iff _ _).mp block⟩

theorem State.combJob_wf {s : State} (count : combineCountValid s.cfgK.toNat = true)
    (block : blockValid s.params s.cfgBlock.toNat = true) : s.combJob.wf s.params := by
  obtain ⟨hk, hk'⟩ := (combineCountValid_iff _).mp count
  exact ⟨hk, hk', (blockValid_iff _ _).mp block⟩

theorem State.writeField_runs (s : State) {i : Instr} {rd : Reg} (dest : destOf i = some rd) (r : Option Byte) :
    s.Runs i (s.writeField rd r) := by
  obtain ⟨v, -, hs⟩ | ⟨-, hs⟩ := s.writeField_cases rd r <;> rw [hs]
  · exact .wroteG dest v
  · exact .failed i _

theorem execPnew_runs {s t : State} {ra : Reg} {d : Byte} (h : execPnew ra d s = .next t) : s.Runs (.pnew ra d) t := by
  cases h
  split
  · exact .failed _ _
  · split
    · subst d
      exact .constantPoly ra
    · rename_i le ne
      have pos : d.toNat ≠ 0 := fun h0 => ne (BitVec.eq_of_toNat_eq h0)
      exact .drawsPoly ra (by omega) (by omega)

theorem execPseti_runs {s t : State} {ra : Reg} (h : execPseti ra s = .next t) : s.Runs (.pseti ra) t := by
  cases h
  split
  · exact .setIntercept ra
  · exact .failed _ _

theorem execPeval_runs {s t : State} {rd ra : Reg} (h : execPeval rd ra s = .next t) : s.Runs (.peval rd ra) t := by
  cases h
  split
  · exact .wroteG rfl _
  · exact .failed _ _

theorem execSplit_runs {s t : State} (h : execSplit s = .next t) : s.Runs .split t := by
  cases h
  split
  · exact .failed _ _
  · split
    · exact .failed _ _
    · split
      · exact .failed _ _
      · rename_i valid _ fits
        exact .split (State.splitJob_wf (eq_true_of_ne_false valid) (eq_true_of_ne_false fits))

theorem State.combineShares_runs (s : State) (dst : Nat) {ds : List Descriptor} (count : ds.length ≤ 254) :
    s.Runs .combine (s.combineShares dst ds) := by
  unfold State.combineShares
  dsimp only
  split
  · exact .failed _ _
  · split
    · exact .failed _ _
    · split
      · exact .failed _ _
      · rename_i fits _
        refine .combined (by simpa using count) ?_
        rw [length_combineBlock]
        exact eq_true_of_ne_false fits

theorem execCombine_runs {s t : State} (h : execCombine s = .next t) : s.Runs .combine t := by
  cases h
  dsimp only
  split
  · exact .failed _ _
  · rename_i count
    split
    · exact .failed _ _
    · split
      · exact .failed _ _
      · rename_i ds read
        have le : s.cfgK.toNat ≤ 254 := ((combineCountValid_iff _).mp (eq_true_of_ne_false count)).2
        exact s.combineShares_runs _ (State.length_of_readDescriptors read ▸ le)

theorem execSsplit_runs {s t : State} (h : execSsplit s = .next t) : s.Runs .ssplit t := by
  cases h
  split
  · exact .failed _ _
  · split
    · exact .failed _ _
    · rename_i valid block
      exact .ssplit (State.streamSplitJob_wf (eq_true_of_ne_false valid) (eq_true_of_ne_false block))

theorem execScomb_runs {s t : State} (h : execScomb s = .next t) : s.Runs .scomb t := by
  cases h
  split
  · exact .failed _ _
  · split
    · exact .failed _ _
    · rename_i count block
      exact .scomb (State.combJob_wf (eq_true_of_ne_false count) (eq_true_of_ne_false block))

theorem exec_runs {i : Instr} {s t : State} (h : exec i s = .next t) : s.Runs i t := by
  cases i with
  | nop => cases h; exact .nop
  | ldi rd imm => cases h; exact .wroteG rfl _
  | gadd rd ra rb => cases h; exact .wroteG rfl _
  | gmul rd ra rb => cases h; exact .wroteG rfl _
  | gdiv rd ra rb => cases h; exact s.writeField_runs rfl _
  | ginv rd ra => cases h; exact s.writeField_runs rfl _
  | pnew ra d => exact execPnew_runs h
  | pseti ra => exact execPseti_runs h
  | peval rd ra => exact execPeval_runs h
  | split => exact execSplit_runs h
  | combine => exact execCombine_runs h
  | ssplit => exact execSsplit_runs h
  | scomb => exact execScomb_runs h

end Sys2Proof.Machine
end

section
/-! The machine's invariant (`State.Inv`). `State.Running` is what it says of a unit that executes a command, apart from the point of the
FSM; every update a command makes keeps it, and ending or moving to a well-formed point gives the invariant back. -/

namespace Sys2Proof.Machine

/-- The part of the invariant that holds all through the execution of a command, between two points of the FSM too. -/
structure State.Running (s : State) : Prop where
  mem    : s.memOk
  done   : s.done = false
  err    : s.err = false
  codes  : s.errcode.toNat ≤ 9
  xcount : s.xcount.toNat ≤ 255
  pdeg   : s.pdeg.toNat ≤ 254

theorem ErrorKind.code_le (e : ErrorKind) : e.code.toNat ≤ 9 := by cases e <;> decide

theorem ErrorKind.code_ne_zero (e : ErrorKind) : e.code ≠ 0 := by cases e <;> decide

/-! ## MEM -/

theorem State.memOk.store {s : State} (h : s.memOk) {a : Nat} (lt : a < s.params.memBytes) (v : Byte) :
    (s.writeByte a v).memOk := by
  refine ⟨Memory.wf_store h.1 a v, fun c hc => ?_⟩
  obtain rfl | listed := Memory.mem_store hc
  · exact lt
  · exact h.2 c listed

theorem State.memOk.storeAll {s : State} (h : s.memOk) {a : Nat} {bytes : List Byte}
    (fits : inRange s.params a bytes.length = true) : (s.writeBytes a bytes).memOk := by
  refine ⟨Memory.wf_storeAll h.1 a bytes, fun c hc => ?_⟩
  obtain ⟨ge, lt⟩ | listed := Memory.mem_storeAll hc
  · have := (inRange_iff _ _ _).mp fits
    show c.1 < s.params.memBytes
    omega
  · exact h.2 c listed

/-- MEM stays in order when a transaction is carried out: a write reaches only bytes that exist (20_memory.md R83). -/
theorem State.memOk.carryOut {s : State} (h : s.memOk) (m : MemTxn) : (s.carryOut m).memOk := by
  obtain ⟨_, _, -, hs⟩ | ⟨_, v, -, lt, hs⟩ | ⟨_, _, -, -, hs⟩ := s.carryOut_cases m <;> rw [hs]
  · exact h
  · exact h.store lt v
  · exact h

/-! ## Updates that a running command makes -/

namespace State.Running

variable {s : State}

theorem log (h : s.Running) (t : Transaction) : (s.log t).Running := ⟨h.mem, h.done, h.err, h.codes, h.xcount, h.pdeg⟩

theorem setC (h : s.Running) (i : Nat) (v : Byte) : (s.setC i v).Running := ⟨h.mem, h.done, h.err, h.codes, h.xcount, h.pdeg⟩

theorem setG (h : s.Running) (i : Reg) (v : Byte) : (s.setG i v).Running := ⟨h.mem, h.done, h.err, h.codes, h.xcount, h.pdeg⟩

theorem setX (h : s.Running) (k : Nat) (v : Byte) : (s.setX k v).Running := ⟨h.mem, h.done, h.err, h.codes, h.xcount, h.pdeg⟩

theorem setRlen (h : s.Running) (v : Word) : (s.setRlen v).Running := ⟨h.mem, h.done, h.err, h.codes, h.xcount, h.pdeg⟩

theorem clearPvalid (h : s.Running) : s.clearPvalid.Running := ⟨h.mem, h.done, h.err, h.codes, h.xcount, h.pdeg⟩

theorem setXs (h : s.Running) (k : Nat) (bs : List Byte) : (s.setXs k bs).Running := by
  rw [s.setXs_fields]
  exact ⟨h.mem, h.done, h.err, h.codes, h.xcount, h.pdeg⟩

theorem setXcount (h : s.Running) {n : Nat} (le : n ≤ 255) : (s.setXcount n).Running :=
  ⟨h.mem, h.done, h.err, h.codes, by simp; omega, h.pdeg⟩

theorem writeBytes (h : s.Running) {a : Nat} {bytes : List Byte} (fits : inRange s.params a bytes.length = true) :
    (s.writeBytes a bytes).Running :=
  ⟨h.mem.storeAll fits, h.done, h.err, h.codes, h.xcount, h.pdeg⟩

theorem writeShares (h : s.Running) {a : Nat} {shares : List (List Byte)}
    (fits : inRange s.params a shares.flatten.length = true) : (s.writeShares a shares).Running := by
  rw [State.writeShares, Memory.storeShares_eq]
  exact h.writeBytes fits

/-! ## The two ways to end, and the move to the next point -/

theorem raise (h : s.Running) (e : ErrorKind) : (s.raise e).Inv where
  mem := h.mem
  oneEnd := by simp
  busyOpen := by simp [State.busy]
  codes := e.code_le
  errCode := fun _ => e.code_ne_zero
  doneCode := by simp
  xcount := h.xcount
  pdeg := h.pdeg
  fsm := trivial

theorem complete (h : s.Running) : s.complete.Inv where
  mem := h.mem
  oneEnd := by simp
  busyOpen := by simp [State.busy]
  codes := by simp
  errCode := by simp
  doneCode := fun _ => rfl
  xcount := h.xcount
  pdeg := h.pdeg
  fsm := trivial

theorem finishPoly (h : s.Running) (c0 : Byte) {d : Nat} (le : d ≤ 254) : (s.finishPoly c0 d).Inv := by
  have running : { s.setC 0 c0 with pdeg := BitVec.ofNat 8 d, pvalid := true }.Running :=
    ⟨h.mem, h.done, h.err, h.codes, h.xcount, by simp; omega⟩
  exact running.complete

theorem goto (h : s.Running) {f : Fsm} (wf : f.wf s.params) : (s.goto f).Inv where
  mem := h.mem
  oneEnd := by simp [h.done]
  busyOpen := fun _ => ⟨h.done, h.err⟩
  codes := h.codes
  errCode := by simp [h.err]
  doneCode := by simp [h.done]
  xcount := h.xcount
  pdeg := h.pdeg
  fsm := wf

end State.Running

namespace State.Inv

variable {s : State}

theorem running (h : s.Inv) (busy : s.busy = true) : s.Running :=
  ⟨h.mem, (h.busyOpen busy).1, (h.busyOpen busy).2, h.codes, h.xcount, h.pdeg⟩

theorem accept (h : s.Inv) (w : Word) : (s.accept w).Running := ⟨h.mem, rfl, rfl, h.codes, h.xcount, h.pdeg⟩

theorem withAgenda (h : s.Inv) (rest : List Event) : (s.withAgenda rest).Inv :=
  ⟨h.mem, h.oneEnd, h.busyOpen, h.codes, h.errCode, h.doneCode, h.xcount, h.pdeg, h.fsm⟩

/-- What both resets leave: the status bits, XCOUNT and PDEG at 0, the FSM idle. -/
theorem of_cleared (mem : s.memOk) (done : s.done = false := by rfl) (err : s.err = false := by rfl) (errcode : s.errcode = 0 := by rfl)
    (xcount : s.xcount = 0 := by rfl) (pdeg : s.pdeg = 0 := by rfl) (fsm : s.fsm = .idle := by rfl) : s.Inv where
  mem := mem
  oneEnd := by simp [done]
  busyOpen := fun _ => ⟨done, err⟩
  codes := by simp [errcode]
  errCode := by simp [err]
  doneCode := fun _ => errcode
  xcount := by simp [xcount]
  pdeg := by simp [pdeg]
  fsm := by rw [fsm]; trivial

theorem softReset (h : s.Inv) : s.softReset.Inv := .of_cleared h.mem

theorem hardReset (s : State) : s.hardReset.Inv := .of_cleared ⟨Memory.wf_reset, List.forall_mem_nil _⟩

theorem clearStatus (h : s.Inv) (w : Word) : (s.clearStatus w).Inv where
  mem := h.mem
  oneEnd := fun both => h.oneEnd ⟨(Bool.and_eq_true_iff.mp both.1).1, (Bool.and_eq_true_iff.mp both.2).1⟩
  busyOpen := fun busy => by simp [h.busyOpen busy]
  codes := h.codes
  errCode := fun err => h.errCode (Bool.and_eq_true_iff.mp err).1
  doneCode := fun done => h.doneCode (Bool.and_eq_true_iff.mp done).1
  xcount := h.xcount
  pdeg := h.pdeg
  fsm := h.fsm

end State.Inv

end Sys2Proof.Machine
end

section
/-! What the ports do to the unit without a command's help: reads, MEM transactions and dropped writes leave every register but OVR, and the
FSM, as they are (`State.SameRegisters`); a stored write changes the written register (`State.SameCommand`). -/

namespace Sys2Proof.Machine

/-- The FSM and the registers that a command leaves its results in, but for G, DONE and ERR, are the same; so are the parameters and
CMDCOUNT. For an update written out every field is `rfl`. -/
structure State.SameCommand (s t : State) : Prop where
  params   : t.params = s.params := by rfl
  pdeg     : t.pdeg = s.pdeg := by rfl
  pvalid   : t.pvalid = s.pvalid := by rfl
  x        : t.x = s.x := by rfl
  xcount   : t.xcount = s.xcount := by rfl
  errcode  : t.errcode = s.errcode := by rfl
  cmdcount : t.cmdcount = s.cmdcount := by rfl
  fsm      : t.fsm = s.fsm := by rfl

/-- And so are G, DONE and ERR. -/
structure State.SameRegisters (s t : State) : Prop extends s.SameCommand t where
  g    : t.g = s.g := by rfl
  done : t.done = s.done := by rfl
  err  : t.err = s.err := by rfl

theorem State.sameRegisters_hostRead (s : State) (off : BitVec 12) : s.SameRegisters (s.hostRead off) := by
  unfold State.hostRead State.countFree
  split
  · split <;> exact {}
  · exact {}

theorem State.sameRegisters_carryOut (s : State) (rest : List MemTxn) (m : MemTxn) :
    s.SameRegisters ((s.withHeld rest).carryOut m) := by
  obtain ⟨_, _, -, hs⟩ | ⟨_, _, -, -, hs⟩ | ⟨_, _, -, -, hs⟩ := (s.withHeld rest).carryOut_cases m <;> rw [hs] <;> exact {}

theorem State.sameRegisters_memAccess (s : State) (m : MemTxn) : s.SameRegisters (s.memAccess m) := by
  unfold State.memAccess
  split
  · exact {}
  · exact s.sameRegisters_carryOut s.heldMem m

theorem State.sameRegisters_releaseHeld (s : State) : s.SameRegisters s.releaseHeld := by
  obtain ⟨m, rest, -, -, hs⟩ | ⟨-, hs⟩ := s.releaseHeld_cases <;> rw [hs]
  · exact s.sameRegisters_carryOut rest m
  · exact {}

theorem State.sameCommand_storeReg (s : State) (w : Word) (r : RegName) : s.SameCommand (s.storeReg w r) := by
  cases r <;> exact {}

theorem State.storeReg_mem (s : State) (w : Word) (r : RegName) : (s.storeReg w r).mem = s.mem := by
  cases r <;> rfl

theorem State.storeReg_done_err_of_ne (s : State) (w : Word) {r : RegName} (notStatus : r ≠ .status) :
    (s.storeReg w r).done = s.done ∧ (s.storeReg w r).err = s.err := by
  cases r with
  | status => exact absurd rfl notStatus
  | _ => exact ⟨rfl, rfl⟩

end Sys2Proof.Machine
end

section
/-! Every step keeps the invariant: the events without a command, the acceptance, then each answer. -/

namespace Sys2Proof.Machine

theorem State.Inv.congr {s t : State} (h : s.Inv) (same : s.SameCommand t) (done : t.done = s.done) (err : t.err = s.err)
    (mem : t.memOk) : t.Inv where
  mem := mem
  oneEnd := by rw [done, err]; exact h.oneEnd
  busyOpen := by rw [State.busy, same.fsm, done, err]; exact h.busyOpen
  codes := same.errcode ▸ h.codes
  errCode := by rw [err, same.errcode]; exact h.errCode
  doneCode := by rw [done, same.errcode]; exact h.doneCode
  xcount := same.xcount ▸ h.xcount
  pdeg := same.pdeg ▸ h.pdeg
  fsm := by rw [same.fsm, same.params]; exact h.fsm

theorem State.Inv.of_sameRegisters {s t : State} (h : s.Inv) (same : s.SameRegisters t) (mem : t.memOk) : t.Inv :=
  h.congr same.toSameCommand same.done same.err mem

theorem State.memOk.hostRead {s : State} (h : s.memOk) (off : BitVec 12) : (s.hostRead off).memOk := by
  unfold State.hostRead State.countFree
  split
  · split <;> exact h
  · exact h

theorem State.memOk.memAccess {s : State} (h : s.memOk) (m : MemTxn) : (s.memAccess m).memOk := by
  unfold State.memAccess
  split
  · exact h
  · exact h.carryOut m

theorem State.memOk.releaseHeld {s : State} (h : s.memOk) : s.releaseHeld.memOk := by
  obtain ⟨m, rest, -, -, hs⟩ | ⟨-, hs⟩ := s.releaseHeld_cases <;> rw [hs]
  · exact State.memOk.carryOut (s := s.withHeld rest) h m
  · exact h

theorem State.Inv.storeReg {s : State} (h : s.Inv) (w : Word) (r : RegName) : (s.storeReg w r).Inv := by
  by_cases status : r = .status
  · subst status
    exact h.clearStatus w
  · have same := s.sameCommand_storeReg w r
    obtain ⟨done, err⟩ := s.storeReg_done_err_of_ne w status
    refine h.congr same done err ?_
    rw [State.memOk, s.storeReg_mem, same.params]
    exact h.mem

/-! ## Acceptance -/

/-- COMBINE's result: at most 254 coordinates, and the bytes within MEM (43_engine.md R217). -/
theorem State.Running.finishCombine {s : State} (h : s.Running) {dst : Nat} {xs out : List Byte} (count : xs.length ≤ 254)
    (fits : inRange s.params dst out.length = true) : (s.finishCombine dst xs out).Inv :=
  ((((h.writeBytes fits).setXs 0 xs).setXcount (by omega)).setRlen _).complete

theorem State.Running.startSampling {s : State} (h : s.Running) {job : SplitJob} (wf : job.wf s.params) :
    (s.startSampling job).Inv := by
  have ⟨ht, htn, _, _⟩ := wf
  exact (h.setXcount (by omega)).goto (f := .sampleDraw job []) ⟨wf, ⟨List.nodup_nil, List.not_mem_nil⟩, by show 0 < job.n; omega⟩

theorem State.Running.inv_of_runs {s t : State} {i : Instr} (h : s.Running) (runs : s.Runs i t) : t.Inv := by
  cases runs with
  | failed _ e => exact h.raise e
  | nop => exact h.complete
  | wroteG _ v => exact (h.setG _ v).complete
  | setIntercept ra => exact (h.setC 0 _).complete
  | constantPoly ra => exact h.clearPvalid.finishPoly _ (by omega)
  | drawsPoly ra pos le => exact h.clearPvalid.goto ⟨le_rfl, pos, le⟩
  | split wf => exact h.clearPvalid.startSampling wf
  | combined count fits => exact h.finishCombine count fits
  | ssplit wf => exact (h.clearPvalid.setRlen 0).startSampling wf
  | scomb wf => exact ((h.setRlen 0).setXcount (by omega)).goto ⟨wf, by have := wf.1; show 0 < s.combJob.k; omega⟩

/-! ## Answers on the entropy port -/

theorem State.Running.polyAnswer {s : State} (h : s.Running) {c0 : Byte} {d i : Nat} (wf : (Fsm.polyDraw c0 d i).wf s.params)
    (a : EntropyAnswer) : (s.polyAnswer c0 d i a).Inv := by
  obtain ⟨pos, le, max⟩ := wf
  cases a with
  | fail => exact h.raise .entropy
  | byte b =>
    simp only [State.polyAnswer]
    split
    · exact (h.setC i b).goto ⟨by omega, by omega, max⟩
    · exact (h.setC i b).finishPoly c0 max

/-- A block of `n` bytes is one that the split may share: the whole secret of SPLIT, or a chunk within SSPLIT's block size. -/
def SplitJob.room (job : SplitJob) (n : Nat) : Prop :=
  match job.target with
  | .mem _ secret => n = secret.length
  | .stream block => 1 ≤ n ∧ n ≤ block

theorem SplitJob.room_mem {job : SplitJob} {dst : Nat} {secret : List Byte} (h : job.target = .mem dst secret) (n : Nat) :
    job.room n ↔ n = secret.length := by
  simp [SplitJob.room, h]

theorem SplitJob.room_stream {job : SplitJob} {block : Nat} (h : job.target = .stream block) (n : Nat) :
    job.room n ↔ 1 ≤ n ∧ n ≤ block := by
  simp [SplitJob.room, h]

/-- The slices of a block that has been shared: one per coordinate, each as long as the block. -/
def slicesOk (count n : Nat) (ys : List (List Byte)) : Prop := ys.length = count ∧ ∀ y ∈ ys, y.length = n

/-- A share is its coordinate and its slice (43_engine.md R216). -/
theorem length_flatten_sharesOf {xs : List Byte} {ys : List (List Byte)} {n : Nat} (slices : slicesOk xs.length n ys) :
    (sharesOf xs ys).flatten.length = xs.length * (n + 1) := by
  obtain ⟨len, each⟩ := slices
  induction xs generalizing ys with
  | nil => simp [sharesOf]
  | cons x xs ih =>
    cases ys with
    | nil => simp at len
    | cons y ys =>
      have tail := ih (by simpa using len) fun z hz => each z (List.mem_cons_of_mem _ hz)
      have head := each y List.mem_cons_self
      simp only [sharesOf, List.zipWith_cons_cons, List.flatten_cons, List.length_append, List.length_cons] at tail ⊢
      rw [tail, head, Nat.add_mul, Nat.one_mul]
      omega

theorem State.Running.finishBlock {s : State} (h : s.Running) {job : SplitJob} {xs : List Byte} {n : Nat} {ys : List (List Byte)}
    (wf : job.wf s.params) (coords : coordinatesOk xs) (all : xs.length = job.n) (slices : slicesOk job.n n ys)
    (room : job.room n) : (s.finishBlock job xs n ys).Inv := by
  have ⟨ht, htn, hn, target⟩ := wf
  obtain ⟨dst, secret, hj, hs⟩ | ⟨block, hj, hs⟩ := s.finishBlock_cases job xs n ys <;> rw [hs]
  · rw [SplitJob.room_mem hj] at room
    rw [hj] at target
    have fits : inRange s.params dst (sharesOf xs ys).flatten.length = true := by
      rw [inRange_iff, length_flatten_sharesOf (all ▸ slices), all, room]
      exact .inr target
    exact ((h.writeShares fits).setRlen _).complete
  · obtain ⟨pos, le⟩ := (SplitJob.room_stream hj n).mp room
    exact h.goto ⟨wf, by simp [SplitJob.streams, hj], coords, all, by omega, slices.1, pos, by simpa [hj, SplitTarget.block] using le,
      slices.2⟩

theorem State.Running.startBlock {s : State} (h : s.Running) {job : SplitJob} {xs block : List Byte} (wf : job.wf s.params)
    (coords : coordinatesOk xs) (all : xs.length = job.n) (room : job.room block.length) : (s.startBlock job xs block).Inv := by
  obtain ⟨rfl, hs⟩ | ⟨nonempty, hs⟩ := s.startBlock_cases job xs block <;> rw [hs]
  · exact h.finishBlock wf coords all ⟨by simp, by simp⟩ room
  · have few : 0 < job.t - 1 := by have := wf.1; omega
    refine h.goto ⟨wf, coords, all, nonempty, few, by simp, by simp, ?_⟩
    cases hj : job.target with
    | mem dst secret => exact (SplitJob.room_mem hj _).mp room
    | stream size => exact ((SplitJob.room_stream hj _).mp room).2

theorem coordinatesOk.append {xs : List Byte} (h : coordinatesOk xs) {b : Byte} (fresh : ¬(b = 0 ∨ b ∈ xs)) :
    coordinatesOk (xs ++ [b]) := by
  obtain ⟨nonzero, new⟩ := not_or.mp fresh
  refine ⟨List.nodup_append_comm.mpr (List.nodup_cons.mpr ⟨new, h.1⟩), ?_⟩
  rw [List.mem_append, List.mem_singleton]
  exact not_or.mpr ⟨h.2, fun zero => nonzero zero.symm⟩

theorem State.Running.finishSampling {s : State} (h : s.Running) {job : SplitJob} {xs : List Byte} (wf : job.wf s.params)
    (coords : coordinatesOk xs) (all : xs.length = job.n) : (s.finishSampling job xs).Inv := by
  have ⟨ht, htn, hn, _⟩ := wf
  obtain ⟨dst, secret, hj, hs⟩ | ⟨block, hj, hs⟩ := s.finishSampling_cases job xs <;> rw [hs]
  · exact (h.setXcount hn).startBlock wf coords all ((SplitJob.room_mem hj _).mpr rfl)
  · exact (h.setXcount hn).goto ⟨wf, by simp [SplitJob.streams, hj], coords, all, by omega⟩

theorem State.Running.sampleAnswer {s : State} (h : s.Running) {job : SplitJob} {xs : List Byte}
    (wf : (Fsm.sampleDraw job xs).wf s.params) (a : EntropyAnswer) : (s.sampleAnswer job xs a).Inv := by
  have ⟨hj, coords, more⟩ := wf
  cases a with
  | fail => exact h.raise .entropy
  | byte b =>
    obtain ⟨-, hs⟩ | ⟨fresh, more', hs⟩ | ⟨fresh, last, hs⟩ := s.sampled_cases job xs b <;> rw [State.sampleAnswer, hs]
    · exact h.goto wf
    · exact (h.setX _ b).goto ⟨hj, coords.append fresh, more'⟩
    · have all : (xs ++ [b]).length = job.n := by
        rw [List.length_append, List.length_singleton] at last ⊢
        omega
      exact (h.setX _ b).finishSampling hj (coords.append fresh) all

theorem length_of_mem_appendColumn {poly : Poly} {xs coefs : List Byte} {ys : List (List Byte)} {b : Byte} {z : List Byte}
    (hz : z ∈ appendColumn poly xs coefs ys b) : ∃ y ∈ ys, z.length = y.length + 1 := by
  rw [appendColumn, ← List.map_uncurry_zip_eq_zipWith, List.mem_map] at hz
  obtain ⟨⟨y, x⟩, hyx, rfl⟩ := hz
  exact ⟨y, (List.of_mem_zip hyx).1, by simp [Function.uncurry]⟩

/-- The slices of a block in progress: appending a column shortens by one byte what each slice still lacks. -/
def slicesLack (count n left : Nat) (ys : List (List Byte)) : Prop := ys.length = count ∧ ∀ y ∈ ys, y.length + left = n

theorem slicesLack.appendColumn {xs : List Byte} {n left : Nat} {ys : List (List Byte)} (h : slicesLack xs.length n (left + 1) ys)
    (poly : Poly) (coefs : List Byte) (b : Byte) : slicesLack xs.length n left (appendColumn poly xs coefs ys b) := by
  refine ⟨by rw [length_appendColumn, h.1, min_self], fun z hz => ?_⟩
  obtain ⟨y, hy, len⟩ := length_of_mem_appendColumn hz
  have := h.2 y hy
  omega

theorem slicesLack.foldl_appendColumn {xs : List Byte} {n : Nat} (poly : Poly) (coefs todo : List Byte) {ys : List (List Byte)}
    (h : slicesLack xs.length n todo.length ys) : slicesOk xs.length n (todo.foldl (Machine.appendColumn poly xs coefs) ys) := by
  induction todo generalizing ys with
  | nil => exact h
  | cons b todo ih => exact ih (h.appendColumn poly coefs b)

/-- A block in progress has a byte left, so it is one the split may share. -/
theorem Fsm.room_of_wf_coefDraw {p : Params} {job : SplitJob} {xs : List Byte} {sh : Sharing} (wf : (Fsm.coefDraw job xs sh).wf p) :
    job.room sh.n := by
  obtain ⟨⟨ht, htn, -, -⟩, -, -, nonempty, -, len, each, room⟩ := wf
  cases hj : job.target with
  | mem dst secret =>
    rw [hj] at room
    exact (SplitJob.room_mem hj _).mpr room
  | stream block =>
    rw [hj] at room
    obtain ⟨y, hy⟩ := List.exists_mem_of_length_pos (show 0 < sh.ys.length by omega)
    have left : 0 < sh.todo.length := List.length_pos_iff.mpr nonempty
    have := each y hy
    exact (SplitJob.room_stream hj _).mpr ⟨by omega, room⟩

theorem State.Running.coefAnswer {s : State} (h : s.Running) {job : SplitJob} {xs : List Byte} {sh : Sharing}
    (wf : (Fsm.coefDraw job xs sh).wf s.params) (a : EntropyAnswer) : (s.coefAnswer job xs sh a).Inv := by
  have room := Fsm.room_of_wf_coefDraw wf
  obtain ⟨hj, coords, all, nonempty, -, len, each, target⟩ := wf
  have lack : slicesLack xs.length sh.n sh.todo.length sh.ys := ⟨len.trans all.symm, each⟩
  have left : sh.todo.length = sh.todo.tail.length + 1 := by
    rw [List.length_tail]
    have := List.length_pos_iff.mpr nonempty
    omega
  cases a with
  | fail => exact h.raise .entropy
  | byte b =>
    have column := (left ▸ lack).appendColumn s.params.poly (sh.coefs ++ [b]) (sh.todo.headD 0)
    obtain ⟨more, hs⟩ | ⟨-, -, next, hs⟩ | ⟨-, -, last, hs⟩ | ⟨-, -, hs⟩ := s.coefDrawn_cases job xs sh b <;>
      rw [State.coefAnswer, hs]
    · exact h.goto ⟨hj, coords, all, nonempty, more, len, each, target⟩
    · have few : 0 < job.t - 1 := by have := hj.1; omega
      exact h.goto ⟨hj, coords, all, next, few, column.1.trans all, column.2, target⟩
    · rw [last] at column
      exact h.finishBlock hj coords all (all ▸ column) room
    · exact h.finishBlock hj coords all (all ▸ lack.foldl_appendColumn s.params.poly (sh.coefs ++ [b]) sh.todo) room

end Sys2Proof.Machine
end

section
/-! Every step keeps the invariant: the answers on the stream port, and the step. -/

namespace Sys2Proof.Machine

theorem legalChunk_iff (max : Nat) (bytes : List Byte) : legalChunk max bytes = true ↔ 1 ≤ bytes.length ∧ bytes.length ≤ max := by
  simp [legalChunk]

namespace State.Running

variable {s : State}

/-! ## SSPLIT -/

theorem headerWritten (h : s.Running) {job : SplitJob} {xs : List Byte} {k : Nat} (wf : (Fsm.headerWrite job xs k).wf s.params)
    (a : StreamAnswer) : (s.headerWritten job xs k a).Inv := by
  obtain ⟨hj, streams, coords, all, -⟩ := wf
  cases a with
  | ok =>
    simp only [State.headerWritten]
    split
    · exact h.goto ⟨hj, streams, coords, all, ‹_›⟩
    · exact h.goto ⟨hj, streams, coords, all⟩
  | _ => exact h.raise .io

theorem chunkArrived (h : s.Running) {job : SplitJob} {xs : List Byte} (wf : (Fsm.chunkRead job xs).wf s.params)
    (a : StreamAnswer) : (s.chunkArrived job xs a).Inv := by
  obtain ⟨hj, streams, coords, all⟩ := wf
  cases a with
  | eof => exact h.complete
  | chunk bytes =>
    simp only [State.chunkArrived]
    split
    · rename_i legal
      refine h.startBlock hj coords all ?_
      cases ht : job.target with
      | mem dst secret => simp [SplitJob.streams, ht] at streams
      | stream block =>
        rw [SplitJob.room_stream ht]
        simpa [ht, SplitTarget.block] using (legalChunk_iff _ _).mp legal
    · exact h.raise .io
  | _ => exact h.raise .io

theorem sliceWritten (h : s.Running) {job : SplitJob} {xs : List Byte} {n : Nat} {ys : List (List Byte)} {k : Nat}
    (wf : (Fsm.sliceWrite job xs n ys k).wf s.params) (a : StreamAnswer) : (s.sliceWritten job xs n ys k a).Inv := by
  obtain ⟨hj, streams, coords, all, -, slices⟩ := wf
  cases a with
  | ok =>
    simp only [State.sliceWritten]
    split
    · exact h.goto ⟨hj, streams, coords, all, ‹_›, slices⟩
    · exact (h.setRlen _).goto ⟨hj, streams, coords, all⟩
  | _ => exact h.raise .io

/-! ## SCOMB -/

theorem headerArrived (h : s.Running) {job : CombJob} {xs : List Byte} (wf : (Fsm.headerRead job xs).wf s.params)
    (a : StreamAnswer) : (s.headerArrived job xs a).Inv := by
  obtain ⟨hj, more⟩ := wf
  unfold State.headerArrived
  split
  · rename_i b
    dsimp only
    have stored := h.setX xs.length b
    split
    · exact stored.goto ⟨hj, ‹_›⟩
    · rename_i last
      have le : job.k ≤ 255 := by have := hj.2.1; omega
      split
      · exact (stored.setXcount le).raise .arithmetic
      · rename_i distinct
        have all : (xs ++ [b]).length = job.k := by
          rw [List.length_append, List.length_singleton] at last ⊢
          omega
        have nodup := (hasDuplicate_eq_false_iff _).mp (eq_false_of_ne_true distinct)
        exact (stored.setXcount le).goto ⟨hj, nodup, all, by show 0 < job.k; omega, by simp⟩
  all_goals exact h.raise .io

theorem leaderEnded (h : s.Running) {job : CombJob} (hj : job.wf s.params) : (s.leaderEnded job).Inv := by
  unfold State.leaderEnded
  split
  · exact h.complete
  · rename_i symmetric
    exact h.goto ⟨hj, symmetric, le_rfl, by have := hj.1; omega⟩

/-- The chunks of a round so far: as long as the first one, and legal. -/
theorem chunks_append {block : Nat} {chunks : List (List Byte)} {bytes : List Byte}
    (each : ∀ c ∈ chunks, c.length = (chunks.headD []).length ∧ 1 ≤ c.length ∧ c.length ≤ block)
    (legal : 1 ≤ bytes.length ∧ bytes.length ≤ block) (same : bytes.length = (chunks.headD bytes).length) :
    ∀ c ∈ chunks ++ [bytes], c.length = ((chunks ++ [bytes]).headD []).length ∧ 1 ≤ c.length ∧ c.length ≤ block := by
  cases chunks with
  | nil => simpa using legal
  | cons first rest =>
    intro c hc
    rw [List.mem_append, List.mem_singleton] at hc
    obtain old | rfl := hc
    · exact each c old
    · exact ⟨same, legal⟩

theorem chunkTaken (h : s.Running) {job : CombJob} {xs : List Byte} {chunks : List (List Byte)} (hj : job.wf s.params)
    (nodup : xs.Nodup) (all : xs.length = job.k) (nonempty : chunks ≠ [])
    (each : ∀ c ∈ chunks, c.length = (chunks.headD []).length ∧ 1 ≤ c.length ∧ c.length ≤ job.block) :
    (s.chunkTaken job xs chunks).Inv := by
  obtain ⟨more, hs⟩ | ⟨-, hs⟩ := s.chunkTaken_cases job xs chunks <;> rw [hs]
  · exact h.goto ⟨hj, nodup, all, more, each⟩
  · have first : chunks.headD [] ∈ chunks := by
      cases chunks with
      | nil => exact absurd rfl nonempty
      | cons c cs => exact List.mem_cons_self
    obtain ⟨-, pos, le⟩ := each _ first
    exact h.goto ⟨hj, nodup, all, by rwa [length_combineBlock], by rwa [length_combineBlock]⟩

theorem partArrived (h : s.Running) {job : CombJob} {xs : List Byte} {chunks : List (List Byte)}
    (wf : (Fsm.partRead job xs chunks).wf s.params) (a : StreamAnswer) : (s.partArrived job xs chunks a).Inv := by
  obtain ⟨hj, nodup, all, -, each⟩ := wf
  cases a with
  | eof =>
    cases chunks with
    | nil => exact h.leaderEnded hj
    | cons c cs => exact h.raise .prematureEof
  | chunk bytes =>
    simp only [State.partArrived]
    split
    · exact h.raise .io
    · rename_i legal
      split
      · exact h.raise .sizeMismatch
      · rename_i same
        exact h.chunkTaken hj nodup all (by simp)
          (chunks_append each ((legalChunk_iff _ _).mp (eq_true_of_ne_false legal)) (not_ne_iff.mp same))
  | _ => exact h.raise .io

theorem endArrived (h : s.Running) {job : CombJob} {k : Nat} (wf : (Fsm.endRead job k).wf s.params) (a : StreamAnswer) :
    (s.endArrived job k a).Inv := by
  obtain ⟨hj, symmetric, pos, -⟩ := wf
  cases a with
  | eof =>
    simp only [State.endArrived]
    split
    · exact h.goto ⟨hj, symmetric, by omega, ‹_›⟩
    · exact h.complete
  | chunk bytes =>
    simp only [State.endArrived]
    split
    · exact h.raise .prematureEof
    · exact h.raise .io
  | _ => exact h.raise .io

theorem mainWritten (h : s.Running) {job : CombJob} {xs out : List Byte} (wf : (Fsm.mainWrite job xs out).wf s.params)
    (a : StreamAnswer) : (s.mainWritten job xs out a).Inv := by
  obtain ⟨hj, nodup, all, -⟩ := wf
  cases a with
  | ok =>
    have pos : 0 < job.k := by have := hj.1; omega
    exact (h.setRlen _).goto ⟨hj, nodup, all, pos, by simp⟩
  | _ => exact h.raise .io

end State.Running

/-! ## The step -/

/-- A stream-port answer is recorded and taken, or ignored where no stream request is outstanding. -/
theorem State.streamAnswer_cases (s : State) (a : StreamAnswer) :
    (∃ r, s.request = some (.stream r) ∧ s.streamAnswer a = (s.log (.stream r a)).streamResponse a) ∨ s.streamAnswer a = s := by
  unfold State.streamAnswer
  split
  · exact .inl ⟨_, ‹_›, rfl⟩
  · exact .inr rfl
  · exact .inr rfl

namespace State.Inv

variable {s : State}

theorem running_of_waits (h : s.Inv) {f : Fsm} (point : s.fsm = f) (waits : f ≠ .idle) : s.Running ∧ f.wf s.params :=
  ⟨h.running (by simp [State.busy, point, waits]), point ▸ h.fsm⟩

theorem log (h : s.Inv) (t : Transaction) : (s.log t).Inv := h.of_sameRegisters {} h.mem

theorem entropyAnswer (h : s.Inv) (a : EntropyAnswer) : (s.entropyAnswer a).Inv := by
  unfold State.entropyAnswer
  cases point : s.fsm with
  | polyDraw c0 d i =>
    obtain ⟨running, wf⟩ := h.running_of_waits point (by simp)
    exact (running.log _).polyAnswer wf a
  | sampleDraw job xs =>
    obtain ⟨running, wf⟩ := h.running_of_waits point (by simp)
    exact (running.log _).sampleAnswer wf a
  | coefDraw job xs sh =>
    obtain ⟨running, wf⟩ := h.running_of_waits point (by simp)
    exact (running.log _).coefAnswer wf a
  | _ => exact h

theorem streamResponse (h : s.Inv) (a : StreamAnswer) : (s.streamResponse a).Inv := by
  unfold State.streamResponse
  cases point : s.fsm with
  | headerWrite job xs k =>
    obtain ⟨running, wf⟩ := h.running_of_waits point (by simp)
    exact running.headerWritten wf a
  | chunkRead job xs =>
    obtain ⟨running, wf⟩ := h.running_of_waits point (by simp)
    exact running.chunkArrived wf a
  | sliceWrite job xs n ys k =>
    obtain ⟨running, wf⟩ := h.running_of_waits point (by simp)
    exact running.sliceWritten wf a
  | headerRead job xs =>
    obtain ⟨running, wf⟩ := h.running_of_waits point (by simp)
    exact running.headerArrived wf a
  | partRead job xs chunks =>
    obtain ⟨running, wf⟩ := h.running_of_waits point (by simp)
    exact running.partArrived wf a
  | endRead job k =>
    obtain ⟨running, wf⟩ := h.running_of_waits point (by simp)
    exact running.endArrived wf a
  | mainWrite job xs out =>
    obtain ⟨running, wf⟩ := h.running_of_waits point (by simp)
    exact running.mainWritten wf a
  | _ => exact h

theorem streamAnswer (h : s.Inv) (a : StreamAnswer) : (s.streamAnswer a).Inv := by
  obtain ⟨r, -, hs⟩ | hs := s.streamAnswer_cases a <;> rw [hs]
  · exact (h.log _).streamResponse a
  · exact h

theorem handled (h : s.Inv) {e : Event} {t : State} (ht : s.Handled e t) : t.Inv := by
  cases ht with
  | hardReset => exact hardReset s
  | softReset => exact h.softReset
  | dropped => exact h.of_sameRegisters {} h.mem
  | command _ _ _ run => exact (h.accept _).inv_of_runs (exec_runs run)
  | illegal => exact (h.accept _).raise .illegalCommand
  | stored => exact h.storeReg _ _
  | read off => exact h.of_sameRegisters (s.sameRegisters_hostRead off) (h.mem.hostRead off)
  | memPort m => exact h.of_sameRegisters (s.sameRegisters_memAccess m) (h.mem.memAccess m)
  | entropy a => exact h.entropyAnswer a
  | stream a => exact h.streamAnswer a
  | lateEntropy a => exact h
  | lateStream a => exact h
  | memStep => exact h.of_sameRegisters s.sameRegisters_releaseHeld h.mem.releaseHeld

theorem step {t : State} (h : s.Inv) (ht : step s = .next t) : t.Inv := by
  obtain ⟨e, rest, -, handled⟩ | ⟨m, rest, rfl⟩ | rfl := step_next_cases ht
  · exact (h.withAgenda rest).handled handled
  · exact h.of_sameRegisters (s.sameRegisters_carryOut rest m) (State.memOk.carryOut (s := s.withHeld rest) h.mem m)
  · exact h

end State.Inv

/-- Settles O26: `State.Inv.step`, by the kind of event and, for an answer, by the point of the FSM that takes it. -/
theorem everyStepKeepsTheInvariant : Obligations.EveryStepKeepsTheInvariant := fun _ _ h ht => h.step ht

/-- Settles O25: the reset state is a cleared one, with MEM empty. -/
theorem resetMeetsTheInvariant : Obligations.ResetMeetsTheInvariant := .of_cleared ⟨Memory.wf_reset, List.forall_mem_nil _⟩

end Sys2Proof.Machine
end

section
/-! What an acceptance and an answer leave unchanged, and what they do with PVALID, the coordinates and the coordinate table. -/

namespace Sys2Proof.Machine

theorem State.params_cmdcount_of_runs {s t : State} {i : Instr} (runs : s.Runs i t) :
    t.params = s.params ∧ t.cmdcount = s.cmdcount := by
  cases runs with
  | combined => exact ⟨by simp [State.finishCombine], by simp [State.finishCombine]⟩
  | _ => exact ⟨rfl, rfl⟩

/-- A command writes no G register but its destination (10_state.md R32). -/
theorem State.getG_of_runs {s t : State} {i : Instr} (runs : s.Runs i t) {r : Reg} (other : destOf i ≠ some r) :
    t.getG r = s.getG r := by
  cases runs with
  | wroteG dest v => exact s.getG_setG_of_ne _ r v fun same => other (same ▸ dest)
  | combined => exact State.getG_congr (by simp [State.finishCombine]) r
  | _ => rfl

/-- A command that waits has no coordinates yet, and one that works with secrets has cleared PVALID (10_state.md R54). -/
theorem State.fsm_of_runs {s t : State} {i : Instr} (runs : s.Runs i t) :
    t.fsm.coordinates = [] ∧ (t.fsm.clearsPvalid = true → t.pvalid = false) := by
  cases runs with
  | drawsPoly | split | ssplit => exact ⟨rfl, fun _ => rfl⟩
  | _ => exact ⟨rfl, nofun⟩

/-- `t` goes on from the point `f` in `s`: G, the parameters and CMDCOUNT are the same; if PNEW, SPLIT or SSPLIT still executes, it did
so before and PVALID is the same; and the command holds no coordinates any more, or those of `f`, with the same table. -/
structure State.Continues (s : State) (f : Fsm) (t : State) : Prop where
  params      : t.params = s.params
  cmdcount    : t.cmdcount = s.cmdcount
  g           : t.g = s.g
  pvalid      : t.fsm.clearsPvalid = true → f.clearsPvalid = true ∧ t.pvalid = s.pvalid
  coordinates : t.fsm.coordinates = [] ∨ t.fsm.coordinates = f.coordinates ∧ t.x = s.x

namespace State.Continues

variable {s t u : State} {f : Fsm}

/-- The command has ended, or needs neither secrets nor coordinates any more. -/
theorem ended (clears : t.fsm.clearsPvalid = false := by rfl) (coords : t.fsm.coordinates = [] := by rfl)
    (params : t.params = s.params := by rfl) (cmdcount : t.cmdcount = s.cmdcount := by rfl) (g : t.g = s.g := by rfl) :
    s.Continues f t :=
  ⟨params, cmdcount, g, fun c => by simp [clears] at c, .inl coords⟩

/-- The command waits at another point with the same coordinates. -/
theorem waits (clears : t.fsm.clearsPvalid = f.clearsPvalid := by rfl) (coords : t.fsm.coordinates = f.coordinates := by rfl)
    (params : t.params = s.params := by rfl) (cmdcount : t.cmdcount = s.cmdcount := by rfl) (g : t.g = s.g := by rfl)
    (pvalid : t.pvalid = s.pvalid := by rfl) (x : t.x = s.x := by rfl) : s.Continues f t :=
  ⟨params, cmdcount, g, fun c => ⟨clears ▸ c, pvalid⟩, .inr ⟨coords, x⟩⟩

theorem of_same (h : u.Continues f t) (params : u.params = s.params := by rfl) (cmdcount : u.cmdcount = s.cmdcount := by rfl)
    (g : u.g = s.g := by rfl) (pvalid : u.pvalid = s.pvalid := by rfl) (x : u.x = s.x := by rfl) : s.Continues f t :=
  ⟨h.params.trans params, h.cmdcount.trans cmdcount, h.g.trans g, fun c => (h.pvalid c).imp_right (·.trans pvalid),
    h.coordinates.imp_right fun same => same.imp_right (·.trans x)⟩

end State.Continues

section

variable (s : State) {f : Fsm}

theorem State.continues_polyAnswer (c0 : Byte) (d i : Nat) (a : EntropyAnswer) :
    s.Continues (.polyDraw c0 d i) (s.polyAnswer c0 d i a) := by
  cases a with
  | fail => exact .ended
  | byte b =>
    simp only [State.polyAnswer]
    split
    · exact .waits
    · exact .ended

theorem State.continues_finishBlock {job : SplitJob} {xs : List Byte} (clears : f.clearsPvalid = true) (coords : f.coordinates = xs)
    (n : Nat) (ys : List (List Byte)) : s.Continues f (s.finishBlock job xs n ys) := by
  obtain ⟨_, _, -, hs⟩ | ⟨_, -, hs⟩ := s.finishBlock_cases job xs n ys <;> rw [hs]
  · exact .ended
  · exact .waits clears.symm coords.symm

theorem State.continues_startBlock {job : SplitJob} {xs : List Byte} (clears : f.clearsPvalid = true) (coords : f.coordinates = xs)
    (block : List Byte) : s.Continues f (s.startBlock job xs block) := by
  obtain ⟨-, hs⟩ | ⟨-, hs⟩ := s.startBlock_cases job xs block <;> rw [hs]
  · exact s.continues_finishBlock clears coords 0 _
  · exact .waits clears.symm coords.symm

theorem State.continues_coefAnswer (job : SplitJob) (xs : List Byte) (sh : Sharing) (a : EntropyAnswer) :
    s.Continues (.coefDraw job xs sh) (s.coefAnswer job xs sh a) := by
  cases a with
  | fail => exact .ended
  | byte b =>
    obtain ⟨-, hs⟩ | ⟨-, -, -, hs⟩ | ⟨-, -, -, hs⟩ | ⟨-, -, hs⟩ := s.coefDrawn_cases job xs sh b <;> rw [State.coefAnswer, hs]
    · exact .waits
    · exact .waits
    · exact s.continues_finishBlock rfl rfl _ _
    · exact s.continues_finishBlock rfl rfl _ _

theorem State.continues_finishSampling (job : SplitJob) (xs : List Byte) :
    s.Continues (.sampleDraw job xs) (s.finishSampling job xs) := by
  obtain ⟨_, secret, -, hs⟩ | ⟨_, -, hs⟩ := s.finishSampling_cases job xs <;> rw [hs]
  · exact ((s.setXcount job.n).continues_startBlock rfl rfl secret).of_same
  · exact .waits

theorem State.continues_headerWritten (job : SplitJob) (xs : List Byte) (k : Nat) (a : StreamAnswer) :
    s.Continues (.headerWrite job xs k) (s.headerWritten job xs k a) := by
  cases a with
  | ok =>
    simp only [State.headerWritten]
    split <;> exact .waits
  | _ => exact .ended

theorem State.continues_chunkArrived (job : SplitJob) (xs : List Byte) (a : StreamAnswer) :
    s.Continues (.chunkRead job xs) (s.chunkArrived job xs a) := by
  cases a with
  | chunk bytes =>
    simp only [State.chunkArrived]
    split
    · exact s.continues_startBlock rfl rfl bytes
    · exact .ended
  | _ => exact .ended

theorem State.continues_sliceWritten (job : SplitJob) (xs : List Byte) (n : Nat) (ys : List (List Byte)) (k : Nat) (a : StreamAnswer) :
    s.Continues (.sliceWrite job xs n ys k) (s.sliceWritten job xs n ys k a) := by
  cases a with
  | ok =>
    simp only [State.sliceWritten]
    split <;> exact .waits
  | _ => exact .ended

theorem State.continues_partArrived (job : CombJob) (xs : List Byte) (chunks : List (List Byte)) (a : StreamAnswer) :
    s.Continues (.partRead job xs chunks) (s.partArrived job xs chunks a) := by
  cases a with
  | eof =>
    simp only [State.partArrived]
    split
    · unfold State.leaderEnded
      split <;> exact .ended
    · exact .ended
  | chunk bytes =>
    simp only [State.partArrived]
    split
    · exact .ended
    · split
      · exact .ended
      · unfold State.chunkTaken
        split <;> exact .waits
  | _ => exact .ended

theorem State.continues_endArrived (job : CombJob) (k : Nat) (a : StreamAnswer) :
    s.Continues (.endRead job k) (s.endArrived job k a) := by
  cases a with
  | eof | chunk =>
    simp only [State.endArrived]
    split <;> exact .ended
  | _ => exact .ended

theorem State.continues_mainWritten (job : CombJob) (xs out : List Byte) (a : StreamAnswer) :
    s.Continues (.mainWrite job xs out) (s.mainWritten job xs out a) := by
  cases a with
  | ok => exact .waits
  | _ => exact .ended

end

/-- What an answer leads to: the command goes on from its point, or first takes one more coordinate into the table. -/
def State.Answered (s t : State) : Prop :=
  s.Continues s.fsm t ∨
    ∃ b f, f.clearsPvalid = s.fsm.clearsPvalid ∧ f.coordinates = s.fsm.coordinates ++ [b] ∧
      (s.setX s.fsm.coordinates.length b).Continues f t

namespace State.Answered

variable {s t : State}

theorem of_continues {f : Fsm} (point : s.fsm = f) (h : s.Continues f t) : s.Answered t := .inl (point ▸ h)

theorem of_setX {f f' : Fsm} {b : Byte} (point : s.fsm = f) (clears : f'.clearsPvalid = f.clearsPvalid)
    (coords : f'.coordinates = f.coordinates ++ [b]) (h : (s.setX f.coordinates.length b).Continues f' t) : s.Answered t := by
  subst point
  exact .inr ⟨b, f', clears, coords, h⟩

theorem of_log {a : Transaction} (h : (s.log a).Answered t) : s.Answered t :=
  h.imp (·.of_same) fun ⟨b, f, clears, coords, step⟩ => ⟨b, f, clears, coords, step.of_same⟩

theorem refl (s : State) : s.Answered s := .inl .waits

theorem params (h : s.Answered t) : t.params = s.params := by
  obtain h | ⟨b, f, -, -, h⟩ := h <;> exact h.params

theorem cmdcount (h : s.Answered t) : t.cmdcount = s.cmdcount := by
  obtain h | ⟨b, f, -, -, h⟩ := h <;> exact h.cmdcount

theorem g (h : s.Answered t) : t.g = s.g := by
  obtain h | ⟨b, f, -, -, h⟩ := h <;> exact h.g

theorem pvalid (h : s.Answered t) (clears : t.fsm.clearsPvalid = true) : s.fsm.clearsPvalid = true ∧ t.pvalid = s.pvalid := by
  obtain h | ⟨b, f, same, -, h⟩ := h
  · exact h.pvalid clears
  · exact same ▸ h.pvalid clears

end State.Answered

theorem State.answered_sampleAnswer {s : State} {job : SplitJob} {xs : List Byte} (point : s.fsm = .sampleDraw job xs)
    (a : EntropyAnswer) : s.Answered (s.sampleAnswer job xs a) := by
  cases a with
  | fail => exact .of_continues point .ended
  | byte b =>
    obtain ⟨-, hs⟩ | ⟨-, -, hs⟩ | ⟨-, -, hs⟩ := s.sampled_cases job xs b <;> rw [State.sampleAnswer, hs]
    · exact .of_continues point .waits
    · exact .of_setX (f' := .sampleDraw job (xs ++ [b])) point rfl rfl .waits
    · exact .of_setX (f' := .sampleDraw job (xs ++ [b])) point rfl rfl ((s.setX xs.length b).continues_finishSampling job (xs ++ [b]))

theorem State.answered_headerArrived {s : State} {job : CombJob} {xs : List Byte} (point : s.fsm = .headerRead job xs)
    (a : StreamAnswer) : s.Answered (s.headerArrived job xs a) := by
  unfold State.headerArrived
  split
  · rename_i b
    refine .of_setX (f' := .headerRead job (xs ++ [b])) point rfl rfl ?_
    dsimp only
    split
    · exact .waits
    · split
      · exact .ended
      · exact .waits
  all_goals exact .of_continues point .ended

theorem State.answered_entropyAnswer (s : State) (a : EntropyAnswer) : s.Answered (s.entropyAnswer a) := by
  unfold State.entropyAnswer
  cases point : s.fsm with
  | polyDraw c0 d i => exact .of_log (.of_continues point ((s.log _).continues_polyAnswer c0 d i a))
  | sampleDraw job xs => exact .of_log (State.answered_sampleAnswer (s := s.log _) point a)
  | coefDraw job xs sh => exact .of_log (.of_continues point ((s.log _).continues_coefAnswer job xs sh a))
  | _ => exact .refl s

theorem State.answered_streamResponse (s : State) (a : StreamAnswer) : s.Answered (s.streamResponse a) := by
  unfold State.streamResponse
  cases point : s.fsm with
  | headerWrite job xs k => exact .of_continues point (s.continues_headerWritten job xs k a)
  | chunkRead job xs => exact .of_continues point (s.continues_chunkArrived job xs a)
  | sliceWrite job xs n ys k => exact .of_continues point (s.continues_sliceWritten job xs n ys k a)
  | headerRead job xs => exact State.answered_headerArrived point a
  | partRead job xs chunks => exact .of_continues point (s.continues_partArrived job xs chunks a)
  | endRead job k => exact .of_continues point (s.continues_endArrived job k a)
  | mainWrite job xs out => exact .of_continues point (s.continues_mainWritten job xs out a)
  | _ => exact .refl s

theorem State.answered_streamAnswer (s : State) (a : StreamAnswer) : s.Answered (s.streamAnswer a) := by
  obtain ⟨r, -, hs⟩ | hs := s.streamAnswer_cases a <;> rw [hs]
  · exact .of_log (State.answered_streamResponse (s.log _) a)
  · exact .refl s

end Sys2Proof.Machine
end

section
/-! What a step keeps besides the invariant: the parameters, CMDCOUNT but for acceptances and resets, G but for its writers, PVALID clear
while secrets are in use, and the coordinate table in line with the executing command. -/

namespace Sys2Proof.Machine

theorem State.Handled.params {s t : State} {e : Event} (h : s.Handled e t) : t.params = s.params := by
  cases h with
  | command _ _ _ run => exact (State.params_cmdcount_of_runs (exec_runs run)).1
  | stored => exact (s.sameCommand_storeReg _ _).params
  | read off => exact (s.sameRegisters_hostRead off).params
  | memPort m => exact (s.sameRegisters_memAccess m).params
  | entropy a => exact (s.answered_entropyAnswer a).params
  | stream a => exact (s.answered_streamAnswer a).params
  | memStep => exact s.sameRegisters_releaseHeld.params
  | _ => rfl

/-- Settles O15: no event changes the parameters. -/
theorem noStepChangesTheParameters : Obligations.NoStepChangesTheParameters := by
  intro s t h
  obtain ⟨e, rest, -, handled⟩ | ⟨m, rest, rfl⟩ | rfl := step_next_cases h
  · exact handled.params
  · exact (s.sameRegisters_carryOut rest m).params
  · rfl

/-- Settles O7: by what the event leads to; acceptance counts, the resets clear, nothing else reaches CMDCOUNT. -/
theorem cmdcountCountsAcceptedWords : Obligations.CmdcountCountsAcceptedWords := by
  intro s t e rest next h
  rw [step_of_event next.1 next.2] at h
  have busy : (s.withAgenda rest).busy = s.busy := rfl
  cases State.handled_of_handle h with
  | hardReset => rfl
  | softReset ctrl srst => simp [ctrl, srst]
  | dropped noReset hb =>
    rw [busy] at hb
    simp only [if_neg noReset, hb, if_true, ite_self, State.dropWrite_cmdcount, State.withAgenda_cmdcount]
  | command cmd idle _ run =>
    rw [busy] at idle
    simp [cmd, idle, (State.params_cmdcount_of_runs (exec_runs run)).2]
  | illegal cmd idle =>
    rw [busy] at idle
    simp [cmd, idle]
  | stored notCmd noReset =>
    simp only [if_neg notCmd, if_neg noReset, ((s.withAgenda rest).sameCommand_storeReg _ _).cmdcount, State.withAgenda_cmdcount]
  | read off => exact ((s.withAgenda rest).sameRegisters_hostRead off).cmdcount
  | memPort m => exact ((s.withAgenda rest).sameRegisters_memAccess m).cmdcount
  | entropy a => exact ((s.withAgenda rest).answered_entropyAnswer a).cmdcount
  | stream a => exact ((s.withAgenda rest).answered_streamAnswer a).cmdcount
  | lateEntropy a => rfl
  | lateStream a => rfl
  | memStep => exact (s.withAgenda rest).sameRegisters_releaseHeld.cmdcount

/-- The events that can change G[r] (10_state.md R32, R49). -/
def Event.writesG (r : Reg) : Event → Prop
  | .rst => True
  | .regWrite off w => regAt off = .g r ∨ regAt off = .cmd ∧ ∃ i, decode w = .ok i ∧ destOf i = some r
  | _ => False

theorem State.getG_storeReg_of_ne (s : State) (w : Word) {reg : RegName} {r : Reg} (other : reg ≠ .g r) :
    (s.storeReg w reg).getG r = s.getG r := by
  cases reg with
  | g i => exact s.getG_setG_of_ne i r _ fun same => other (same ▸ rfl)
  | _ => rfl

theorem State.Handled.writesG_of_getG_ne {s t : State} {e : Event} (h : s.Handled e t) {r : Reg} (changed : t.getG r ≠ s.getG r) :
    e.writesG r := by
  have of_g : t.g = s.g → e.writesG r := fun same => absurd (State.getG_congr same r) changed
  cases h with
  | hardReset => trivial
  | command cmd _ decoded run =>
    refine .inr ⟨cmd, _, decoded, ?_⟩
    by_contra other
    exact changed (State.getG_of_runs (exec_runs run) other)
  | stored =>
    refine .inl ?_
    by_contra other
    exact changed (s.getG_storeReg_of_ne _ other)
  | read off => exact of_g (s.sameRegisters_hostRead off).g
  | memPort m => exact of_g (s.sameRegisters_memAccess m).g
  | entropy a => exact of_g (s.answered_entropyAnswer a).g
  | stream a => exact of_g (s.answered_streamAnswer a).g
  | memStep => exact of_g s.sameRegisters_releaseHeld.g
  | _ => exact of_g rfl

/-- Settles O24: a step that changes G[r] handles an event that writes it. -/
theorem onlyDestinationsAndTheHostChangeG : Obligations.OnlyDestinationsAndTheHostChangeG := by
  intro s t r h changed
  obtain ⟨e, rest, first, handled⟩ | ⟨m, rest, rfl⟩ | rfl := step_next_cases h
  · rw [first]
    have writes := handled.writesG_of_getG_ne changed
    cases e with
    | rst => exact .inl rfl
    | regWrite off w =>
      obtain port | ⟨cmd, i, decoded, dest⟩ := writes
      · exact .inr (.inl ⟨off, w, rfl, port⟩)
      · exact .inr (.inr ⟨off, w, i, rfl, cmd, decoded, dest⟩)
    | _ => exact writes.elim
  · exact absurd (State.getG_congr (s.sameRegisters_carryOut rest m).g r) changed
  · exact absurd rfl changed

/-! ## PVALID -/

/-- While PNEW, SPLIT or SSPLIT executes PVALID is 0 (10_state.md R48). -/
def State.pvalidClear (s : State) : Prop := s.fsm.clearsPvalid = true → s.pvalid = false

theorem State.SameCommand.pvalidClear {s t : State} (same : s.SameCommand t) (h : s.pvalidClear) : t.pvalidClear := by
  rw [State.pvalidClear, same.fsm, same.pvalid]
  exact h

theorem State.Answered.pvalidClear {s t : State} (answered : s.Answered t) (h : s.pvalidClear) : t.pvalidClear := by
  intro clears
  obtain ⟨before, same⟩ := answered.pvalid clears
  rw [same, h before]

theorem State.Handled.pvalidClear {s t : State} {e : Event} (handled : s.Handled e t) (h : s.pvalidClear) : t.pvalidClear := by
  cases handled with
  | hardReset | softReset | illegal => exact nofun
  | dropped | lateEntropy | lateStream => exact h
  | command _ _ _ run => exact (State.fsm_of_runs (exec_runs run)).2
  | stored => exact (s.sameCommand_storeReg _ _).pvalidClear h
  | read off => exact (s.sameRegisters_hostRead off).pvalidClear h
  | memPort m => exact (s.sameRegisters_memAccess m).pvalidClear h
  | entropy a => exact (s.answered_entropyAnswer a).pvalidClear h
  | stream a => exact (s.answered_streamAnswer a).pvalidClear h
  | memStep => exact s.sameRegisters_releaseHeld.pvalidClear h

/-- Settles O27: an acceptance that begins such a command clears PVALID, and an answer that goes on with one leaves it. -/
theorem pvalidIsClearWhileSecretsAreInUse : Obligations.PvalidIsClearWhileSecretsAreInUse := by
  refine ⟨nofun, fun s t h ht => ?_⟩
  obtain ⟨e, rest, -, handled⟩ | ⟨m, rest, rfl⟩ | rfl := step_next_cases ht
  · exact handled.pvalidClear (s := s.withAgenda rest) h
  · exact (s.sameRegisters_carryOut rest m).pvalidClear h
  · exact h

/-! ## The coordinate table -/

/-- The table begins with the executing command's coordinates (10_state.md R46). -/
def State.tableFollows (s : State) : Prop := s.x.toList.take s.fsm.coordinates.length = s.fsm.coordinates

theorem State.tableFollows_of_nil {s : State} (released : s.fsm.coordinates = []) : s.tableFollows := by
  rw [State.tableFollows, released]
  rfl

theorem State.SameCommand.tableFollows {s t : State} (same : s.SameCommand t) (h : s.tableFollows) : t.tableFollows := by
  rw [State.tableFollows, same.fsm, same.x]
  exact h

/-- At every well-formed point the coordinates fit into the table. -/
theorem Fsm.length_coordinates_of_wf {p : Params} {f : Fsm} (wf : f.wf p) : f.coordinates.length ≤ 255 := by
  cases f with
  | idle | polyDraw | endRead => exact Nat.zero_le _
  | sampleDraw job xs =>
    obtain ⟨⟨-, -, le, -⟩, -, more⟩ := wf
    exact more.le.trans le
  | coefDraw job xs sh =>
    obtain ⟨⟨-, -, le, -⟩, -, all, -⟩ := wf
    exact all.le.trans le
  | headerWrite job xs k =>
    obtain ⟨⟨-, -, le, -⟩, -, -, all, -⟩ := wf
    exact all.le.trans le
  | chunkRead job xs =>
    obtain ⟨⟨-, -, le, -⟩, -, -, all⟩ := wf
    exact all.le.trans le
  | sliceWrite job xs n ys k =>
    obtain ⟨⟨-, -, le, -⟩, -, -, all, -⟩ := wf
    exact all.le.trans le
  | headerRead job xs =>
    obtain ⟨⟨-, le, -⟩, more⟩ := wf
    show xs.length ≤ 255
    omega
  | partRead job xs chunks =>
    obtain ⟨⟨-, le, -⟩, -, all, -⟩ := wf
    show xs.length ≤ 255
    omega
  | mainWrite job xs out =>
    obtain ⟨⟨-, le, -⟩, -, all, -⟩ := wf
    show xs.length ≤ 255
    omega

theorem take_setIfInBounds_append {x : Vector Byte 255} {xs : List Byte} (h : x.toList.take xs.length = xs) (b : Byte)
    (fits : xs.length < 255) : (x.setIfInBounds xs.length b).toList.take (xs ++ [b]).length = xs ++ [b] := by
  have inTable : xs.length < x.toList.length := by rwa [Vector.length_toList]
  rw [Vector.toList_setIfInBounds, List.length_append, List.length_singleton, List.take_set, ← List.take_append_getElem inTable, h,
    List.set_append_right _ _ le_rfl, Nat.sub_self, List.set_cons_zero]

/-- An answer appends at most one coordinate, to the command's and to the table at the same index. -/
theorem State.Answered.tableFollows {s t : State} (answered : s.Answered t) (h : s.tableFollows) (wf : t.fsm.wf t.params) :
    t.tableFollows := by
  obtain goesOn | ⟨b, f, -, grown, goesOn⟩ := answered
  · obtain released | ⟨coords, x⟩ := goesOn.coordinates
    · exact State.tableFollows_of_nil released
    · rw [State.tableFollows, coords, x]
      exact h
  · obtain released | ⟨coords, x⟩ := goesOn.coordinates
    · exact State.tableFollows_of_nil released
    · have fits := Fsm.length_coordinates_of_wf wf
      rw [coords, grown, List.length_append, List.length_singleton] at fits
      rw [State.tableFollows, coords, grown, x]
      exact take_setIfInBounds_append h b fits

theorem State.Handled.tableFollows {s t : State} {e : Event} (handled : s.Handled e t) (inv : s.Inv) (h : s.tableFollows) :
    t.tableFollows := by
  have wf := (inv.handled handled).fsm
  cases handled with
  | hardReset | softReset | illegal => exact State.tableFollows_of_nil rfl
  | dropped | lateEntropy | lateStream => exact h
  | command _ _ _ run => exact State.tableFollows_of_nil (State.fsm_of_runs (exec_runs run)).1
  | stored => exact (s.sameCommand_storeReg _ _).tableFollows h
  | read off => exact (s.sameRegisters_hostRead off).tableFollows h
  | memPort m => exact (s.sameRegisters_memAccess m).tableFollows h
  | entropy a => exact (s.answered_entropyAnswer a).tableFollows h wf
  | stream a => exact (s.answered_streamAnswer a).tableFollows h wf
  | memStep => exact s.sameRegisters_releaseHeld.tableFollows h

/-- Settles O28: an acceptance begins with no coordinates, and an answer keeps table and coordinates in line. -/
theorem coordinateTableFollowsTheCommand : Obligations.CoordinateTableFollowsTheCommand := by
  intro s t inv h ht
  obtain ⟨e, rest, -, handled⟩ | ⟨m, rest, rfl⟩ | rfl := step_next_cases ht
  · exact handled.tableFollows (inv.withAgenda rest) h
  · exact (s.sameRegisters_carryOut rest m).tableFollows h
  · exact h

end Sys2Proof.Machine
end

section
/-! The register map (10_state.md R36, R37): a register is chosen by the word index of its offset. -/

namespace Sys2Proof.Machine

theorem regAt_congr {a b : BitVec 12} (h : a.toNat / 4 = b.toNat / 4) : regAt a = regAt b := by
  simp only [regAt, h]

/-- Clearing address bits 1:0 keeps the word index. -/
theorem wordIndex_and_mask (off : BitVec 12) : (off &&& 0xFFC).toNat / 4 = off.toNat / 4 := by
  have small : off.toNat / 4 < 2 ^ 10 := by omega
  rw [BitVec.toNat_and, show (4 : Nat) = 2 ^ 2 from rfl, Nat.and_div_two_pow]
  exact (Nat.and_two_pow_sub_one_eq_mod _ 10).trans (Nat.mod_eq_of_lt small)

theorem regAt_reserved_iff (off : BitVec 12) : regAt off = .reserved ↔
    (0x04C ≤ off.toNat ∧ off.toNat < 0x100) ∨ (0x140 ≤ off.toNat ∧ off.toNat < 0x400) ∨ 0x7FC ≤ off.toNat := by
  unfold regAt
  dsimp only
  split
  · rename_i named
    refine iff_of_false ?_ (by omega)
    split <;> simp
  · split
    · exact iff_of_false (by simp) (by omega)
    · split
      · exact iff_of_false (by simp) (by omega)
      · exact iff_of_true rfl (by omega)

theorem regAt_g (g : Fin 16) : regAt (BitVec.ofNat 12 (0x100 + 4 * g)) = .g (BitVec.ofNat 4 g) := by
  revert g
  decide

theorem regAt_x (k : Fin 255) : regAt (BitVec.ofNat 12 (0x400 + 4 * k)) = .x k := by
  have index : (BitVec.ofNat 12 (0x400 + 4 * k)).toNat / 4 = 0x100 + k := by
    rw [BitVec.toNat_ofNat]
    omega
  unfold regAt
  dsimp only
  rw [index, if_neg (by omega), if_neg (by omega), if_pos (by omega), Nat.add_sub_cancel_left]

/-- Settles O17: the named offsets one by one, G and X by their index, and the reserved ranges. -/
theorem registerMapIsTheSpecs : Obligations.RegisterMapIsTheSpecs :=
  ⟨rfl, rfl, rfl, rfl, rfl, rfl, rfl, rfl, rfl, rfl, rfl, rfl, rfl, rfl, rfl, rfl, rfl, rfl, rfl, regAt_g, regAt_x,
    fun off => regAt_congr (wordIndex_and_mask off).symm, regAt_reserved_iff⟩

/-- Bit 8 of POLY is 1: its degree is 8 (00_scope.md R7). -/
theorem Poly.getLsbD_bits_eight (p : Poly) : p.bits.getLsbD 8 = true := by
  cases p <;> rfl

/-- Settles O16: each constant register is read at its offset; POLYREG and BLKMAX fit into the word. -/
theorem constantRegistersReadTheirConstants : Obligations.ConstantRegistersReadTheirConstants := by
  intro s
  have identity : s.readReg (regAt 0x03C) = 0x53535501 := rfl
  have polyreg : (s.readReg (regAt 0x040)).extractLsb' 0 9 = s.params.poly.bits := by
    show (s.params.poly.bits.setWidth 32).extractLsb' 0 9 = _
    rw [← BitVec.setWidth_eq_extractLsb' (by decide), BitVec.setWidth_setWidth_of_le _ (by decide), BitVec.setWidth_eq]
  refine ⟨identity, by rw [identity]; decide, by rw [identity]; decide, polyreg, ?_, rfl, ?_⟩
  · show (s.params.poly.bits.setWidth 32).getLsbD 8 = true
    rw [BitVec.getLsbD_setWidth, Poly.getLsbD_bits_eight]
    rfl
  · show (BitVec.ofNat 32 s.params.blockMax).toNat = s.params.blockMax
    rw [BitVec.toNat_ofNat, Nat.mod_eq_of_lt]
    have := s.params.blockMaxPred.isLt
    show s.params.blockMaxPred.val + 1 < 2 ^ 32
    omega

/-- Settles O13: each value is the one `State.reset` names. -/
theorem resetStateHasTheSpecValues : Obligations.ResetStateHasTheSpecValues :=
  ⟨rfl, rfl, rfl, rfl, rfl, rfl, rfl, rfl, rfl, rfl, rfl, rfl, rfl, rfl, rfl, rfl, rfl, rfl, rfl, rfl⟩

end Sys2Proof.Machine
end

section
/-! The register port (10_state.md R36, R49-R51): what a host write and a host read step to, and what the port returns. -/

namespace Sys2Proof.Machine

section

variable {s : State} {off : BitVec 12} {w : Word} {rest : List Event}

theorem step_regWrite (next : s.eventIsNext (.regWrite off w) rest) (notCmd : regAt off ≠ .cmd) :
    step s = .next ((s.withAgenda rest).hostWrite (regAt off) w) := by
  obtain ⟨cmd, -⟩ | ⟨-, hs⟩ := (s.withAgenda rest).regWrite_cases off w
  · exact absurd cmd notCmd
  · exact (step_of_event next.1 next.2).trans hs

/-- CTRL with SRST = 1 resets, busy or not (10_state.md R51, 70_reset_and_hazards.md R340). -/
theorem step_regWrite_reset (next : s.eventIsNext (.regWrite off w) rest) (ctrl : regAt off = .ctrl) (srst : w.getLsbD 31 = true) :
    step s = .next (s.withAgenda rest).softReset := by
  rw [step_regWrite next (by simp [ctrl]), State.hostWrite, if_pos ⟨ctrl, srst⟩]

/-- A busy unit drops a write of the registers R51 names. -/
theorem step_regWrite_dropped (next : s.eventIsNext (.regWrite off w) rest) (busy : s.busy = true)
    (drops : (regAt off).dropsWhenBusy = true) (noReset : ¬(regAt off = .ctrl ∧ w.getLsbD 31 = true)) :
    step s = .next (s.withAgenda rest).dropWrite := by
  have busy' : (s.withAgenda rest).busy = true := busy
  rw [step_of_event next.1 next.2]
  obtain ⟨cmd, hs⟩ | ⟨notCmd, hs⟩ := (s.withAgenda rest).regWrite_cases off w
  · rw [State.handle, hs, State.submit, if_pos busy']
  · rw [State.handle, hs, State.hostWrite, if_neg noReset, busy', drops]
    rfl

/-- Any other write is carried out. -/
theorem step_regWrite_stored (next : s.eventIsNext (.regWrite off w) rest) (notCmd : regAt off ≠ .cmd)
    (noReset : ¬(regAt off = .ctrl ∧ w.getLsbD 31 = true)) (carried : s.busy = false ∨ (regAt off).dropsWhenBusy = false) :
    step s = .next ((s.withAgenda rest).storeReg w (regAt off)) := by
  have carried' : ((s.withAgenda rest).busy && (regAt off).dropsWhenBusy) = false := Bool.and_eq_false_iff.mpr carried
  rw [step_regWrite next notCmd, State.hostWrite, if_neg noReset, carried']
  rfl

theorem step_regRead (next : s.eventIsNext (.regRead off) rest) :
    step s = .next (((s.withAgenda rest).countFree (regAt off)).log (.regRead off (s.readReg (regAt off)))) :=
  step_of_event next.1 next.2

end

/-- The registers that a host write does not change, and the reserved offsets (10_state.md R37). -/
def RegName.readOnly (r : RegName) : Prop :=
  r = .errcode ∨ r = .rlen ∨ r = .cmdcount ∨ r = .xcount ∨ r = .pdeg ∨ r = .id ∨ r = .polyreg ∨ r = .memlast ∨ r = .blkmax ∨
    (∃ k, r = .x k) ∨ r = .reserved

theorem RegName.readOnly.ignored {r : RegName} (h : r.readOnly) :
    r ≠ .cmd ∧ r ≠ .ctrl ∧ r.dropsWhenBusy = false ∧ ∀ (s : State) (w : Word), s.storeReg w r = s := by
  rcases h with rfl | rfl | rfl | rfl | rfl | rfl | rfl | rfl | rfl | ⟨k, rfl⟩ | rfl <;>
    exact ⟨nofun, nofun, rfl, fun _ _ => rfl⟩

theorem step_regWrite_readOnly {s : State} {off : BitVec 12} {w : Word} {rest : List Event}
    (next : s.eventIsNext (.regWrite off w) rest) (readOnly : (regAt off).readOnly) : step s = .next (s.withAgenda rest) := by
  obtain ⟨notCmd, notCtrl, keeps, stores⟩ := readOnly.ignored
  rw [step_regWrite_stored next notCmd (fun reset => notCtrl reset.1) (.inr keeps), stores]

theorem State.countFree_of_known {s : State} {r : RegName} (known : ∀ k, r = .x k → k < s.xcount.toNat) : s.countFree r = s := by
  cases r with
  | x k => exact if_pos (known k rfl)
  | _ => rfl

theorem State.countFree_of_free {s : State} {k : Nat} (free : s.xcount.toNat ≤ k) :
    s.countFree (.x k) = { s with freeCount := s.freeCount + 1 } :=
  if_neg (Nat.not_lt.mpr free)

/-- Settles O6: the writes that are dropped, those that are not, and the reads, each by its step lemma. -/
theorem busyUnitDropsHostWrites : Obligations.BusyUnitDropsHostWrites := by
  intro s off w rest
  refine ⟨fun busy next => ⟨fun dropped => ?_, fun status => ?_, fun reset => ?_, fun readOnly => ?_⟩, fun next => ⟨fun known => ?_,
    fun k entry free => ?_⟩⟩
  · have drops : (regAt off).dropsWhenBusy = true := by
      rcases dropped with h | h | h | h | h | h | h | h | ⟨g, h⟩ | ⟨h, -⟩ <;> rw [h] <;> rfl
    have noReset : ¬(regAt off = .ctrl ∧ w.getLsbD 31 = true) := by
      rintro ⟨ctrl, srst⟩
      rw [ctrl, srst] at dropped
      simp at dropped
    exact step_regWrite_dropped next busy drops noReset
  · rw [step_regWrite_stored next (by simp [status]) (by simp [status]) (by simp [status, RegName.dropsWhenBusy]), status]
    rfl
  · exact step_regWrite_reset next reset.1 reset.2
  · exact step_regWrite_readOnly next readOnly
  · rw [step_regRead next, State.countFree_of_known (s := s.withAgenda rest) known]
    rfl
  · rw [step_regRead next, entry, State.countFree_of_free (s := s.withAgenda rest) free]
    rfl

/-- Settles O18: offset 0x100 + 4g is G[g], whose write is carried out or dropped. -/
theorem registerPortReachesG : Obligations.RegisterPortReachesG := by
  intro s g w rest
  have here := regAt_g g
  dsimp only
  refine ⟨fun next => ?_, fun next idle => ?_, fun next busy => ?_⟩
  · rw [step_regRead next, here]
    rfl
  · refine ⟨_, step_regWrite_stored next (by simp [here]) (by simp [here]) (.inl idle), ?_⟩
    rw [here]
    exact ⟨State.getG_setG_same _ _ _, fun j other => State.getG_setG_of_ne _ _ j _ other, rfl⟩
  · rw [step_regWrite_dropped next busy (by rw [here]; rfl) (by simp [here])]
    rfl

end Sys2Proof.Machine
end

section
/-! What the register port returns: CTRL and STATUS bit by bit, PHASE by the point of the FSM, and narrow registers (10_state.md R39, R41,
R50, R53). -/

namespace Sys2Proof.Machine

/-! ## CTRL and STATUS -/

theorem State.getLsbD_ctrlWord (s : State) (i : Nat) : s.ctrlWord.getLsbD i =
    if i = 0 then s.ie else if i = 1 then s.policy == .perBlock else if i = 2 then s.eofpol == .symmetric else false := by
  simp only [State.ctrlWord, BitVec.getLsbD_setWidth, BitVec.getLsbD_append]
  rcases i with _ | _ | _ | i <;> simp

theorem State.getLsbD_statusWord (s : State) (i : Nat) : s.statusWord.getLsbD i =
    if i = 0 then s.busy else if i = 1 then s.done else if i = 2 then s.err else if i = 3 then s.ovr
    else if i < 8 then s.phase.getLsbD (i - 4) else if i = 8 then s.pvalid else false := by
  simp only [State.statusWord, BitVec.getLsbD_setWidth, BitVec.getLsbD_append]
  rcases i with _ | _ | _ | _ | _ | _ | _ | _ | _ | i <;> simp

theorem State.ctrlWord_lt (s : State) : s.ctrlWord.toNat < 2 ^ 3 := by
  refine Nat.lt_pow_two_of_testBit _ fun i hi => ?_
  rw [← BitVec.getLsbD, s.getLsbD_ctrlWord, if_neg (by omega), if_neg (by omega), if_neg (by omega)]

theorem State.extractLsb'_ctrlWord (s : State) : s.ctrlWord.extractLsb' 3 29 = 0 := by
  ext i hi
  rw [BitVec.getElem_extractLsb', s.getLsbD_ctrlWord, if_neg (by omega), if_neg (by omega), if_neg (by omega)]
  simp

theorem State.statusWord_phase (s : State) : s.statusWord.extractLsb' 4 4 = s.phase := by
  ext i hi
  rw [BitVec.getElem_extractLsb', s.getLsbD_statusWord, if_neg (by omega), if_neg (by omega), if_neg (by omega), if_neg (by omega),
    if_pos (by omega), Nat.add_sub_cancel_left, BitVec.getLsbD_eq_getElem hi]

theorem State.statusWord_upper (s : State) : s.statusWord.extractLsb' 9 23 = 0 := by
  ext i hi
  rw [BitVec.getElem_extractLsb', s.getLsbD_statusWord, if_neg (by omega), if_neg (by omega), if_neg (by omega), if_neg (by omega),
    if_neg (by omega), if_neg (by omega)]
  simp

/-- A STATUS write clears exactly the bits where the word has a 1 (10_state.md R39). -/
theorem State.clearStatus_eq (s : State) (w : Word) : s.clearStatus w = { s with
    done := if w.getLsbD 1 then false else s.done
    err := if w.getLsbD 2 then false else s.err
    ovr := if w.getLsbD 3 then false else s.ovr } := by
  have clears : ∀ bit one : Bool, (bit && !one) = if one then false else bit := by decide
  simp only [State.clearStatus, clears]

/-! ## PHASE -/

theorem Fsm.phase_le (f : Fsm) : f.phase.toNat ≤ 5 := by
  cases f <;> simp [Fsm.phase]

theorem Fsm.phase_eq_zero_iff (f : Fsm) : f.phase = 0 ↔ f = .idle := by
  cases f <;> simp [Fsm.phase]

theorem Fsm.request_eq_none_iff (f : Fsm) : f.request = none ↔ f = .idle := by
  cases f <;> simp [Fsm.request]

theorem Fsm.phase_eq_one_iff (f : Fsm) : f.phase = 1 ↔ f.request = some .draw := by
  cases f <;> simp [Fsm.phase, Fsm.request]

theorem Fsm.phase_eq_two_iff (f : Fsm) : f.phase = 2 ↔ ∃ job xs, f = .headerRead job xs := by
  cases f <;> simp [Fsm.phase]

theorem Fsm.phase_eq_three_iff (f : Fsm) : f.phase = 3 ↔ ∃ job xs k, f = .headerWrite job xs k := by
  cases f <;> simp [Fsm.phase]

theorem Fsm.reads_iff (f : Fsm) : (∃ ch max, f.request = some (.stream (.read ch max))) ↔ f.phase = 2 ∨ f.phase = 4 := by
  cases f <;> simp [Fsm.phase, Fsm.request]

theorem Fsm.writes_iff (f : Fsm) : (∃ ch bytes, f.request = some (.stream (.write ch bytes))) ↔ f.phase = 3 ∨ f.phase = 5 := by
  cases f <;> simp [Fsm.phase, Fsm.request]

/-! ## Values -/

theorem toNat_setWidth_word {n : Nat} (v : BitVec n) (le : n ≤ 32 := by decide) : (v.setWidth 32).toNat = v.toNat :=
  BitVec.toNat_setWidth_of_le le

theorem toNat_setWidth_word_lt {n : Nat} (v : BitVec n) (le : n ≤ 32 := by decide) : (v.setWidth 32).toNat < 2 ^ n := by
  rw [toNat_setWidth_word v le]
  exact v.isLt

/-- The low bits of a word, zero-extended, are the word under their mask. -/
theorem setWidth_setWidth_word (w : Word) (n : Nat) (le : n ≤ 32 := by decide) :
    (w.setWidth n).setWidth 32 = w &&& BitVec.ofNat 32 (2 ^ n - 1) := by
  apply BitVec.eq_of_toNat_eq
  have mask : 2 ^ n - 1 < 2 ^ 32 := by
    have := Nat.pow_le_pow_right (n := 2) (by omega) le
    omega
  rw [toNat_setWidth_word _ le, BitVec.toNat_setWidth, BitVec.toNat_and, BitVec.toNat_ofNat, Nat.mod_eq_of_lt mask,
    Nat.and_two_pow_sub_one_eq_mod]

/-- CTRL reads back the low three bits of the word written to it (10_state.md R41). -/
theorem State.ctrlWord_storeReg (s : State) (w : Word) : (s.storeReg w .ctrl).ctrlWord = w &&& 0x7 := by
  refine Eq.trans ?_ (setWidth_setWidth_word w 3)
  apply BitVec.eq_of_getLsbD_eq
  intro i hi
  rw [State.getLsbD_ctrlWord, BitVec.getLsbD_setWidth, BitVec.getLsbD_setWidth]
  rcases i with _ | _ | _ | i
  · simp [State.storeReg]
  · show ((if w.getLsbD 1 then Policy.perBlock else .perByte) == .perBlock) = w.getLsbD 1
    cases w.getLsbD 1 <;> rfl
  · show ((if w.getLsbD 2 then EofPolicy.symmetric else .leaderOnly) == .symmetric) = w.getLsbD 2
    cases w.getLsbD 2 <;> rfl
  · simp

theorem State.readReg_x (s : State) (k : Fin 255) (known : k.val < s.xcount.toNat) : (s.readReg (.x k)).toNat = s.x[k].toNat := by
  rw [State.readReg, if_pos known, toNat_setWidth_word, State.getX]
  simp

/-- Settles O19: each write is a stored one, and the register reads back the low bits it keeps. -/
theorem narrowRegistersKeepTheLowBits : Obligations.NarrowRegistersKeepTheLowBits := by
  refine ⟨fun s off w rest idle next => ?_, fun s g => ?_⟩
  · have stored : ∀ r, regAt off = r → r ≠ .cmd → ¬(r = .ctrl ∧ w.getLsbD 31 = true) →
        step s = .next ((s.withAgenda rest).storeReg w r) := by
      rintro r rfl notCmd noReset
      exact step_regWrite_stored next notCmd noReset (.inl idle)
    have byte : (w.setWidth 8).setWidth 32 = w &&& 0xFF := setWidth_setWidth_word w 8
    intro stores
    refine ⟨fun here => ⟨stored _ here nofun nofun, byte⟩, fun here => ⟨stored _ here nofun nofun, byte⟩,
      fun here => ⟨stored _ here nofun nofun, byte⟩, fun here => ⟨stored _ here nofun nofun, rfl⟩,
      fun here => ⟨stored _ here nofun nofun, rfl⟩, fun here => ⟨stored _ here nofun nofun, rfl⟩,
      fun here => ⟨stored _ here nofun nofun, rfl⟩, fun g here => ⟨stored _ here nofun nofun, ?_⟩,
      fun noSrst here => ⟨stored _ here nofun ?_, (s.withAgenda rest).ctrlWord_storeReg w⟩, fun here => ?_,
      fun readOnly => step_regWrite_readOnly next readOnly⟩
    · rw [State.readReg, State.getG_setG_same]
      exact byte
    · exact fun reset => Bool.false_ne_true (noSrst.symm.trans reset.2)
    · rw [stored _ here nofun nofun, State.storeReg, State.clearStatus_eq]
      rfl
  · exact ⟨toNat_setWidth_word_lt s.cfgN, toNat_setWidth_word_lt s.cfgT, toNat_setWidth_word_lt s.cfgK,
      toNat_setWidth_word_lt (s.getG g), s.ctrlWord_lt, toNat_setWidth_word_lt s.errcode, toNat_setWidth_word_lt s.xcount,
      toNat_setWidth_word_lt s.pdeg, toNat_setWidth_word_lt s.params.poly.bits⟩

theorem State.irq_eq_true_iff (s : State) : s.irq = true ↔ s.ie = true ∧ (s.done = true ∨ s.err = true) := by
  simp [State.irq]

/-- Settles O20: what the port returns, STATUS and PHASE by their lemmas, and irq from IE, DONE and ERR. -/
theorem statusBitsAndIrq : Obligations.StatusBitsAndIrq := by
  intro s w e
  have phaseIdle : s.phase = 0 ↔ s.fsm = .idle := s.fsm.phase_eq_zero_iff
  exact ⟨s.getLsbD_statusWord 0, s.getLsbD_statusWord 1, s.getLsbD_statusWord 2, s.getLsbD_statusWord 3, s.statusWord_phase,
    s.getLsbD_statusWord 8, s.statusWord_upper,
    rfl, toNat_setWidth_word s.errcode, rfl, rfl, toNat_setWidth_word s.xcount, toNat_setWidth_word s.pdeg, rfl, rfl, s.readReg_x,
    toNat_setWidth_word s.cfgN, toNat_setWidth_word s.cfgT, toNat_setWidth_word s.cfgK, rfl, rfl, rfl, rfl,
    s.getLsbD_ctrlWord 0, s.getLsbD_ctrlWord 1, s.getLsbD_ctrlWord 2, s.extractLsb'_ctrlWord,
    s.fsm.phase_le, phaseIdle.trans s.busy_eq_false_iff.symm, phaseIdle.trans s.fsm.request_eq_none_iff.symm, s.fsm.phase_eq_one_iff,
    s.fsm.phase_eq_two_iff, s.fsm.phase_eq_three_iff, s.fsm.reads_iff, s.fsm.writes_iff,
    s.clearStatus_eq w,
    s.irq_eq_true_iff, by simp [State.irq], by simp [State.irq], by simp [State.irq], by simp [State.irq], by simp [State.irq],
    by simp [State.irq], by simp [State.irq]⟩

end Sys2Proof.Machine
end

section
/-! MEM as bytes: what a byte reads after the host's write (20_memory.md R83), and `rd32` as a number (R86). -/

namespace Sys2Proof.Machine

@[simp] theorem State.readByte_writeByte_same (s : State) (a : Nat) (v : Byte) : (s.writeByte a v).readByte a = v := by
  simp [State.readByte, State.writeByte, Memory.find_store]

theorem State.readByte_writeByte_of_ne (s : State) {a b : Nat} (v : Byte) (other : b ≠ a) :
    (s.writeByte a v).readByte b = s.readByte b := by
  simp [State.readByte, State.writeByte, State.unwrittenByte, Memory.find_store, other]

/-- The OR of a low part and a higher part shifted past it is their sum. -/
theorem or_shiftLeft_eq_add {k low : Nat} (high : Nat) (fits : low < 2 ^ k) : low ||| high <<< k = low + 2 ^ k * high := by
  rw [Nat.or_comm, ← Nat.shiftLeft_add_eq_or_of_lt fits, Nat.shiftLeft_eq, Nat.mul_comm, Nat.add_comm]

theorem toNat_setWidth_shiftLeft (v : Byte) {k : Nat} (le : k ≤ 24 := by decide) : (v.setWidth 32 <<< k).toNat = v.toNat <<< k := by
  have fits : v.toNat <<< k < 2 ^ 32 := by
    rw [Nat.shiftLeft_eq]
    calc v.toNat * 2 ^ k < 2 ^ 8 * 2 ^ k := Nat.mul_lt_mul_of_pos_right v.isLt (Nat.two_pow_pos k)
      _ = 2 ^ (8 + k) := (Nat.pow_add 2 8 k).symm
      _ ≤ 2 ^ 32 := Nat.pow_le_pow_right (by decide) (by omega)
  rw [BitVec.toNat_shiftLeft, toNat_setWidth_word, Nat.mod_eq_of_lt fits]

/-- Settles O22: each byte's OR into the bytes below it is an addition. -/
theorem rd32IsLittleEndian : Obligations.Rd32IsLittleEndian := by
  intro s a
  have lt0 : (s.readByte a).toNat < 256 := (s.readByte a).isLt
  have lt1 : (s.readByte (a + 1)).toNat < 256 := (s.readByte (a + 1)).isLt
  have lt2 : (s.readByte (a + 2)).toNat < 256 := (s.readByte (a + 2)).isLt
  rw [State.rd32, BitVec.toNat_or, BitVec.toNat_or, BitVec.toNat_or, toNat_setWidth_word,
    toNat_setWidth_shiftLeft, toNat_setWidth_shiftLeft, toNat_setWidth_shiftLeft,
    or_shiftLeft_eq_add (k := 8) _ lt0, or_shiftLeft_eq_add (k := 16) _ (by omega), or_shiftLeft_eq_add (k := 24) _ (by omega)]
  rfl

end Sys2Proof.Machine
end

section
/-! The MEM port (20_memory.md R83, R92): a transaction handled at once, held while SPLIT executes, or released when nothing holds it. -/

namespace Sys2Proof.Machine

section

variable {s : State} {m : MemTxn} {rest : List Event} {waiting : List MemTxn}

theorem State.memAccess_of_held (held : s.memHeld = true) (m : MemTxn) : s.memAccess m = s.withHeld (s.heldMem ++ [m]) := if_pos held

theorem State.memAccess_of_free (free : s.memHeld = false) (m : MemTxn) : s.memAccess m = s.carryOut m :=
  if_neg (by simp [free])

theorem State.carryOut_write_of_lt (s : State) {a : Word} (lt : a.toNat < s.params.memBytes) (v : Byte) :
    s.carryOut (.write a v) = s.writeByte a.toNat v := if_pos lt

theorem State.carryOut_write_of_ge (s : State) {a : Word} (ge : s.params.memBytes ≤ a.toNat) (v : Byte) :
    s.carryOut (.write a v) = s := if_neg (by omega)

theorem State.releaseHeld_of_free (free : s.memHeld = false) (oldest : s.heldMem = m :: waiting) :
    s.releaseHeld = (s.withHeld waiting).carryOut m := by
  simp [State.releaseHeld, oldest, free]

/-- With the port free and nothing waiting, the next transaction is carried out. -/
theorem step_memPort_of_free (free : s.memHeld = false) (empty : s.heldMem = []) (next : s.agenda = .memPort m :: rest) :
    step s = .next ((s.withAgenda rest).carryOut m) := by
  rw [step_of_event next (.inl empty)]
  exact congrArg _ (State.memAccess_of_free (s := s.withAgenda rest) free m)

theorem step_memPort_of_held (held : s.memHeld = true) (next : s.agenda = .memPort m :: rest) :
    step s = .next ((s.withAgenda rest).withHeld (s.heldMem ++ [m])) := by
  rw [step_of_event next (.inr (.inl held))]
  exact congrArg _ (State.memAccess_of_held (s := s.withAgenda rest) held m)

/-- The oldest released transaction comes before every event but those that go first. -/
theorem step_of_release (free : s.memHeld = false) (oldest : s.heldMem = m :: waiting)
    (yields : ∀ e es, s.agenda = e :: es → e.goesFirst = false) : step s = .next ((s.withHeld waiting).carryOut m) := by
  have first : s.releaseFirst = true := s.releaseFirst_eq_true_iff.mpr ⟨by simp [oldest], free, yields⟩
  rw [step, State.advance, if_pos first, State.releaseHeld_of_free free oldest]

theorem step_memStep (free : s.memHeld = false) (oldest : s.heldMem = m :: waiting) (next : s.agenda = .memStep :: rest) :
    step s = .next (((s.withAgenda rest).withHeld waiting).carryOut m) := by
  rw [step_of_event next (.inr (.inr rfl))]
  exact congrArg _ (State.releaseHeld_of_free (s := s.withAgenda rest) free oldest)

end

theorem Event.goesFirst_of_srst {off : BitVec 12} {w : Word} (ctrl : regAt off = .ctrl) (srst : w.getLsbD 31 = true) :
    (Event.regWrite off w).goesFirst = true := by
  simp [Event.goesFirst, ctrl, srst]

/-- Settles O21: the port free and nothing waiting; the port held; a release, before the next event or at `memStep`; and the two resets,
which go first. -/
theorem memPortMovesBytesUnlessHeld : Obligations.MemPortMovesBytesUnlessHeld := by
  refine ⟨fun s a v rest free empty => ⟨fun next => ?_, fun next ge => ?_, fun next lt => ?_⟩,
    fun s m rest waiting => ⟨step_memPort_of_held, step_of_release, step_memStep, fun next => ?_, fun off w next ctrl srst => ?_,
      rfl, fun _ => rfl, rfl, rfl⟩⟩
  · exact step_memPort_of_free free empty next
  · rw [step_memPort_of_free free empty next, (s.withAgenda rest).carryOut_write_of_ge ge v]
    rfl
  · refine ⟨(s.withAgenda rest).writeByte a.toNat v, ?_, State.readByte_writeByte_same _ _ v,
      fun b other => State.readByte_writeByte_of_ne _ v other, rfl⟩
    rw [step_memPort_of_free free empty next, (s.withAgenda rest).carryOut_write_of_lt lt v]
  · exact step_of_event next (.inr (.inr rfl))
  · exact step_regWrite_reset ⟨next, .inr (.inr (Event.goesFirst_of_srst ctrl srst))⟩ ctrl srst

end Sys2Proof.Machine
end

section
/-! What changes MEM (20_memory.md R80, R81, R98): `State.SameMem` for all that does not, and `Event.writesMem` for the events that
can. -/

namespace Sys2Proof.Machine

/-- MEM reads the same everywhere: the listed bytes and the contents of the unwritten ones are the same. For an update written out both
fields are `rfl`. -/
structure State.SameMem (s t : State) : Prop where
  mem   : t.mem = s.mem := by rfl
  epoch : t.epoch = s.epoch := by rfl

theorem State.SameMem.unchanged {s t : State} (same : s.SameMem t) : ¬(t.mem ≠ s.mem ∨ ∃ b, t.readByte b ≠ s.readByte b) := by
  rintro (listed | ⟨b, differs⟩)
  · exact listed same.mem
  · exact differs (State.readByte_congr same.mem same.epoch b)

theorem State.SameMem.trans {s u t : State} (h : s.SameMem u) (h' : u.SameMem t) : s.SameMem t :=
  ⟨h'.mem.trans h.mem, h'.epoch.trans h.epoch⟩

theorem State.sameMem_storeReg (s : State) (w : Word) (r : RegName) : s.SameMem (s.storeReg w r) := by
  cases r <;> exact {}

theorem State.sameMem_hostRead (s : State) (off : BitVec 12) : s.SameMem (s.hostRead off) := by
  unfold State.hostRead State.countFree
  split
  · split <;> exact {}
  · exact {}

/-- Of the host's transactions only a write changes MEM. -/
theorem State.sameMem_or_write_of_carryOut (s : State) (m : MemTxn) : s.SameMem (s.carryOut m) ∨ ∃ a v, m = .write a v := by
  cases m with
  | read a => exact .inl {}
  | write a v => exact .inr ⟨a, v, rfl⟩

/-- A command changes MEM at its acceptance only if it is a COMBINE, which then ends without error (43_engine.md R217). -/
theorem State.sameMem_or_combine_of_runs {s t : State} {i : Instr} (runs : s.Runs i t) :
    s.SameMem t ∨ i = .combine ∧ t.done = true := by
  cases runs with
  | combined => exact .inr ⟨rfl, rfl⟩
  | _ => exact .inl {}

/-! ## Answers -/

/-- MEM is the same in `t`, or `f` is a point of SPLIT and the command has ended without error (43_engine.md R215). -/
def State.SameMemOrSplit (s : State) (f : Fsm) (t : State) : Prop :=
  s.SameMem t ∨ f.holdsMem = true ∧ t.busy = false ∧ t.done = true

theorem State.SameMemOrSplit.of_sameMem {s u t : State} {f : Fsm} (same : s.SameMem u) (h : u.SameMemOrSplit f t) :
    s.SameMemOrSplit f t :=
  h.imp_left same.trans

section

variable (s : State) {job : SplitJob} {f : Fsm} (splits : ∀ dst secret, job.target = .mem dst secret → f.holdsMem = true)

include splits

theorem State.sameMemOrSplit_finishBlock (xs : List Byte) (n : Nat) (ys : List (List Byte)) :
    s.SameMemOrSplit f (s.finishBlock job xs n ys) := by
  obtain ⟨dst, secret, target, hs⟩ | ⟨_, -, hs⟩ := s.finishBlock_cases job xs n ys <;> rw [hs]
  · exact .inr ⟨splits dst secret target, rfl, rfl⟩
  · exact .inl {}

theorem State.sameMemOrSplit_startBlock (xs block : List Byte) : s.SameMemOrSplit f (s.startBlock job xs block) := by
  obtain ⟨-, hs⟩ | ⟨-, hs⟩ := s.startBlock_cases job xs block <;> rw [hs]
  · exact s.sameMemOrSplit_finishBlock splits xs 0 _
  · exact .inl {}

end

theorem Fsm.holdsMem_sampleDraw {job : SplitJob} {dst : Nat} {secret : List Byte} (target : job.target = .mem dst secret)
    (xs : List Byte) : (Fsm.sampleDraw job xs).holdsMem = true := by
  simp [Fsm.holdsMem, target]

theorem Fsm.holdsMem_coefDraw {job : SplitJob} {dst : Nat} {secret : List Byte} (target : job.target = .mem dst secret)
    (xs : List Byte) (sh : Sharing) : (Fsm.coefDraw job xs sh).holdsMem = true := by
  simp [Fsm.holdsMem, target]

theorem State.sameMemOrSplit_finishSampling (s : State) (job : SplitJob) (xs xs' : List Byte) :
    s.SameMemOrSplit (.sampleDraw job xs) (s.finishSampling job xs') := by
  obtain ⟨_, secret, -, hs⟩ | ⟨_, -, hs⟩ := s.finishSampling_cases job xs' <;> rw [hs]
  · exact .of_sameMem {} ((s.setXcount job.n).sameMemOrSplit_startBlock (fun _ _ target => Fsm.holdsMem_sampleDraw target xs) xs' secret)
  · exact .inl {}

theorem State.sameMemOrSplit_sampled (s : State) (job : SplitJob) (xs : List Byte) (b : Byte) :
    s.SameMemOrSplit (.sampleDraw job xs) (s.sampled job xs b) := by
  obtain ⟨-, hs⟩ | ⟨-, -, hs⟩ | ⟨-, -, hs⟩ := s.sampled_cases job xs b <;> rw [hs]
  · exact .inl {}
  · exact .inl {}
  · exact .of_sameMem {} ((s.setX xs.length b).sameMemOrSplit_finishSampling job xs _)

theorem State.sameMemOrSplit_coefDrawn (s : State) (job : SplitJob) (xs : List Byte) (sh : Sharing) (b : Byte) :
    s.SameMemOrSplit (.coefDraw job xs sh) (s.coefDrawn job xs sh b) := by
  have holds (dst secret) (target : job.target = .mem dst secret) := Fsm.holdsMem_coefDraw target xs sh
  obtain ⟨-, hs⟩ | ⟨-, -, -, hs⟩ | ⟨-, -, -, hs⟩ | ⟨-, -, hs⟩ := s.coefDrawn_cases job xs sh b <;> rw [hs]
  · exact .inl {}
  · exact .inl {}
  · exact s.sameMemOrSplit_finishBlock holds xs _ _
  · exact s.sameMemOrSplit_finishBlock holds xs _ _

theorem State.sameMem_polyAnswer (s : State) (c0 : Byte) (d i : Nat) (a : EntropyAnswer) : s.SameMem (s.polyAnswer c0 d i a) := by
  cases a with
  | fail => exact {}
  | byte b =>
    simp only [State.polyAnswer]
    split <;> exact {}

/-- A failed draw ends the command and writes nothing (60_exceptions.md R327). -/
theorem State.sameMem_entropyAnswer_fail (s : State) : s.SameMem (s.entropyAnswer .fail) := by
  unfold State.entropyAnswer
  split <;> exact {}

theorem State.sameMemOrSplit_entropyAnswer_byte (s : State) (b : Byte) : s.SameMemOrSplit s.fsm (s.entropyAnswer (.byte b)) := by
  unfold State.entropyAnswer
  cases point : s.fsm with
  | polyDraw c0 d i => exact .inl (.trans {} ((s.log _).sameMem_polyAnswer c0 d i (.byte b)))
  | sampleDraw job xs => exact .of_sameMem {} ((s.log _).sameMemOrSplit_sampled job xs b)
  | coefDraw job xs sh => exact .of_sameMem {} ((s.log _).sameMemOrSplit_coefDrawn job xs sh b)
  | _ => exact .inl {}

theorem State.sameMem_headerWritten (s : State) (job : SplitJob) (xs : List Byte) (k : Nat) (a : StreamAnswer) :
    s.SameMem (s.headerWritten job xs k a) := by
  cases a with
  | ok =>
    simp only [State.headerWritten]
    split <;> exact {}
  | _ => exact {}

/-- No chunk is legal for an in-memory split, which never waits for one, so it does not end here. -/
theorem State.sameMem_chunkArrived (s : State) (job : SplitJob) (xs : List Byte) (a : StreamAnswer) :
    s.SameMem (s.chunkArrived job xs a) := by
  cases a with
  | chunk bytes =>
    simp only [State.chunkArrived]
    split
    · rename_i legal
      obtain ⟨pos, le⟩ := (legalChunk_iff _ _).mp legal
      have streams (dst secret) (target : job.target = .mem dst secret) : (Fsm.chunkRead job xs).holdsMem = true := by
        rw [target, SplitTarget.block] at le
        omega
      exact (s.sameMemOrSplit_startBlock streams xs bytes).resolve_right nofun
    · exact {}
  | _ => exact {}

theorem State.sameMem_sliceWritten (s : State) (job : SplitJob) (xs : List Byte) (n : Nat) (ys : List (List Byte)) (k : Nat)
    (a : StreamAnswer) : s.SameMem (s.sliceWritten job xs n ys k a) := by
  cases a with
  | ok =>
    simp only [State.sliceWritten]
    split <;> exact {}
  | _ => exact {}

theorem State.sameMem_headerArrived (s : State) (job : CombJob) (xs : List Byte) (a : StreamAnswer) :
    s.SameMem (s.headerArrived job xs a) := by
  unfold State.headerArrived
  split
  · dsimp only
    split
    · exact {}
    · split <;> exact {}
  all_goals exact {}

theorem State.sameMem_partArrived (s : State) (job : CombJob) (xs : List Byte) (chunks : List (List Byte)) (a : StreamAnswer) :
    s.SameMem (s.partArrived job xs chunks a) := by
  cases a with
  | eof =>
    simp only [State.partArrived]
    split
    · unfold State.leaderEnded
      split <;> exact {}
    · exact {}
  | chunk bytes =>
    simp only [State.partArrived]
    split
    · exact {}
    · split
      · exact {}
      · obtain ⟨-, hs⟩ | ⟨-, hs⟩ := s.chunkTaken_cases job xs (chunks ++ [bytes]) <;> rw [hs] <;> exact {}
  | _ => exact {}

theorem State.sameMem_endArrived (s : State) (job : CombJob) (k : Nat) (a : StreamAnswer) : s.SameMem (s.endArrived job k a) := by
  cases a with
  | eof | chunk =>
    simp only [State.endArrived]
    split <;> exact {}
  | _ => exact {}

theorem State.sameMem_mainWritten (s : State) (job : CombJob) (xs out : List Byte) (a : StreamAnswer) :
    s.SameMem (s.mainWritten job xs out a) := by
  cases a <;> exact {}

theorem State.sameMem_streamResponse (s : State) (a : StreamAnswer) : s.SameMem (s.streamResponse a) := by
  unfold State.streamResponse
  cases point : s.fsm with
  | headerWrite job xs k => exact s.sameMem_headerWritten job xs k a
  | chunkRead job xs => exact s.sameMem_chunkArrived job xs a
  | sliceWrite job xs n ys k => exact s.sameMem_sliceWritten job xs n ys k a
  | headerRead job xs => exact s.sameMem_headerArrived job xs a
  | partRead job xs chunks => exact s.sameMem_partArrived job xs chunks a
  | endRead job k => exact s.sameMem_endArrived job k a
  | mainWrite job xs out => exact s.sameMem_mainWritten job xs out a
  | _ => exact {}

theorem State.sameMem_streamAnswer (s : State) (a : StreamAnswer) : s.SameMem (s.streamAnswer a) := by
  obtain ⟨r, -, hs⟩ | hs := s.streamAnswer_cases a <;> rw [hs]
  · exact .trans {} ((s.log _).sameMem_streamResponse a)
  · exact {}

/-! ## The step -/

/-- The events that can change MEM in a step from `s` to `t`. -/
def Event.writesMem (s t : State) : Event → Prop
  | .rst => True
  | .regWrite off w => s.busy = false ∧ t.done = true ∧ regAt off = .cmd ∧ decode w = .ok .combine
  | .memPort m => s.memHeld = false ∧ ∃ a v, m = .write a v
  | .entropy a => (∃ b, a = .byte b) ∧ s.memHeld = true ∧ t.busy = false ∧ t.done = true
  | .memStep => s.memHeld = false ∧ ∃ a v, s.heldMem.head? = some (.write a v)
  | .regRead _ | .stream _ | .lateEntropy _ | .lateStream _ => False

theorem State.sameMem_or_write_of_memAccess (s : State) (m : MemTxn) :
    s.SameMem (s.memAccess m) ∨ s.memHeld = false ∧ ∃ a v, m = .write a v := by
  cases held : s.memHeld with
  | true =>
    rw [State.memAccess_of_held held]
    exact .inl {}
  | false =>
    rw [State.memAccess_of_free held]
    exact (s.sameMem_or_write_of_carryOut m).imp_right fun write => ⟨rfl, write⟩

/-- Releasing a transaction changes MEM only if it is a write. -/
theorem State.sameMem_or_write_of_withHeld (s : State) {m : MemTxn} {waiting : List MemTxn} (oldest : s.heldMem = m :: waiting) :
    s.SameMem ((s.withHeld waiting).carryOut m) ∨ ∃ a v, s.heldMem.head? = some (.write a v) := by
  obtain same | ⟨a, v, rfl⟩ := (s.withHeld waiting).sameMem_or_write_of_carryOut m
  · exact .inl (.trans {} same)
  · exact .inr ⟨a, v, by rw [oldest, List.head?_cons]⟩

theorem State.Handled.sameMem_or_writesMem {s t : State} {e : Event} (h : s.Handled e t) : s.SameMem t ∨ e.writesMem s t := by
  cases h with
  | hardReset => exact .inr trivial
  | @command off w i _ cmd idle decoded run =>
    obtain same | ⟨rfl, done⟩ := State.sameMem_or_combine_of_runs (exec_runs run)
    · exact .inl (.trans {} same)
    · exact .inr ⟨idle, done, cmd, decoded⟩
  | stored => exact .inl (s.sameMem_storeReg _ _)
  | read off => exact .inl (s.sameMem_hostRead off)
  | memPort m => exact s.sameMem_or_write_of_memAccess m
  | entropy a =>
    cases a with
    | fail => exact .inl s.sameMem_entropyAnswer_fail
    | byte b => exact (s.sameMemOrSplit_entropyAnswer_byte b).imp_right fun ended => ⟨⟨b, rfl⟩, ended⟩
  | stream a => exact .inl (s.sameMem_streamAnswer a)
  | memStep =>
    obtain ⟨m, waiting, oldest, free, hs⟩ | ⟨-, hs⟩ := s.releaseHeld_cases <;> rw [hs]
    · exact (s.sameMem_or_write_of_withHeld oldest).imp_right fun write => ⟨free, write⟩
    · exact .inl {}
  | _ => exact .inl {}

/-- Settles O23: the event that the step handles, or the transaction that it releases, is one that can write MEM. -/
theorem onlySplitCombineAndTheHostChangeMem : Obligations.OnlySplitCombineAndTheHostChangeMem := by
  intro s t h changed
  obtain ⟨e, rest, next, -, hs⟩ | ⟨m, waiting, oldest, free, -, hs⟩ | ⟨-, -, hs⟩ := step_cases s
  · rw [next]
    obtain same | writes := (State.handled_of_handle (hs ▸ h)).sameMem_or_writesMem
    · exact absurd changed (State.SameMem.trans (s := s) {} same).unchanged
    · cases e with
      | rst => exact .inl rfl
      | memPort m =>
        obtain ⟨free, a, v, rfl⟩ := writes
        exact .inr (.inl ⟨free, a, v, .inl rfl⟩)
      | memStep =>
        obtain ⟨free, a, v, oldest⟩ := writes
        exact .inr (.inl ⟨free, a, v, .inr oldest⟩)
      | entropy a =>
        obtain ⟨⟨b, rfl⟩, held, idle, done⟩ := writes
        exact .inr (.inr (.inl ⟨held, idle, done, b, rfl⟩))
      | regWrite off w =>
        obtain ⟨idle, done, cmd, combine⟩ := writes
        exact .inr (.inr (.inr ⟨idle, done, off, w, rfl, cmd, combine⟩))
      | _ => exact writes.elim
  · cases hs.symm.trans h
    obtain same | ⟨a, v, write⟩ := s.sameMem_or_write_of_withHeld oldest
    · exact absurd changed same.unchanged
    · exact .inr (.inl ⟨free, a, v, .inr write⟩)
  · cases hs.symm.trans h
    exact absurd changed (State.SameMem.unchanged {})

end Sys2Proof.Machine
end

section
/-! The encoding (30_encoding.md R111 to R117). A word and its fields determine each other, so a row of the opcode map, which selects by
mask and match, is held against the field-wise check by comparing fields (`OpRow.selects_iff`). `decode_cases` says once what decoding
answers. -/

namespace Sys2Proof

/-! ## A word and its fields -/

@[simp] theorem packFields_fieldsOf (w : Word) : packFields (fieldsOf w) = w := by
  simp only [packFields, fieldsOf, opcOf, rdOf, raOf, rbOf, rsvOf, immOf]
  iterate 5 rw [BitVec.extractLsb'_append_extractLsb'_eq_extractLsb' (by decide)]
  exact BitVec.extractLsb'_eq_self

@[simp] theorem fieldsOf_packFields (f : Fields) : fieldsOf (packFields f) = f := by
  obtain ⟨opc, rd, ra, rb, rsv, imm8⟩ := f
  simp only [fieldsOf, opcOf, rdOf, raOf, rbOf, rsvOf, immOf, packFields, Fields.mk.injEq]
  refine ⟨?opc, ?rd, ?ra, ?rb, ?rsv, ?imm8⟩
  all_goals repeat rw [BitVec.extractLsb'_append_eq_of_le (by decide)]
  case opc => exact BitVec.extractLsb'_eq_self
  all_goals exact BitVec.extractLsb'_append_eq_right

theorem fieldsOf_injective : Function.Injective fieldsOf :=
  Function.LeftInverse.injective packFields_fieldsOf

theorem fieldsOf_encode (i : Instr) : fieldsOf (encode i) = fieldsFor i := fieldsOf_packFields _

@[simp] theorem opcOf_encode (i : Instr) : opcOf (encode i) = (fieldsFor i).opc := congrArg Fields.opc (fieldsOf_encode i)
@[simp] theorem rdOf_encode (i : Instr) : rdOf (encode i) = (fieldsFor i).rd := congrArg Fields.rd (fieldsOf_encode i)
@[simp] theorem raOf_encode (i : Instr) : raOf (encode i) = (fieldsFor i).ra := congrArg Fields.ra (fieldsOf_encode i)
@[simp] theorem rbOf_encode (i : Instr) : rbOf (encode i) = (fieldsFor i).rb := congrArg Fields.rb (fieldsOf_encode i)
@[simp] theorem immOf_encode (i : Instr) : immOf (encode i) = (fieldsFor i).imm8 := congrArg Fields.imm8 (fieldsOf_encode i)

theorem legal_fieldsOf_iff {w : Word} :
    (fieldsOf w).legal = true ↔ ∃ fmt, Format.ofOpcode (opcOf w) = some fmt ∧ (fieldsOf w).wellFormed fmt = true := by
  rw [Fields.legal, show opcOf w = (fieldsOf w).opc from rfl]
  cases Format.ofOpcode (fieldsOf w).opc <;> simp

section
open Laws.LegalFields

theorem legal_fieldsFor (i : Instr) : (fieldsFor i).legal = true :=
  match i with
  | .nop => nop | .split => split | .combine => combine | .ssplit => ssplit | .scomb => scomb
  | .ldi rd imm => ldi rd imm | .pnew ra degree => pnew ra degree | .pseti ra => pseti ra
  | .ginv rd ra => ginv rd ra | .peval rd ra => peval rd ra
  | .gadd rd ra rb => gadd rd ra rb | .gmul rd ra rb => gmul rd ra rb | .gdiv rd ra rb => gdiv rd ra rb

end

theorem ofOpcode_opcodeOf (i : Instr) : Format.ofOpcode (opcodeOf i) = some (formatOf i) := by
  cases i <;> rfl

/-! ## Mask and match -/

/-- Bitwise and, field by field. -/
def Fields.and (f g : Fields) : Fields :=
  { opc := f.opc &&& g.opc, rd := f.rd &&& g.rd, ra := f.ra &&& g.ra, rb := f.rb &&& g.rb, rsv := f.rsv &&& g.rsv,
    imm8 := f.imm8 &&& g.imm8 }

theorem fieldsOf_and (w v : Word) : fieldsOf (w &&& v) = (fieldsOf w).and (fieldsOf v) := by
  simp [fieldsOf, Fields.and, opcOf, rdOf, raOf, rbOf, rsvOf, immOf, BitVec.extractLsb'_and]

/-- The fields of each format's mask: ones in the opcode and in the must-be-zero fields (30_encoding.md R112). -/
def Format.mask : Format → Fields
  | .n   => ⟨.allOnes 8, .allOnes 4, .allOnes 4, .allOnes 4, .allOnes 4, .allOnes 8⟩
  | .r3  => ⟨.allOnes 8, 0, 0, 0, .allOnes 4, .allOnes 8⟩
  | .r2  => ⟨.allOnes 8, 0, 0, .allOnes 4, .allOnes 4, .allOnes 8⟩
  | .r1a => ⟨.allOnes 8, .allOnes 4, 0, .allOnes 4, .allOnes 4, .allOnes 8⟩
  | .i   => ⟨.allOnes 8, 0, .allOnes 4, .allOnes 4, .allOnes 4, 0⟩
  | .ai  => ⟨.allOnes 8, .allOnes 4, 0, .allOnes 4, .allOnes 4, 0⟩

theorem Fields.and_mask_eq_iff (f : Fields) (fmt : Format) (opc : BitVec 8) :
    f.and fmt.mask = ⟨opc, 0, 0, 0, 0, 0⟩ ↔ f.opc = opc ∧ f.wellFormed fmt = true := by
  cases fmt <;> simp [Fields.and, Format.mask, Fields.wellFormed, and_assoc, -BitVec.reduceAllOnes]

/-- R115: a row's mask is that of its opcode's format, and its match value has the opcode in bits 31:24 and zeros elsewhere. -/
theorem fieldsOf_mask_and_pattern : ∀ r ∈ opRows,
    (Format.ofOpcode (opcOf r.pattern)).map Format.mask = some (fieldsOf r.mask) ∧
      fieldsOf r.pattern = ⟨opcOf r.pattern, 0, 0, 0, 0, 0⟩ := by
  decide

theorem any_opRows_opcOf : ∀ opc : BitVec 8,
    (opRows.any fun r => opcOf r.pattern == opc) = (Format.ofOpcode opc).isSome := by
  decide

/-- R116: the rows' opcodes are distinct. -/
theorem opRows_eq_of_opcOf_eq {r q : OpRow} (hr : r ∈ opRows) (hq : q ∈ opRows) (same : opcOf r.pattern = opcOf q.pattern) :
    r = q := by
  have distinct : (opRows.map fun r => opcOf r.pattern).Nodup := by decide
  exact List.inj_on_of_nodup_map distinct hr hq same

theorem OpRow.selects_iff {r : OpRow} (row : r ∈ opRows) (w : Word) :
    r.selects w = true ↔ opcOf r.pattern = opcOf w ∧ (fieldsOf w).legal = true := by
  obtain ⟨mask, pattern⟩ := fieldsOf_mask_and_pattern r row
  obtain ⟨fmt, format, mask⟩ := Option.map_eq_some_iff.mp mask
  calc r.selects w = true
    _ ↔ fieldsOf (w &&& r.mask) = fieldsOf r.pattern := by rw [fieldsOf_injective.eq_iff, OpRow.selects, beq_iff_eq]
    _ ↔ (fieldsOf w).opc = opcOf r.pattern ∧ (fieldsOf w).wellFormed fmt = true := by
      rw [fieldsOf_and, ← mask, pattern, Fields.and_mask_eq_iff]
    _ ↔ opcOf r.pattern = opcOf w ∧ (fieldsOf w).legal = true := by
      rw [eq_comm, legal_fieldsOf_iff]
      refine and_congr_right fun (same : opcOf r.pattern = opcOf w) => ?_
      simp [← same, format]

/-! ## Decoding -/

/-- What decoding answers (30_encoding.md R116). -/
theorem decode_cases (w : Word) :
    (∃ r ∈ opRows, opcOf r.pattern = opcOf w ∧ (fieldsOf w).legal = true ∧ decode w = .ok (r.build w)) ∨
    (Format.ofOpcode (opcOf w) = none ∧ decode w = .error .reservedOpcode) ∨
    (∃ fmt, Format.ofOpcode (opcOf w) = some fmt ∧ (fieldsOf w).wellFormed fmt = false ∧ decode w = .error .reservedBitSet) := by
  unfold decode
  cases found : opRows.find? (fun r => r.selects w) with
  | some r =>
    have row := List.mem_of_find?_eq_some found
    obtain ⟨opc, legal⟩ := (OpRow.selects_iff row w).mp (List.find?_some found :)
    exact .inl ⟨r, row, opc, legal, rfl⟩
  | none =>
    have rows := any_opRows_opcOf (opcOf w)
    cases format : Format.ofOpcode (opcOf w) with
    | none => exact .inr (.inl ⟨rfl, by simp [rows, format]⟩)
    | some fmt =>
      rw [format, Option.isSome_some] at rows
      refine .inr (.inr ⟨fmt, rfl, ?_, by rw [rows]; rfl⟩)
      obtain ⟨r, row, opc⟩ := List.any_eq_true.mp rows
      rw [← Bool.not_eq_true]
      intro wellFormed
      have selected := (OpRow.selects_iff row w).mpr ⟨beq_iff_eq.mp opc, legal_fieldsOf_iff.mpr ⟨fmt, format, wellFormed⟩⟩
      exact List.find?_eq_none.mp found r row selected

theorem decode_eq_ok_iff {w : Word} {i : Instr} :
    decode w = .ok i ↔ (fieldsOf w).legal = true ∧ ∃ r ∈ opRows, opcOf r.pattern = opcOf w ∧ r.build w = i := by
  obtain ⟨r, row, opc, legal, answer⟩ | ⟨format, answer⟩ | ⟨fmt, format, illFormed, answer⟩ := decode_cases w
  · rw [answer, Except.ok.injEq]
    constructor
    · exact fun built => ⟨legal, r, row, opc, built⟩
    · rintro ⟨-, q, hq, same, built⟩
      rw [opRows_eq_of_opcOf_eq row hq (opc.trans same.symm), built]
  · simp [answer, legal_fieldsOf_iff, format]
  · simp [answer, legal_fieldsOf_iff, format, illFormed]

theorem exists_row_build_encode (i : Instr) : ∃ r ∈ opRows, opcOf r.pattern = opcOf (encode i) ∧ r.build (encode i) = i := by
  rw [opcOf_encode]
  cases i <;> simp [opRows, opcOf, fieldsFor, opcodeOf]

theorem decode_encode (i : Instr) : decode (encode i) = .ok i := by
  refine decode_eq_ok_iff.mpr ⟨?_, exists_row_build_encode i⟩
  rw [fieldsOf_encode]
  exact legal_fieldsFor i

theorem opcodeOf_build {r : OpRow} (row : r ∈ opRows) (w : Word) : opcodeOf (r.build w) = opcOf r.pattern :=
  List.map_inj_left.mp (show opRows.map (fun r => opcodeOf (r.build w)) = opRows.map (fun r => opcOf r.pattern) from rfl) r row

/-- What a row leaves out of the command it builds is zero in a legal word. -/
theorem fieldsFor_build {r : OpRow} (row : r ∈ opRows) {w : Word} (opc : opcOf r.pattern = opcOf w)
    (legal : (fieldsOf w).legal = true) : fieldsFor (r.build w) = fieldsOf w := by
  have opcode : opcodeOf (r.build w) = opcOf w := (opcodeOf_build row w).trans opc
  obtain ⟨fmt, format, wellFormed⟩ := legal_fieldsOf_iff.mp legal
  rw [← opcode, ofOpcode_opcodeOf, Option.some.injEq] at format
  subst format
  simp only [opRows, List.mem_cons, List.not_mem_nil, or_false] at row
  obtain rfl | rfl | rfl | rfl | rfl | rfl | rfl | rfl | rfl | rfl | rfl | rfl | rfl := row <;>
    simp_all [Fields.wellFormed, formatOf, fieldsFor, fieldsOf]

theorem encode_of_decode {w : Word} {i : Instr} (decoded : decode w = .ok i) : encode i = w := by
  obtain ⟨legal, r, row, opc, rfl⟩ := decode_eq_ok_iff.mp decoded
  rw [encode, fieldsFor_build row opc legal, packFields_fieldsOf]

/-- Settles O1: the row of a command's opcode builds it back, and a legal word holds nothing but the fields of what it decodes to. -/
theorem encodeAndDecodeAgree : Obligations.EncodeAndDecodeAgree :=
  ⟨decode_encode, fun _ _ => encode_of_decode⟩

/-- Settles O2: each of the three answers comes with its own condition on the fields, and the conditions exclude each other. -/
theorem decodeAcceptsExactlyLegalFields : Obligations.DecodeAcceptsExactlyLegalFields := by
  intro w
  rw [legal_fieldsOf_iff]
  obtain ⟨r, -, -, legal, answer⟩ | ⟨format, answer⟩ | ⟨fmt, format, illFormed, answer⟩ := decode_cases w
  · obtain ⟨fmt, format, wellFormed⟩ := legal_fieldsOf_iff.mp legal
    simp [answer, format, wellFormed]
  · simp [answer, format]
  · simp [answer, format, illFormed]

/-- Settles O3: each legal example is the encoding of its command; the two ILLEGAL words are evaluated. -/
theorem encodingExamplesDecode : Obligations.EncodingExamplesDecode :=
  ⟨decode_encode (.ldi 1 0x53), decode_encode (.gmul 3 1 2), decode_encode (.gdiv 5 3 1), decode_encode (.ginv 4 1),
    decode_encode (.pnew 1 1), decode_encode (.pseti 5), decode_encode (.peval 3 2), decode_encode .split, by decide, by decide⟩

end Sys2Proof
end

section
/-! The unit's control of its commands (40_unit.md R140, R141): every event has a next state, and the host's write to CMD runs the command
it decodes to or ends an ILLEGAL word. -/

namespace Sys2Proof.Machine

/-! ## Every event has a next state -/

/-- No command has an arm that faults or refuses. -/
theorem exec_next (i : Instr) (s : State) : ∃ t, exec i s = .next t := by
  cases i <;> exact ⟨_, rfl⟩

theorem State.submit_next (s : State) (w : Word) : ∃ t, s.submit w = .next t := by
  obtain ⟨-, hs⟩ | ⟨-, i, -, hs⟩ | ⟨-, _, -, hs⟩ := s.submit_cases w <;> rw [hs]
  · exact ⟨_, rfl⟩
  · exact exec_next i _
  · exact ⟨_, rfl⟩

theorem State.handle_next (s : State) (e : Event) : ∃ t, s.handle e = .next t := by
  cases e with
  | regWrite off w =>
    obtain ⟨-, hs⟩ | ⟨-, hs⟩ := s.regWrite_cases off w <;> rw [State.handle, hs]
    · exact s.submit_next w
    · exact ⟨_, rfl⟩
  | _ => exact ⟨_, rfl⟩

/-- Settles O8: only an event could stop the machine, only a write to CMD runs a command, and `exec` answers for every command. -/
theorem everyStepHasANextState : Obligations.EveryStepHasANextState := by
  intro s
  obtain ⟨e, rest, -, -, hs⟩ | ⟨m, rest, -, -, -, hs⟩ | ⟨-, -, hs⟩ := step_cases s <;> rw [hs]
  · exact (s.withAgenda rest).handle_next e
  · exact ⟨_, rfl⟩
  · exact ⟨_, rfl⟩

/-! ## Acceptance -/

section

variable {s : State} {w : Word}

theorem State.submit_of_decode_ok {i : Instr} (idle : s.busy = false) (decoded : decode w = .ok i) :
    s.submit w = exec i (s.accept w) := by
  rw [State.submit, idle, decoded]
  rfl

theorem State.submit_of_decode_error {e : Illegal} (idle : s.busy = false) (illegal : decode w = .error e) :
    s.submit w = .next ((s.accept w).raise .illegalCommand) := by
  rw [State.submit, idle, illegal]
  rfl

theorem step_regWrite_cmd {off : BitVec 12} {rest : List Event} (next : s.eventIsNext (.regWrite off w) rest)
    (cmd : regAt off = .cmd) : step s = (s.withAgenda rest).submit w := by
  obtain ⟨-, hs⟩ | ⟨notCmd, -⟩ := (s.withAgenda rest).regWrite_cases off w
  · exact (step_of_event next.1 next.2).trans hs
  · exact absurd cmd notCmd

end

/-- Settles O4: the write to CMD is submitted, and an idle unit runs what it decodes to. -/
theorem stepRunsTheAcceptedCommand : Obligations.StepRunsTheAcceptedCommand := by
  intro s off w rest i next cmd idle decoded
  rw [step_regWrite_cmd next cmd]
  exact State.submit_of_decode_ok (s := s.withAgenda rest) idle decoded

/-- In an idle unit success completion touches only ERRCODE, DONE and ERR (60_exceptions.md R302). -/
theorem State.complete_of_idle {s : State} (idle : s.busy = false) :
    s.complete = { s with errcode := 0, done := true, err := false } := by
  rw [State.complete, ← s.busy_eq_false_iff.mp idle]

/-- In an idle unit error completion touches only ERRCODE, DONE and ERR (60_exceptions.md R303). -/
theorem State.raise_of_idle {s : State} (idle : s.busy = false) (e : ErrorKind) :
    s.raise e = { s with errcode := e.code, done := false, err := true } := by
  rw [State.raise, ← s.busy_eq_false_iff.mp idle]

theorem endsIllegal_of_decode_error {w : Word} {e : Illegal} (illegal : decode w = .error e) : endsIllegal w := by
  intro s idle
  rw [State.submit_of_decode_error idle illegal, State.raise_of_idle (s := s.accept w) idle]
  rfl

/-- A word of a defined opcode with a must-be-zero bit set is ILLEGAL, and the unit ends it (30_encoding.md R116, 60_exceptions.md R314). -/
theorem illegal_of_illFormed {w : Word} {opc : BitVec 8} {fmt : Format} (opcode : opcOf w = opc)
    (format : Format.ofOpcode opc = some fmt) (illFormed : ¬(fieldsOf w).wellFormed fmt = true) :
    decode w = .error .reservedBitSet ∧ endsIllegal w := by
  have illegal : decode w = .error .reservedBitSet :=
    (decodeAcceptsExactlyLegalFields w).2.2.mpr ⟨fmt, opcode ▸ format, Bool.not_eq_true _ ▸ illFormed⟩
  exact ⟨illegal, endsIllegal_of_decode_error illegal⟩

end Sys2Proof.Machine
end

section
/-! NOP and LDI (40_unit.md R143, R144): their words, and what they do in an idle unit. -/

namespace Sys2Proof.Machine

/-! ## NOP -/

theorem encode_nop : encode .nop = 0 := by decide

/-- In NOP's format every field but the opcode must be zero. -/
theorem eq_zero_of_wellFormed_n {w : Word} (opcode : opcOf w = 0x00) (wellFormed : (fieldsOf w).wellFormed .n = true) : w = 0 := by
  have fields : fieldsOf w = fieldsFor .nop := by
    simpa [Fields.wellFormed, fieldsOf, fieldsFor, opcodeOf, opcode, and_assoc] using wellFormed
  rw [← packFields_fieldsOf w, fields]
  exact encode_nop

theorem exec_nop_of_idle {s : State} (idle : s.busy = false) :
    exec .nop s = .next { s with errcode := 0, done := true, err := false } :=
  congrArg _ (State.complete_of_idle idle)

/-- Settles O31: 0 is NOP's encoding and the only well-formed word of its opcode; acceptance then runs it, and it completes. -/
theorem nopOnlyCompletes : Obligations.NopOnlyCompletes := by
  have decoded : decode 0x00000000 = .ok .nop := encode_nop ▸ decode_encode .nop
  refine ⟨decoded, fun w opcode ne => ?_, fun s => exec_nop_of_idle, fun s rest idle next => ?_⟩
  · exact illegal_of_illFormed opcode rfl fun wellFormed => ne (eq_zero_of_wellFormed_n opcode wellFormed)
  · rw [stepRunsTheAcceptedCommand s _ _ rest .nop next rfl idle decoded]
    exact exec_nop_of_idle idle

/-! ## LDI -/

/-- Two runs of zero bits in a row are one run. -/
theorem append_zero_append_zero {n : Nat} (x : BitVec n) (k l : Nat) :
    x ++ 0#k ++ 0#l = (x ++ 0#(k + l)).cast (Nat.add_assoc n k l).symm := by
  rw [BitVec.append_assoc, BitVec.zero_append_zero]

theorem encode_ldi (rd : Reg) (imm : Byte) : encode (.ldi rd imm) = 0x01#8 ++ rd ++ 0#12 ++ imm := by
  show 0x01#8 ++ rd ++ 0#4 ++ 0#4 ++ 0#4 ++ imm = _
  rw [append_zero_append_zero, append_zero_append_zero]
  rfl

/-- Bits 19:8 are RA, RB and RSV. -/
theorem extractLsb'_eq_zero_of_wellFormed_i {w : Word} (wellFormed : (fieldsOf w).wellFormed .i = true) :
    w.extractLsb' 8 12 = 0 := by
  have bits : w.extractLsb' 8 12 = raOf w ++ rbOf w ++ rsvOf w := by
    simp only [raOf, rbOf, rsvOf]
    iterate 2 rw [BitVec.extractLsb'_append_extractLsb'_eq_extractLsb' (by decide)]
  have zero : (raOf w = 0 ∧ rbOf w = 0) ∧ rsvOf w = 0 := by
    simpa [Fields.wellFormed, fieldsOf] using wellFormed
  obtain ⟨⟨ra, rb⟩, rsv⟩ := zero
  rw [bits, ra, rb, rsv]
  rfl

/-- Settles O32: the word is LDI's encoding, a bit of 19:8 breaks its format, and the byte is in G[rd] when the command completes. -/
theorem ldiLoadsTheImmediate : Obligations.LdiLoadsTheImmediate := by
  refine ⟨fun rd imm => ?_, fun w opcode ne => ?_, fun s rd imm idle => ⟨?_, s.getG_setG_same rd imm⟩, decode_encode (.ldi 7 0xFF)⟩
  · exact encode_ldi rd imm ▸ decode_encode (.ldi rd imm)
  · exact illegal_of_illFormed opcode rfl fun wellFormed => ne (extractLsb'_eq_zero_of_wellFormed_i wellFormed)
  · exact congrArg _ (State.complete_of_idle (s := s.setG rd imm) idle)

end Sys2Proof.Machine
end

section
/-! The frame of the commands that end in their acceptance and touch registers only (41_field.md section 2, 40_unit.md R143, R144,
42_polynomial.md R192, R193). -/

namespace Sys2Proof.Machine

/-- The commands that end in their acceptance and touch G, C and the completion bits alone. -/
def registersOnly : Instr → Prop
  | .nop | .ldi _ _ | .gadd _ _ _ | .gmul _ _ _ | .gdiv _ _ _ | .ginv _ _ | .pseti _ | .peval _ _ => True
  | .pnew _ _ | .split | .combine | .ssplit | .scomb => False

/-- Such a command, run to its end or failed, leaves every field but those as it was. -/
theorem State.registersOnly_of_runs {s t : State} {i : Instr} (runs : s.Runs i t) (only : registersOnly i) :
    ∃ g gWritten c done err errcode, t = { s with
      g := g, gWritten := gWritten, c := c, done := done, err := err, errcode := errcode, fsm := .idle } := by
  cases runs with
  | failed | nop | wroteG | setIntercept => exact ⟨_, _, _, _, _, _, rfl⟩
  | _ => exact only.elim

/-- The only coefficient a command changes at its acceptance is C[0], and only PSETI and a PNEW of degree 0 do (42_polynomial.md R191,
R192). -/
theorem State.writesC_of_runs {s t : State} {i : Instr} (runs : s.Runs i t) {k : Fin 255} (changed : t.c[k] ≠ s.c[k]) :
    k = 0 ∧ ((∃ ra, i = .pseti ra) ∨ ∃ ra, i = .pnew ra 0) := by
  have atZero (v : Byte) (changed : (s.c.setIfInBounds 0 v)[k] ≠ s.c[k]) : k = 0 := by
    by_contra other
    exact changed (Vector.getElem_setIfInBounds_ne _ fun same => other (Fin.ext same.symm))
  cases runs with
  | setIntercept ra => exact ⟨atZero _ changed, .inl ⟨ra, rfl⟩⟩
  | constantPoly ra => exact ⟨atZero _ changed, .inr ⟨ra, rfl⟩⟩
  | combined => simp [State.finishCombine] at changed
  | _ => exact absurd rfl changed

/-- Settles O40: G and C by what a command may write there, every other register by `State.registersOnly_of_runs`. -/
theorem registerCommandsFrame : Obligations.RegisterCommandsFrame := by
  intro i s t allowed h
  have runs := exec_runs h
  have only : registersOnly i := by cases i <;> exact allowed
  have g : ∀ r, destOf i ≠ some r → t.getG r = s.getG r := fun _ => State.getG_of_runs runs
  have c : ∀ k : Fin 255, (∀ ra, i = .pseti ra → k ≠ 0) → t.c[k] = s.c[k] := by
    intro k kept
    by_contra changed
    obtain ⟨zero, ⟨ra, rfl⟩ | ⟨ra, rfl⟩⟩ := State.writesC_of_runs runs changed
    · exact kept ra rfl zero
    · exact only
  obtain ⟨_, _, _, _, _, _, rfl⟩ := State.registersOnly_of_runs runs only
  exact ⟨g, fun _ => rfl, fun _ => rfl, rfl, rfl, rfl, rfl, rfl, rfl, rfl, c, rfl, rfl, rfl, rfl, rfl, rfl, rfl, rfl, rfl, rfl, rfl,
    rfl, rfl⟩

end Sys2Proof.Machine
end

section
/-! Numbers as polynomials over GF(2) (41_field.md R162: bit i is the coefficient of x^i), and trial division among them
(00_scope.md R7): every legal POLY is irreducible. -/

namespace Sys2Proof

open Polynomial

/-! ## Bits as coefficients -/

/-- The polynomial over GF(2) whose coefficients are the bits of `n`. -/
noncomputable def bitPoly (n : ℕ) : (ZMod 2)[X] := ∑ i ∈ Finset.range n, if n.testBit i then X ^ i else 0

theorem coeff_bitPoly (n i : ℕ) : (bitPoly n).coeff i = if n.testBit i then 1 else 0 := by
  have term (j : ℕ) : (if n.testBit j then (X : (ZMod 2)[X]) ^ j else 0).coeff i =
      if i = j then if n.testBit i then 1 else 0 else 0 := by
    split <;> simp_all [coeff_X_pow]
  rw [bitPoly, finsetSum_coeff, Finset.sum_congr rfl fun j _ => term j, Finset.sum_ite_eq]
  refine ite_eq_left_iff.mpr fun outside => ?_
  rw [Nat.testBit_lt_two_pow ((not_lt.mp (mt Finset.mem_range.mpr outside)).trans_lt Nat.lt_two_pow_self)]
  rfl

@[simp] theorem bitPoly_zero : bitPoly 0 = 0 := rfl

theorem bitPoly_two_pow (k : ℕ) : bitPoly (2 ^ k) = X ^ k := by
  ext i
  simp [coeff_bitPoly, coeff_X_pow, Nat.testBit_two_pow, eq_comm]

@[simp] theorem bitPoly_one : bitPoly 1 = 1 := bitPoly_two_pow 0

@[simp] theorem bitPoly_xor (a b : ℕ) : bitPoly (a ^^^ b) = bitPoly a + bitPoly b := by
  ext i
  rw [coeff_add, coeff_bitPoly, coeff_bitPoly, coeff_bitPoly, Nat.testBit_xor]
  cases a.testBit i <;> cases b.testBit i <;> decide

@[simp] theorem bitPoly_shiftLeft (a k : ℕ) : bitPoly (a <<< k) = bitPoly a * X ^ k := by
  ext i
  simp [coeff_mul_X_pow', coeff_bitPoly, Nat.testBit_shiftLeft, ite_and]

/-- The coefficients up to `k`, out of those below `k`. -/
theorem bitPoly_mod_two_pow_succ (n k : ℕ) :
    bitPoly (n % 2 ^ (k + 1)) = bitPoly (n % 2 ^ k) + if n.testBit k then X ^ k else 0 := by
  ext i
  rw [coeff_add, coeff_bitPoly, coeff_bitPoly, Nat.testBit_mod_two_pow, Nat.testBit_mod_two_pow]
  obtain lt | rfl | gt := lt_trichotomy i k
  · cases n.testBit k <;> simp [coeff_X_pow, lt, lt.ne, Nat.lt_succ_of_lt lt]
  · cases h : n.testBit i <;> simp
  · cases n.testBit k <;> simp [coeff_X_pow, gt.ne', gt.not_gt, Nat.not_lt.mpr (Nat.succ_le_of_lt gt)]

theorem degree_bitPoly_lt_iff {n k : ℕ} : (bitPoly n).degree < k ↔ n < 2 ^ k := by
  rw [degree_lt_iff_coeff_zero]
  simp only [coeff_bitPoly, ite_eq_right_iff, one_ne_zero, imp_false, Bool.not_eq_true]
  exact ⟨Nat.lt_pow_two_of_testBit n, fun lt i le => Nat.testBit_lt_two_pow (lt.trans_le (Nat.pow_le_pow_right two_pos le))⟩

theorem bitPoly_eq_zero_iff {n : ℕ} : bitPoly n = 0 ↔ n = 0 := by
  have lt := degree_bitPoly_lt_iff (n := n) (k := 0)
  rwa [Nat.cast_zero, Nat.WithBot.lt_zero_iff, degree_eq_bot, pow_zero, Nat.lt_one_iff] at lt

theorem bitPoly_surjective (f : (ZMod 2)[X]) : ∃ n, bitPoly n = f := by
  induction f using Polynomial.induction_on with
  | C c =>
    obtain rfl | rfl : c = 0 ∨ c = 1 := by revert c; decide
    · exact ⟨0, C_0.symm⟩
    · exact ⟨1, bitPoly_one⟩
  | add f g hf hg =>
    obtain ⟨⟨a, rfl⟩, ⟨b, rfl⟩⟩ := And.intro hf hg
    exact ⟨a ^^^ b, bitPoly_xor a b⟩
  | monomial k c h =>
    obtain ⟨n, hn⟩ := h
    exact ⟨n <<< 1, by rw [bitPoly_shiftLeft, hn, pow_one, mul_assoc, pow_succ]⟩

theorem natDegree_bitPoly (n : ℕ) : (bitPoly n).natDegree = n.log2 := by
  obtain rfl | nonzero := eq_or_ne n 0
  · simp
  · refine natDegree_eq_of_le_of_coeff_ne_zero ?_ (by simp [coeff_bitPoly, Nat.testBit_log2 nonzero])
    exact natDegree_le_of_degree_le (Order.lt_succ_iff.mp (degree_bitPoly_lt_iff.mpr Nat.lt_log2_self))

theorem monic_bitPoly {n : ℕ} (nonzero : n ≠ 0) : (bitPoly n).Monic := by
  rw [Monic, leadingCoeff, natDegree_bitPoly, coeff_bitPoly, Nat.testBit_log2 nonzero]
  rfl

/-! ## Trial division -/

/-- XOR with a number of the same top bit clears that bit (41_field.md R162). -/
theorem ite_xor_lt_two_pow {a b m : ℕ} (ha : a < 2 ^ (m + 1)) (hb : b < 2 ^ (m + 1)) (top : b.testBit m = true) :
    (if a.testBit m then a ^^^ b else a) < 2 ^ m := by
  refine Nat.lt_pow_two_of_testBit _ fun i le => ?_
  obtain rfl | lt := le.eq_or_lt
  · split <;> simp_all
  · have above {c : ℕ} (hc : c < 2 ^ (m + 1)) : c.testBit i = false :=
      Nat.testBit_lt_two_pow (hc.trans_le (Nat.pow_le_pow_right two_pos lt))
    split <;> simp [above ha, above hb]

theorem Poly.remainder_lt {a d k : ℕ} (nonzero : d ≠ 0) (lt : a < 2 ^ (k + d.log2)) :
    Poly.remainder a d (d.log2 + 1) k < 2 ^ d.log2 := by
  induction k generalizing a with
  | zero => simpa [Poly.remainder] using lt
  | succ k ih =>
    refine ih (ite_xor_lt_two_pow (b := d <<< k) ?_ ?_ ?_)
    · rwa [add_right_comm] at lt
    · show d <<< k < 2 ^ (k + (d.log2 + 1))
      rw [Nat.shiftLeft_eq, mul_comm, pow_add]
      exact Nat.mul_lt_mul_of_pos_left Nat.lt_log2_self (Nat.two_pow_pos k)
    · simp [Nat.testBit_log2 nonzero]

theorem Poly.mk_bitPoly_remainder (a d len k : ℕ) :
    AdjoinRoot.mk (bitPoly d) (bitPoly (Poly.remainder a d len k)) = AdjoinRoot.mk (bitPoly d) (bitPoly a) := by
  induction k generalizing a with
  | zero => rfl
  | succ k ih =>
    rw [Poly.remainder, ih]
    split <;> simp

/-- A polynomial has only one remainder of lower degree than the divisor. -/
theorem eq_of_mk_bitPoly_eq {a b d : ℕ} (ha : a < 2 ^ d.log2) (hb : b < 2 ^ d.log2)
    (same : AdjoinRoot.mk (bitPoly d) (bitPoly a) = AdjoinRoot.mk (bitPoly d) (bitPoly b)) : a = b := by
  have divides : bitPoly d ∣ bitPoly (a ^^^ b) := by
    rw [bitPoly_xor, ← CharTwo.sub_eq_add]
    exact AdjoinRoot.mk_eq_mk.mp same
  by_contra ne
  have nonzero : a ^^^ b ≠ 0 := mt Nat.xor_eq_zero_iff.mp ne
  have lower : (bitPoly (a ^^^ b)).natDegree < (bitPoly d).natDegree := by
    rw [natDegree_bitPoly, natDegree_bitPoly, Nat.log2_lt nonzero]
    exact Nat.xor_lt_two_pow ha hb
  exact not_dvd_of_natDegree_lt (mt bitPoly_eq_zero_iff.mp nonzero) lower divides

theorem not_bitPoly_dvd_of_remainder_ne_zero {a d k : ℕ} (lt : a < 2 ^ (k + d.log2)) (nonzero : d ≠ 0)
    (rest : Poly.remainder a d (d.log2 + 1) k ≠ 0) : ¬bitPoly d ∣ bitPoly a := by
  intro divides
  refine rest (eq_of_mk_bitPoly_eq (Poly.remainder_lt nonzero lt) (Nat.two_pow_pos _) ?_)
  rw [Poly.mk_bitPoly_remainder, AdjoinRoot.mk_eq_zero.mpr divides, bitPoly_zero, map_zero]

/-! ## The legal polynomials -/

@[simp] theorem Poly.log2_bits (p : Poly) : p.bits.toNat.log2 = 8 := by cases p <;> rfl

theorem Poly.bits_ne_zero (p : Poly) : p.bits.toNat ≠ 0 := by cases p <;> decide

/-- POLY as a polynomial over GF(2). -/
noncomputable abbrev Poly.modulus (p : Poly) : (ZMod 2)[X] := bitPoly p.bits.toNat

/-- The trial division of 00_scope.md R7 leaves a remainder for every divisor of degree 1 to 4. -/
theorem Poly.remainder_bits_ne_zero (p : Poly) {d : ℕ} (ge : 2 ≤ d) (lt : d < 32) :
    Poly.remainder p.bits.toNat d (d.log2 + 1) (10 - (d.log2 + 1)) ≠ 0 := by
  have legal := p.legalBits_bits
  simp only [Poly.legalBits, Bool.and_eq_true, List.all_eq_true, List.mem_range, bne_iff_ne] at legal
  obtain ⟨-, trial⟩ := legal
  simpa only [Nat.sub_add_cancel ge] using trial (d - 2) (by omega)

/-- A factor would have a monic factor of degree 1 to 4 beside it, which the trial division rules out (41_field.md R167). -/
theorem Poly.irreducible_modulus (p : Poly) : Irreducible p.modulus := by
  have monic : p.modulus.Monic := monic_bitPoly p.bits_ne_zero
  have degree : p.modulus.natDegree = 8 := (natDegree_bitPoly _).trans p.log2_bits
  refine (monic.irreducible_iff_lt_natDegree_lt fun one => ?_).mpr fun q monicQ range => ?_
  · simp [one] at degree
  obtain ⟨d, rfl⟩ := bitPoly_surjective q
  have nonzero : d ≠ 0 := mt bitPoly_eq_zero_iff.mpr monicQ.ne_zero
  rw [degree, natDegree_bitPoly, Finset.mem_Ioc] at range
  obtain ⟨pos, le⟩ := range
  have ge : 2 ≤ d := (Nat.le_log2 nonzero (k := 1)).mp pos
  have lt : d < 32 := (Nat.log2_lt nonzero (k := 5)).mp (Nat.lt_succ_of_le le)
  refine not_bitPoly_dvd_of_remainder_ne_zero ?_ nonzero (p.remainder_bits_ne_zero ge lt)
  rw [show 10 - (d.log2 + 1) + d.log2 = 9 by omega]
  exact p.bits.isLt

end Sys2Proof
end

section
/-! The field functions (41_field.md section 1) as arithmetic in GF(2)[x] modulo POLY, which is a field of 256 elements. -/

namespace Sys2Proof.Machine

open Polynomial

/-! ## Bytes as residues modulo POLY -/

/-- GF(2)[x] modulo POLY. -/
abbrev Residues (p : Poly) : Type := AdjoinRoot p.modulus

/-- The residue of a bit vector read as a polynomial (41_field.md R162). -/
noncomputable def residue (p : Poly) {w : ℕ} (v : BitVec w) : Residues p := AdjoinRoot.mk p.modulus (bitPoly v.toNat)

theorem residue_injective (p : Poly) : Function.Injective (residue p (w := 8)) := by
  intro a b same
  exact BitVec.eq_of_toNat_eq (eq_of_mk_bitPoly_eq (p.log2_bits.symm ▸ a.isLt) (p.log2_bits.symm ▸ b.isLt) same)

@[simp] theorem residue_zero (p : Poly) (w : ℕ) : residue p 0#w = 0 := by
  rw [residue, BitVec.toNat_zero, bitPoly_zero, map_zero]

@[simp] theorem residue_one (p : Poly) : residue p 1#8 = 1 := by
  show AdjoinRoot.mk p.modulus (bitPoly 1) = 1
  rw [bitPoly_one, map_one]

@[simp] theorem residue_xor (p : Poly) {w : ℕ} (a b : BitVec w) : residue p (a ^^^ b) = residue p a + residue p b := by
  simp [residue]

theorem residue_setWidth (p : Poly) {w : ℕ} (v : BitVec w) {n : ℕ} (lt : v.toNat < 2 ^ n) :
    residue p (v.setWidth n) = residue p v := by
  rw [residue, residue, BitVec.toNat_setWidth, Nat.mod_eq_of_lt lt]

theorem residue_bits (p : Poly) : residue p p.bits = 0 := AdjoinRoot.mk_self

theorem residue_eq_zero_iff {p : Poly} {a : Byte} : residue p a = 0 ↔ a = 0 :=
  (residue_injective p).eq_iff' (residue_zero p 8)

/-! ## The product -/

/-- A bit vector shifted within a wider one loses no bit. -/
theorem toNat_setWidth_shiftLeft_of_le {n w k : ℕ} (v : BitVec n) (fits : n + k ≤ w) :
    (v.setWidth w <<< k).toNat = v.toNat <<< k := by
  have lt : v.toNat <<< k < 2 ^ w := by
    rw [Nat.shiftLeft_eq]
    calc v.toNat * 2 ^ k < 2 ^ n * 2 ^ k := Nat.mul_lt_mul_of_pos_right v.isLt (Nat.two_pow_pos k)
      _ = 2 ^ (n + k) := (pow_add 2 n k).symm
      _ ≤ 2 ^ w := Nat.pow_le_pow_right two_pos fits
  rw [BitVec.toNat_shiftLeft, BitVec.toNat_setWidth_of_le (by omega), Nat.mod_eq_of_lt lt]

theorem toNat_reduceBit (p : Poly) (v : BitVec 15) {k : ℕ} (le : k ≤ 6) :
    (reduceBit p v (k + 8)).toNat = if v.toNat.testBit (k + 8) then v.toNat ^^^ p.bits.toNat <<< k else v.toNat := by
  rw [reduceBit, BitVec.testBit_toNat, apply_ite BitVec.toNat, BitVec.toNat_xor, Nat.add_sub_cancel,
    toNat_setWidth_shiftLeft_of_le p.bits (by omega)]

/-- The steps of `reduce` from bit k + 7 down to 8 are those of the division by POLY (41_field.md R162). -/
theorem toNat_foldl_reduceBit (p : Poly) (v : BitVec 15) {k : ℕ} (le : k ≤ 7) :
    (((List.range k).reverse.map (· + 8)).foldl (reduceBit p) v).toNat = Poly.remainder v.toNat p.bits.toNat 9 k := by
  induction k generalizing v with
  | zero => rfl
  | succ k ih =>
    rw [List.range_succ, List.reverse_concat, List.map_cons, List.foldl_cons, ih _ (by omega), toNat_reduceBit p v (by omega)]
    rfl

theorem toNat_reduce (p : Poly) (v : BitVec 15) : (reduce p v).toNat = Poly.remainder v.toNat p.bits.toNat 9 7 := by
  have divided := toNat_foldl_reduceBit p v le_rfl
  have small := Poly.remainder_lt (a := v.toNat) (k := 7) p.bits_ne_zero
  rw [p.log2_bits] at small
  rw [← Nat.mod_eq_of_lt (small v.isLt), ← divided]
  rfl

theorem residue_reduce (p : Poly) (v : BitVec 15) : residue p (reduce p v) = residue p v := by
  rw [residue, toNat_reduce, Poly.mk_bitPoly_remainder]
  rfl

/-- The first `n` steps of `clmul` multiply by the low `n` bits of `b` (41_field.md R162). -/
theorem bitPoly_foldl_clmul (a b : Byte) {n : ℕ} (le : n ≤ 8) :
    bitPoly ((List.range n).foldl (fun p i => if b.getLsbD i then p ^^^ (a.setWidth 15 <<< i) else p) 0).toNat =
      bitPoly a.toNat * bitPoly (b.toNat % 2 ^ n) := by
  induction n with
  | zero => simp [Nat.mod_one]
  | succ n ih =>
    rw [List.range_succ, List.foldl_concat, bitPoly_mod_two_pow_succ, mul_add, ← ih (by omega), BitVec.testBit_toNat]
    split
    · rw [BitVec.toNat_xor, bitPoly_xor, toNat_setWidth_shiftLeft_of_le a (by omega), bitPoly_shiftLeft]
    · rw [mul_zero, add_zero]

theorem bitPoly_clmul (a b : Byte) : bitPoly (clmul a b).toNat = bitPoly a.toNat * bitPoly b.toNat := by
  rw [clmul, bitPoly_foldl_clmul a b le_rfl, Nat.mod_eq_of_lt b.isLt]

@[simp] theorem residue_gfmul (p : Poly) (a b : Byte) : residue p (gfmul p a b) = residue p a * residue p b := by
  rw [gfmul, residue_reduce, residue, bitPoly_clmul, map_mul]
  rfl

/-! ## The shift-and-add form -/

/-- In `xtime` the XOR of POLY clears the bit shifted out (41_field.md R163). -/
theorem toNat_shifted_xor_lt (p : Poly) (r : Byte) :
    ((r.setWidth 9 <<< 1) ^^^ if r.getLsbD 7 then p.bits else 0).toNat < 2 ^ 8 := by
  have top : (r.setWidth 9 <<< 1).toNat.testBit 8 = r.getLsbD 7 := by
    rw [BitVec.testBit_toNat]
    simp
  have cleared := ite_xor_lt_two_pow (r.setWidth 9 <<< 1).isLt p.bits.isLt (Poly.getLsbD_bits_eight p)
  rw [top] at cleared
  cases h : r.getLsbD 7 <;> rw [h] at cleared
  · simpa using cleared
  · simpa using cleared

/-- `xtime` multiplies by x: POLY takes away the bit shifted out, and its residue is 0 (41_field.md R163). -/
theorem residue_xtime (p : Poly) (r : Byte) : residue p (xtime p r) = residue p r * AdjoinRoot.root p.modulus := by
  have shifted : residue p (r.setWidth 9 <<< 1) = residue p r * AdjoinRoot.root p.modulus := by
    rw [residue, toNat_setWidth_shiftLeft_of_le r (by decide), bitPoly_shiftLeft, map_mul, map_pow, AdjoinRoot.mk_X, pow_one]
    rfl
  rw [xtime, residue_setWidth p _ (toNat_shifted_xor_lt p r), residue_xor, shifted]
  split <;> simp [residue_bits]

/-- Horner's scheme over the low `n` bits of `b` (41_field.md R163). -/
theorem residue_foldl_shiftAdd (p : Poly) (a b r : Byte) (n : ℕ) :
    residue p ((List.range n).reverse.foldl (fun r i => if b.getLsbD i then xtime p r ^^^ a else xtime p r) r) =
      residue p r * AdjoinRoot.root p.modulus ^ n + residue p a * AdjoinRoot.mk p.modulus (bitPoly (b.toNat % 2 ^ n)) := by
  induction n generalizing r with
  | zero => simp [Nat.mod_one]
  | succ n ih =>
    rw [List.range_succ, List.reverse_concat, List.foldl_cons, ih, bitPoly_mod_two_pow_succ, BitVec.testBit_toNat]
    split
    · simp only [residue_xor, residue_xtime, map_add, map_pow, AdjoinRoot.mk_X]
      ring
    · simp only [residue_xtime, add_zero]
      ring

/-- Settles O38: both forms have the product's residue (Horner's scheme for the one, the definition for the other). -/
theorem shiftAndAddGivesTheSameProduct : Obligations.ShiftAndAddGivesTheSameProduct := by
  intro p a b
  apply residue_injective p
  have horner := residue_foldl_shiftAdd p a b 0#8 8
  rw [Nat.mod_eq_of_lt b.isLt, residue_zero, zero_mul, zero_add] at horner
  rw [residue_gfmul]
  exact horner

/-! ## The laws -/

/-- The byte 2 is x, so the product with it is `xtime`. -/
theorem gfmul_two (p : Poly) (a : Byte) : gfmul p a 2#8 = xtime p a := by
  apply residue_injective p
  have two : residue p 2#8 = AdjoinRoot.root p.modulus := by
    rw [← AdjoinRoot.mk_X, ← pow_one X, ← bitPoly_two_pow]
    rfl
  rw [residue_gfmul, residue_xtime, two]

@[simp] theorem gfmul_zero (p : Poly) (a : Byte) : gfmul p a 0#8 = 0#8 := residue_injective p (by simp)

@[simp] theorem zero_gfmul (p : Poly) (a : Byte) : gfmul p 0#8 a = 0#8 := residue_injective p (by simp)

@[simp] theorem one_gfmul (p : Poly) (a : Byte) : gfmul p 1#8 a = a := residue_injective p (by simp)

theorem gfmul_comm (p : Poly) (a b : Byte) : gfmul p a b = gfmul p b a :=
  residue_injective p (by simp [mul_comm])

@[simp] theorem gfmul_one (p : Poly) (a : Byte) : gfmul p a 1#8 = a := residue_injective p (by simp)

theorem gfmul_assoc (p : Poly) (a b c : Byte) : gfmul p (gfmul p a b) c = gfmul p a (gfmul p b c) :=
  residue_injective p (by simp [mul_assoc])

theorem gfmul_gfadd (p : Poly) (a b c : Byte) : gfmul p a (gfadd b c) = gfadd (gfmul p a b) (gfmul p a c) :=
  residue_injective p (by simp [gfadd, mul_add])

/-- A product of degree below 8 is its own remainder (41_field.md R164). -/
theorem gfmul_of_log2_lt (p : Poly) {a b : Byte} (lt : a.toNat.log2 + b.toNat.log2 < 8) :
    gfmul p a b = (clmul a b).setWidth 8 := by
  have small : (clmul a b).toNat < 2 ^ 8 := by
    rw [← degree_bitPoly_lt_iff, bitPoly_clmul]
    have bound := natDegree_mul_le (p := bitPoly a.toNat) (q := bitPoly b.toNat)
    rw [natDegree_bitPoly, natDegree_bitPoly] at bound
    exact (degree_le_of_natDegree_le bound).trans_lt (Nat.cast_lt.mpr lt)
  apply residue_injective p
  rw [residue_setWidth p _ small, gfmul, residue_reduce]

theorem xtime_0x80 (p : Poly) : xtime p 0x80 = p.bits.setWidth 8 := by
  simp [xtime]

/-- Settles O37: each law is one of the ring of residues, or holds since the product needs no reduction. -/
theorem gfmulLaws : Obligations.GfmulLaws := by
  intro p a b c
  exact ⟨zero_gfmul p a, gfmul_zero p a, one_gfmul p a, gfmul_comm p a b, gfmul_assoc p a b c, gfmul_gfadd p a b c,
    fun _ _ => gfmul_of_log2_lt p, (gfmul_two p 0x80).trans (xtime_0x80 p)⟩

/-! ## The inverse -/

/-- As POLY is irreducible, the residues are a field of 256 elements, whose multiplicative group has order 255 (41_field.md R167). -/
theorem residue_pow_255 (p : Poly) {a : Byte} (nonzero : a ≠ 0) : residue p a ^ 255 = 1 := by
  have irreducible : Fact (Irreducible p.modulus) := ⟨p.irreducible_modulus⟩
  have monic : p.modulus.Monic := monic_bitPoly p.bits_ne_zero
  have finiteModule : Module.Finite (ZMod 2) (Residues p) := monic.finite_adjoinRoot
  have finite : Finite (Residues p) := Module.finite_of_finite (ZMod 2)
  have fintype : Fintype (Residues p) := Fintype.ofFinite _
  have card : Fintype.card (Residues p) = 256 := by
    rw [← Nat.card_eq_fintype_card, Module.natCard_eq_pow_finrank (K := ZMod 2), (AdjoinRoot.powerBasis' monic).finrank,
      AdjoinRoot.powerBasis'_dim, natDegree_bitPoly, p.log2_bits, Nat.card_zmod]
    rfl
  have order := FiniteField.pow_card_sub_one_eq_one (residue p a) (mt residue_eq_zero_iff.mp nonzero)
  rwa [card] at order

/-- `gfinvNonzero` is a^254 (41_field.md R167). -/
theorem residue_gfinvNonzero (p : Poly) (a : Byte) : residue p (gfinvNonzero p a) = residue p a ^ 254 := by
  simp only [gfinvNonzero, residue_gfmul]
  ring

theorem gfmul_gfinvNonzero (p : Poly) {a : Byte} (nonzero : a ≠ 0) : gfmul p a (gfinvNonzero p a) = 1#8 := by
  apply residue_injective p
  rw [residue_gfmul, residue_gfinvNonzero, ← pow_succ', residue_pow_255 p nonzero, residue_one]

theorem eq_of_gfmul_eq_one {p : Poly} {a b c : Byte} (hb : gfmul p a b = 1#8) (hc : gfmul p a c = 1#8) : c = b := by
  calc c = gfmul p (gfmul p a b) c := by rw [hb, one_gfmul]
    _ = gfmul p b (gfmul p a c) := by rw [gfmul_comm p a b, gfmul_assoc]
    _ = b := by rw [hc, gfmul_one]

theorem gfinv_of_gfmul_eq_one {p : Poly} {a b : Byte} (product : gfmul p a b = 1#8) : gfinv p a = some b := by
  have nonzero : a ≠ 0 := by rintro rfl; simp at product
  rw [gfinv, if_neg nonzero, eq_of_gfmul_eq_one product (gfmul_gfinvNonzero p nonzero)]

theorem gfinv_eq_some_iff {p : Poly} {a b : Byte} : gfinv p a = some b ↔ gfmul p a b = 1#8 := by
  refine ⟨fun h => ?_, gfinv_of_gfmul_eq_one⟩
  obtain ⟨nonzero, rfl⟩ : a ≠ 0 ∧ gfinvNonzero p a = b := by simpa [gfinv] using h
  exact gfmul_gfinvNonzero p nonzero

/-- Settles O39: the product with a^254 is a^255 = 1, and in a commutative ring an inverse is unique. -/
theorem gfinvIsTheUniqueInverse : Obligations.GfinvIsTheUniqueInverse := by
  refine fun p => ⟨rfl, fun a nonzero => ?_⟩
  have product := gfmul_gfinvNonzero p nonzero
  refine ⟨gfinvNonzero p a, gfinv_of_gfmul_eq_one product, ?_, product, fun c => eq_of_gfmul_eq_one product⟩
  intro zero
  simp [zero] at product

end Sys2Proof.Machine
end

section
/-! The field commands (41_field.md section 2): their words, and what they do in an idle unit. -/

namespace Sys2Proof.Machine

/-! ## Words of formats R3 and R2 -/

/-- The word of a command in format R3 ends in 12 zero bits (30_encoding.md R112). -/
theorem decode_of_fieldsFor_r3 {i : Instr} {opc : BitVec 8} {rd ra rb : Reg} (fields : fieldsFor i = ⟨opc, rd, ra, rb, 0, 0⟩) :
    decode (opc ++ rd ++ ra ++ rb ++ 0#12) = .ok i := by
  have word : encode i = opc ++ rd ++ ra ++ rb ++ 0#12 := by
    rw [encode, fields]
    exact append_zero_append_zero (opc ++ rd ++ ra ++ rb) 4 8
  exact word ▸ decode_encode i

/-- The word of a command in format R2 ends in 16 zero bits (30_encoding.md R112). -/
theorem decode_of_fieldsFor_r2 {i : Instr} {opc : BitVec 8} {rd ra : Reg} (fields : fieldsFor i = ⟨opc, rd, ra, 0, 0, 0⟩) :
    decode (opc ++ rd ++ ra ++ 0#16) = .ok i := by
  have word : opc ++ rd ++ ra ++ 0#4 ++ 0#12 = opc ++ rd ++ ra ++ 0#16 := append_zero_append_zero (opc ++ rd ++ ra) 4 12
  exact word ▸ decode_of_fieldsFor_r3 fields

theorem extractLsb'_eq_zero_of_wellFormed_r3 {w : Word} (wellFormed : (fieldsOf w).wellFormed .r3 = true) :
    w.extractLsb' 0 12 = 0 := by
  have bits : w.extractLsb' 0 12 = rsvOf w ++ immOf w := by
    rw [rsvOf, immOf, BitVec.extractLsb'_append_extractLsb'_eq_extractLsb' (by decide)]
  obtain ⟨rsv, imm⟩ : rsvOf w = 0 ∧ immOf w = 0 := by simpa [Fields.wellFormed, fieldsOf] using wellFormed
  rw [bits, rsv, imm]
  rfl

theorem extractLsb'_eq_zero_of_wellFormed_r2 {w : Word} (wellFormed : (fieldsOf w).wellFormed .r2 = true) :
    w.extractLsb' 0 16 = 0 := by
  have bits : w.extractLsb' 0 16 = rbOf w ++ w.extractLsb' 0 12 := by
    rw [rbOf, BitVec.extractLsb'_append_extractLsb'_eq_extractLsb' (by decide)]
  obtain ⟨rb, low⟩ : rbOf w = 0 ∧ (fieldsOf w).wellFormed .r3 = true := by
    simpa [Fields.wellFormed, fieldsOf, and_assoc] using wellFormed
  rw [bits, rb, extractLsb'_eq_zero_of_wellFormed_r3 low]
  rfl

/-! ## The end of a field command -/

section

variable (s : State) (rd : Reg)

theorem State.getG_writeField_some (v : Byte) : (s.writeField rd (some v)).getG rd = v := s.getG_setG_same rd v

variable {s}

theorem State.writeField_some_of_idle (idle : s.busy = false) (v : Byte) :
    s.writeField rd (some v) = { s.setG rd v with errcode := 0, done := true, err := false } :=
  State.complete_of_idle (s := s.setG rd v) idle

theorem State.writeField_none_of_idle (idle : s.busy = false) :
    s.writeField rd none = { s with errcode := 2, done := false, err := true } :=
  State.raise_of_idle idle .arithmetic

end

/-! ## GADD and GMUL -/

theorem exec_gadd (s : State) (rd ra rb : Reg) :
    exec (.gadd rd ra rb) s = .next (s.writeField rd (some (s.getG ra ^^^ s.getG rb))) := rfl

theorem exec_gmul (s : State) (rd ra rb : Reg) :
    exec (.gmul rd ra rb) s = .next (s.writeField rd (some (gfmul s.params.poly (s.getG ra) (s.getG rb)))) := rfl

/-- Settles O33: GADD ends by writing the XOR. -/
theorem gaddAddsInTheField : Obligations.GaddAddsInTheField := by
  refine ⟨fun rd ra rb => decode_of_fieldsFor_r3 rfl, fun w opcode ne => ?_, fun s rd ra rb idle => ?_, fun s rd ra rb => ?_,
    decode_encode (.gadd 3 1 2)⟩
  · exact illegal_of_illFormed opcode rfl (mt extractLsb'_eq_zero_of_wellFormed_r3 ne)
  · rw [exec_gadd, State.writeField_some_of_idle rd idle]
  · refine ⟨_, exec_gadd s rd ra rb, ?_⟩
    rw [State.getG_writeField_some]
    refine ⟨fun same => ?_, fun zero => ?_, fun zero => ?_, fun ha hb => ?_⟩
    · rw [same, BitVec.xor_self]; rfl
    · rw [zero]; exact BitVec.zero_xor
    · rw [zero]; exact BitVec.xor_zero
    · rw [ha, hb]; rfl

/-- 0x03 ⊗ 0x0F needs no reduction, so it does not depend on POLY (41_field.md R164). -/
theorem gfmul_0x03_0x0F (p : Poly) : gfmul p 0x03 0x0F = 0x11 :=
  (gfmul_of_log2_lt p (by decide)).trans (by decide)

/-- Settles O34: GMUL ends by writing the product, and the corner cases are laws of gfmul. -/
theorem gmulMultipliesInTheField : Obligations.GmulMultipliesInTheField := by
  refine ⟨fun rd ra rb => decode_of_fieldsFor_r3 rfl, fun w opcode ne => ?_, fun s rd ra rb idle => ?_, fun s rd ra rb => ?_,
    decode_encode (.gmul 3 1 2)⟩
  · exact illegal_of_illFormed opcode rfl (mt extractLsb'_eq_zero_of_wellFormed_r3 ne)
  · rw [exec_gmul, State.writeField_some_of_idle rd idle]
  · refine ⟨_, exec_gmul s rd ra rb, ?_⟩
    rw [State.getG_writeField_some]
    refine ⟨?_, fun one => ?_, fun one => ?_, fun ha hb => ?_, fun ha hb => ?_⟩
    · rintro (zero | zero) <;> rw [zero]
      · exact zero_gfmul _ _
      · exact gfmul_zero _ _
    · rw [one]; exact one_gfmul _ _
    · rw [one]; exact gfmul_one _ _
    · rw [ha, hb]; exact (gfmul_two _ 0x80).trans (xtime_0x80 _)
    · rw [ha, hb]; exact gfmul_0x03_0x0F _

/-! ## GDIV -/

theorem exec_gdiv (s : State) (rd ra rb : Reg) :
    exec (.gdiv rd ra rb) s = .next (s.writeField rd (gfdiv s.params.poly (s.getG ra) (s.getG rb))) := rfl

theorem gfdiv_zero (p : Poly) (a : Byte) : gfdiv p a 0 = none := rfl

theorem gfdiv_of_ne_zero (p : Poly) (a : Byte) {b : Byte} (nonzero : b ≠ 0) :
    gfdiv p a b = some (gfmul p a (gfinvNonzero p b)) := if_neg nonzero

/-- Division undoes multiplication (41_field.md R168). -/
theorem gfdiv_of_gfmul_eq {p : Poly} {a b q : Byte} (nonzero : b ≠ 0) (product : gfmul p q b = a) : gfdiv p a b = some q := by
  rw [gfdiv_of_ne_zero p a nonzero, ← product, gfmul_assoc, gfmul_gfinvNonzero p nonzero, gfmul_one]

/-- Settles O35: `gfdiv` answers none exactly at a zero divisor; each corner case is the quotient whose product is the dividend. -/
theorem gdivDividesOrRaises : Obligations.GdivDividesOrRaises := by
  refine ⟨fun rd ra rb => decode_of_fieldsFor_r3 rfl, fun w opcode ne => ?_, fun s rd ra rb idle zero => ?_,
    fun s rd ra rb idle nonzero => ⟨_, gfmul_gfinvNonzero s.params.poly nonzero, ?_⟩, fun s rd ra rb => ?_,
    decode_encode (.gdiv 5 3 1)⟩
  · exact illegal_of_illFormed opcode rfl (mt extractLsb'_eq_zero_of_wellFormed_r3 ne)
  · rw [exec_gdiv, zero, gfdiv_zero, State.writeField_none_of_idle rd idle]
  · rw [exec_gdiv, gfdiv_of_ne_zero _ _ nonzero, State.writeField_some_of_idle rd idle]
  · refine ⟨_, exec_gdiv s rd ra rb, ?_⟩
    have quotient {q : Byte} (nonzero : s.getG rb ≠ 0) (product : gfmul s.params.poly q (s.getG rb) = s.getG ra) :
        (s.writeField rd (gfdiv s.params.poly (s.getG ra) (s.getG rb))).getG rd = q := by
      rw [gfdiv_of_gfmul_eq nonzero product, State.getG_writeField_some]
    refine ⟨fun zero nonzero => ?_, fun same nonzero => ?_, fun ha hb => ?_⟩
    · exact quotient nonzero ((zero_gfmul _ _).trans zero.symm)
    · exact quotient nonzero ((one_gfmul _ _).trans same.symm)
    · refine quotient (by rw [hb]; decide) ?_
      rw [ha, hb, gfmul_comm, gfmul_0x03_0x0F]

/-! ## GINV -/

theorem exec_ginv (s : State) (rd ra : Reg) :
    exec (.ginv rd ra) s = .next (s.writeField rd (gfinv s.params.poly (s.getG ra))) := rfl

theorem gfinv_zero (p : Poly) : gfinv p 0 = none := rfl

/-- Settles O36: `gfinv` answers none exactly at 0, and a pair with product 1 is a pair of inverses in either order. -/
theorem ginvInvertsOrRaises : Obligations.GinvInvertsOrRaises := by
  refine ⟨fun rd ra => decode_of_fieldsFor_r2 rfl, fun w opcode ne => ?_, fun s rd ra idle zero => ?_,
    fun s rd ra idle nonzero => ⟨_, gfmul_gfinvNonzero s.params.poly nonzero, ?_⟩, fun p a b => ⟨?_, fun inverse => ?_⟩,
    gfinv_eq_some_iff.mpr (by decide), gfinv_eq_some_iff.mpr (by decide), decode_encode (.ginv 4 1)⟩
  · exact illegal_of_illFormed opcode rfl (mt extractLsb'_eq_zero_of_wellFormed_r2 ne)
  · rw [exec_ginv, zero, gfinv_zero, State.writeField_none_of_idle rd idle]
  · rw [exec_ginv, gfinv_of_gfmul_eq_one (gfmul_gfinvNonzero _ nonzero), State.writeField_some_of_idle rd idle]
  · exact gfinv_eq_some_iff.mpr (one_gfmul p 1)
  · rw [gfinv_eq_some_iff] at inverse ⊢
    rw [gfmul_comm, inverse]

end Sys2Proof.Machine
end

section
/-! Evaluation of a polynomial (42_polynomial.md R194, R195): Horner's method and the sum of c[i]⊗x^i have the same residue modulo
POLY. -/

namespace Sys2Proof.Machine

/-! ## Horner's method -/

/-- Horner's step, which also holds for the last coefficient as 0 ⊗ x is 0. -/
theorem horner_cons (p : Poly) (x c : Byte) (cs : List Byte) : horner p x (c :: cs) = gfadd (gfmul p (horner p x cs) x) c := by
  cases cs with
  | nil => simp [horner, gfadd]
  | cons => rfl

theorem horner_zero (p : Poly) (cs : List Byte) : horner p 0 cs = cs.headD 0 := by
  cases cs with
  | nil => rfl
  | cons c cs => simp [horner_cons, gfadd]

theorem foldl_gfadd_eq_gfadd_horner_one (p : Poly) (a : Byte) (cs : List Byte) : cs.foldl gfadd a = gfadd (horner p 1 cs) a := by
  induction cs generalizing a with
  | nil => simp [horner, gfadd]
  | cons c cs ih =>
    rw [List.foldl_cons, ih, horner_cons]
    simp only [gfadd, BitVec.ofNat_eq_ofNat, gfmul_one, BitVec.xor_assoc, BitVec.xor_comm a]

/-- The shortcut at x = 0 changes no value. -/
theorem evaluate_eq_horner (p : Poly) (cs : List Byte) (x : Byte) : evaluate p cs x = horner p x cs := by
  by_cases zero : x = 0
  · rw [evaluate, if_pos zero, zero, horner_zero]
  · rw [evaluate, if_neg zero]

/-! ## The sum of c[i]⊗x^i -/

@[simp] theorem residue_gfpow (p : Poly) (a : Byte) (k : ℕ) : residue p (gfpow p a k) = residue p a ^ k := by
  induction k with
  | zero => exact residue_one p
  | succ k ih => rw [gfpow, residue_gfmul, ih, pow_succ]

theorem residue_polySum (p : Poly) (cs : List Byte) (x : Byte) :
    residue p (polySum p cs x) = ∑ i ∈ Finset.range cs.length, residue p (cs.getD i 0) * residue p x ^ i := by
  rw [polySum]
  generalize cs.length = n
  induction n with
  | zero => exact residue_zero p 8
  | succ n ih =>
    rw [List.range_succ, List.foldl_append, Finset.sum_range_succ, ← ih]
    simp [gfadd]

theorem residue_horner (p : Poly) (cs : List Byte) (x : Byte) :
    residue p (horner p x cs) = ∑ i ∈ Finset.range cs.length, residue p (cs.getD i 0) * residue p x ^ i := by
  induction cs with
  | nil => exact residue_zero p 8
  | cons c cs ih =>
    rw [horner_cons, List.length_cons, Finset.sum_range_succ', gfadd, residue_xor, residue_gfmul, ih, Finset.sum_mul]
    simp [pow_succ, mul_assoc]

theorem evaluate_eq_polySum (p : Poly) (cs : List Byte) (x : Byte) : evaluate p cs x = polySum p cs x :=
  (evaluate_eq_horner p cs x).trans (residue_injective p ((residue_horner p cs x).trans (residue_polySum p cs x).symm))

/-- Settles O46: Horner's method and the sum have the same residue; at x = 0 and x = 1 Horner's step is simpler. -/
theorem evaluateIsThePolynomialSum : Obligations.EvaluateIsThePolynomialSum := by
  intro p cs x _
  refine ⟨evaluate_eq_polySum p cs x, horner_zero p cs, ?_⟩
  rw [evaluate_eq_horner, foldl_gfadd_eq_gfadd_horner_one p]
  exact BitVec.xor_zero.symm

end Sys2Proof.Machine
end

section
/-! The polynomial register (10_state.md R47) and the commands that read it or replace its constant term: PSETI and PEVAL
(42_polynomial.md R192, R193). -/

namespace Sys2Proof.Machine

/-! ## C[0..PDEG] -/

theorem toList_coefs_eq_cons (coefs : Vector Byte 255) : coefs.toList = coefs[0] :: coefs.toList.tail := by
  have nonempty : 0 < coefs.toList.length := by simp
  rw [← Vector.getElem_toList nonempty, List.getElem_zero, List.cons_head_tail]

theorem State.polyCoefs_eq_cons (s : State) : s.polyCoefs = s.c[0] :: s.polyCoefs.tail := by
  rw [State.polyCoefs, toList_coefs_eq_cons, List.take_succ_cons, List.tail_cons]

/-- A polynomial with another constant term keeps its upper coefficients. -/
theorem take_toList_setIfInBounds_zero (coefs : Vector Byte 255) (v : Byte) (d : ℕ) :
    (coefs.setIfInBounds 0 v).toList.take (d + 1) = v :: (coefs.toList.take (d + 1)).tail := by
  rw [Vector.toList_setIfInBounds, toList_coefs_eq_cons, List.set_cons_zero, List.take_succ_cons, List.take_succ_cons, List.tail_cons]

theorem getElem_setIfInBounds_zero_of_pos (coefs : Vector Byte 255) (v : Byte) {j : Fin 255} (pos : 0 < j.val) :
    (coefs.setIfInBounds 0 v)[j] = coefs[j] :=
  Vector.getElem_setIfInBounds_ne j.isLt pos.ne

/-! ## PSETI -/

/-- The word of PSETI is one of format R2 with RD zero (30_encoding.md R112). -/
theorem extractLsb'_eq_zero_of_wellFormed_r1a {w : Word} (wellFormed : (fieldsOf w).wellFormed .r1a = true) :
    w.extractLsb' 20 4 = 0 ∧ w.extractLsb' 0 16 = 0 := by
  obtain ⟨rd, low⟩ : rdOf w = 0 ∧ (fieldsOf w).wellFormed .r2 = true := by
    simpa [Fields.wellFormed, fieldsOf, and_assoc] using wellFormed
  exact ⟨rd, extractLsb'_eq_zero_of_wellFormed_r2 low⟩

theorem exec_pseti_of_pvalid {s : State} (valid : s.pvalid = true) (ra : Reg) :
    exec (.pseti ra) s = .next (s.setC 0 (s.getG ra)).complete :=
  congrArg _ (if_pos valid)

theorem exec_pseti_of_not_pvalid {s : State} (invalid : s.pvalid = false) (ra : Reg) :
    exec (.pseti ra) s = .next (s.raise .state) :=
  congrArg _ (if_neg (by simp [invalid]))

/-- Settles O44: C[0] alone is replaced, so the upper coefficients stay. -/
theorem psetiReplacesTheIntercept : Obligations.PsetiReplacesTheIntercept := by
  refine ⟨fun ra => decode_of_fieldsFor_r2 rfl, fun w opcode bits => ?_, fun s ra idle invalid => ?_, fun s ra idle valid => ?_,
    decode_encode (.pseti 5)⟩
  · refine illegal_of_illFormed opcode rfl fun wellFormed => ?_
    obtain ⟨high, low⟩ := extractLsb'_eq_zero_of_wellFormed_r1a wellFormed
    exact bits.elim (absurd high) (absurd low)
  · rw [exec_pseti_of_not_pvalid invalid, State.raise_of_idle idle]
    rfl
  · refine ⟨_, exec_pseti_of_pvalid valid ra, take_toList_setIfInBounds_zero s.c _ _,
      fun j => getElem_setIfInBounds_zero_of_pos s.c _, ?_⟩
    rw [State.complete_of_idle (s := s.setC 0 (s.getG ra)) idle]
    rfl

/-! ## PEVAL -/

theorem exec_peval_of_pvalid {s : State} (valid : s.pvalid = true) (rd ra : Reg) :
    exec (.peval rd ra) s = .next (s.setG rd (evaluate s.params.poly s.polyCoefs (s.getG ra))).complete :=
  congrArg _ (if_pos valid)

theorem exec_peval_of_not_pvalid {s : State} (invalid : s.pvalid = false) (rd ra : Reg) :
    exec (.peval rd ra) s = .next (s.raise .state) :=
  congrArg _ (if_neg (by simp [invalid]))

theorem evaluate_zero (p : Poly) (cs : List Byte) : evaluate p cs 0 = cs.headD 0 := if_pos rfl

theorem evaluate_singleton (p : Poly) (c x : Byte) : evaluate p [c] x = c := evaluate_eq_horner p [c] x

/-- 0x05 ⊗ 0x03 needs no reduction, so it does not depend on POLY (41_field.md R164). -/
theorem gfmul_0x05_0x03 (p : Poly) : gfmul p 0x05 0x03 = 0x0F :=
  (gfmul_of_log2_lt p (by decide)).trans (by decide)

/-- The example of 42_polynomial.md R193. -/
theorem evaluate_0x41_0x05_at_0x03 (p : Poly) : evaluate p [0x41, 0x05] 0x03 = 0x4E := by
  rw [evaluate_eq_horner, horner_cons, horner, gfmul_0x05_0x03]
  rfl

/-- Settles O45: PEVAL ends by writing `evaluate`, which is the polynomial sum and the constant term at x = 0 or degree 0. -/
theorem pevalEvaluatesOrRaises : Obligations.PevalEvaluatesOrRaises := by
  refine ⟨fun rd ra => decode_of_fieldsFor_r2 rfl, fun w opcode ne => ?_, fun s rd ra idle invalid => ?_,
    fun s rd ra idle valid => ?_, fun s rd ra valid => ?_⟩
  · exact illegal_of_illFormed opcode rfl (mt extractLsb'_eq_zero_of_wellFormed_r2 ne)
  · rw [exec_peval_of_not_pvalid invalid, State.raise_of_idle idle]
    rfl
  · rw [exec_peval_of_pvalid valid, evaluate_eq_polySum, State.complete_of_idle (s := s.setG rd _) idle]
  · refine ⟨_, exec_peval_of_pvalid valid rd ra, ?_⟩
    have result (v : Byte) : (s.setG rd v).complete.getG rd = v := s.getG_setG_same rd v
    rw [result]
    refine ⟨fun zero => ?_, fun constant => ?_, fun coefs point => ?_⟩
    · rw [zero, evaluate_zero, State.polyCoefs_eq_cons, List.headD_cons]
    · have single : s.polyCoefs = [s.c[0]] := by
        rw [State.polyCoefs, constant, toList_coefs_eq_cons]
        rfl
      rw [single, evaluate_singleton]
    · rw [coefs, point, evaluate_0x41_0x05_at_0x03]

end Sys2Proof.Machine
end

section
/-! PNEW (42_polynomial.md R190, R191): the checks at its acceptance, then one DRAW for each upper coefficient. -/

namespace Sys2Proof.Machine

/-! ## The polynomial that PNEW leaves -/

theorem State.polyCoefs_finishPoly (s : State) (c0 : Byte) {d : ℕ} (le : d ≤ 254) :
    (s.finishPoly c0 d).polyCoefs = c0 :: (s.c.toList.take (d + 1)).tail := by
  rw [State.polyCoefs, State.finishPoly_pdeg, BitVec.toNat_ofNat, Nat.mod_eq_of_lt (by omega), State.finishPoly_c,
    take_toList_setIfInBounds_zero]

/-- The coefficient file with the bytes stored from index `i` up, in the order of the draws (42_polynomial.md R190). -/
def storeFrom (coefs : Vector Byte 255) (i : ℕ) : List Byte → Vector Byte 255
  | [] => coefs
  | b :: bytes => storeFrom (coefs.setIfInBounds i b) (i + 1) bytes

theorem getElem_storeFrom_of_ge (coefs : Vector Byte 255) (i : ℕ) (bytes : List Byte) {j : Fin 255} (ge : i + bytes.length ≤ j.val) :
    (storeFrom coefs i bytes)[j] = coefs[j] := by
  induction bytes generalizing coefs i with
  | nil => rfl
  | cons b bytes ih =>
    rw [List.length_cons] at ge
    rw [storeFrom, ih _ _ (by omega)]
    exact Vector.getElem_setIfInBounds_ne j.isLt (by omega)

theorem take_toList_storeFrom (coefs : Vector Byte 255) {i : ℕ} {bytes : List Byte} (fits : i + bytes.length ≤ 255) :
    (storeFrom coefs i bytes).toList.take (i + bytes.length) = coefs.toList.take i ++ bytes := by
  induction bytes generalizing coefs i with
  | nil => simp [storeFrom]
  | cons b bytes ih =>
    rw [List.length_cons] at fits
    have within : i < (coefs.toList.set i b).length := by rw [List.length_set, Vector.length_toList]; omega
    have first : (coefs.toList.set i b).take (i + 1) = coefs.toList.take i ++ [b] := by
      rw [List.take_succ_eq_append_getElem within, List.getElem_set_self, List.take_set_of_le le_rfl]
    rw [storeFrom, List.length_cons, Nat.add_comm bytes.length, ← Nat.add_assoc, ih _ (by omega), Vector.toList_setIfInBounds, first,
      List.append_assoc, List.singleton_append]

/-! ## The acceptance -/

theorem exec_pnew_of_degree_gt {ra : Reg} {d : Byte} (gt : 254 < d.toNat) (s : State) :
    exec (.pnew ra d) s = .next (s.raise .validation) :=
  congrArg _ (if_pos gt)

theorem exec_pnew_zero (ra : Reg) (s : State) :
    exec (.pnew ra 0) s = .next (s.clearPvalid.finishPoly (s.getG ra) 0) := rfl

theorem exec_pnew_of_degree_pos {ra : Reg} {d : Byte} (pos : 1 ≤ d.toNat) (le : d.toNat ≤ 254) (s : State) :
    exec (.pnew ra d) s = .next (s.clearPvalid.goto (.polyDraw (s.getG ra) d.toNat 1)) := by
  have nonzero : d ≠ 0 := by rintro rfl; exact absurd pos (by decide)
  exact congrArg _ ((if_neg (by omega)).trans (if_neg nonzero))

/-- In an idle unit PNEW's end touches the polynomial register and the completion bits alone. -/
theorem State.finishPoly_of_idle {s : State} (idle : s.busy = false) (c0 : Byte) (d : ℕ) :
    s.finishPoly c0 d = { s with
      c := s.c.setIfInBounds 0 c0, pdeg := BitVec.ofNat 8 d, pvalid := true, errcode := 0, done := true, err := false } :=
  State.complete_of_idle (s := { s.setC 0 c0 with pdeg := BitVec.ofNat 8 d, pvalid := true }) idle

/-- Settles O41: degree 255 fails the check, and degree 0 stores the constant term alone. -/
theorem pnewWithoutDraws : Obligations.PnewWithoutDraws := by
  intro s ra idle
  refine ⟨?_, _, exec_pnew_zero ra s, ?_, fun j => getElem_setIfInBounds_zero_of_pos s.c _, ?_⟩
  · rw [exec_pnew_of_degree_gt (by decide), State.raise_of_idle idle]
    rfl
  · rw [State.polyCoefs_finishPoly _ _ (by omega), toList_coefs_eq_cons]
    rfl
  · rw [State.finishPoly_of_idle (s := s.clearPvalid) idle]
    rfl

/-! ## The draws -/

theorem run_succ_of_step {M : Host.Core} {s t : M.State} (stepped : M.step s = .next t) (n : ℕ) : M.run (n + 1) s = M.run n t := by
  rw [Host.Core.run, stepped]

/-- The byte answer to PNEW's DRAW for C[i] is recorded and taken. -/
theorem step_polyDraw {s : State} {b c0 : Byte} {d i : ℕ} {rest : List Event} (next : s.eventIsNext (.entropy (.byte b)) rest)
    (point : s.fsm = .polyDraw c0 d i) :
    step s = .next (((s.withAgenda rest).log (.draw (.byte b))).polyAnswer c0 d i (.byte b)) := by
  have point' : (s.withAgenda rest).fsm = .polyDraw c0 d i := point
  rw [step_of_event next.1 next.2, State.handle, State.entropyAnswer, point']

/-- The record of the draws that were answered with these bytes. -/
def drawRecord (bytes : List Byte) : List Transaction := bytes.map fun b => .draw (.byte b)

theorem State.channelBytes_of_trace_append_drawRecord {s t : State} {bytes : List Byte} (trace : t.trace = s.trace ++ drawRecord bytes)
    (ch : Channel) : t.channelBytes ch = s.channelBytes ch := by
  simp [State.channelBytes, trace, drawRecord, List.flatMap_map, Transaction.bytesOn]

/-- The state after these byte answers to PNEW's DRAWs for C[i] and on, when `rest` is still to come. -/
def State.polyDrawn (s : State) (i : ℕ) (bytes : List Byte) (rest : List Event) : State :=
  { s with c := storeFrom s.c i bytes, trace := s.trace ++ drawRecord bytes, agenda := rest }

@[simp] theorem State.polyDrawn_c (s : State) (i : ℕ) (bytes : List Byte) (rest : List Event) :
    (s.polyDrawn i bytes rest).c = storeFrom s.c i bytes := rfl

theorem State.polyDrawn_cons (s : State) (i : ℕ) (b : Byte) (bytes : List Byte) (answers rest : List Event) :
    s.polyDrawn i (b :: bytes) rest = (((s.withAgenda answers).log (.draw (.byte b))).setC i b).polyDrawn (i + 1) bytes rest := by
  simp [State.polyDrawn, storeFrom, drawRecord, State.setC, State.log, State.withAgenda]

/-- From the draw for C[i] on, PNEW takes one byte for each coefficient up to C[d] and ends. -/
theorem run_polyDraw {s : State} {c0 : Byte} {d i : ℕ} {bytes : List Byte} {rest : List Event} (point : s.fsm = .polyDraw c0 d i)
    (noHeld : s.heldMem = []) (le : i ≤ d) (count : i + bytes.length = d + 1) (answers : s.agenda = drawAnswers bytes ++ rest) :
    Sys2Proof.core.run bytes.length s = .next ((s.polyDrawn i bytes rest).finishPoly c0 d) := by
  induction bytes generalizing s i with
  | nil => rw [List.length_nil] at count; omega
  | cons b bytes ih =>
    rw [List.length_cons] at count
    have next : s.eventIsNext (.entropy (.byte b)) (drawAnswers bytes ++ rest) := ⟨answers, .inl noHeld⟩
    refine (run_succ_of_step (M := Sys2Proof.core) (step_polyDraw next point) bytes.length).trans ?_
    rw [State.polyAnswer]
    by_cases more : i < d
    · rw [if_pos more, s.polyDrawn_cons i b bytes (drawAnswers bytes ++ rest) rest]
      exact ih (s := State.goto _ (.polyDraw c0 d (i + 1))) rfl noHeld more (by omega) rfl
    · have last : bytes = [] := List.eq_nil_of_length_eq_zero (by omega)
      rw [if_neg more, last]
      rfl

/-- Settles O42: the acceptance waits for C[1], and the run of the draws stores C[1..d] before C[0] completes the polynomial. -/
theorem pnewBuildsThePolynomialFromItsDraws : Obligations.PnewBuildsThePolynomialFromItsDraws := by
  intro s ra d bytes rest idle noHeld pos le count answers
  have run := run_polyDraw (s := s.clearPvalid.goto (.polyDraw (s.getG ra) d.toNat 1)) rfl noHeld pos (by omega) answers
  refine ⟨_, _, exec_pnew_of_degree_pos pos le s, rfl, rfl, rfl, rfl, rfl, count ▸ run, ?_, fun j gt => ?_,
    State.channelBytes_of_trace_append_drawRecord rfl, ?_⟩
  · have stored : (storeFrom s.c 1 bytes).toList.take (d.toNat + 1) = s.c.toList.take 1 ++ bytes := by
      rw [← count, Nat.add_comm]
      exact take_toList_storeFrom s.c (by omega)
    rw [State.polyCoefs_finishPoly _ _ le, State.polyDrawn_c, State.goto_c, State.clearPvalid_c, stored, toList_coefs_eq_cons]
    rfl
  · rw [State.finishPoly_c, getElem_setIfInBounds_zero_of_pos _ _ (by omega)]
    exact getElem_storeFrom_of_ge s.c 1 bytes (by omega)
  · have point : s.fsm = .idle := s.busy_eq_false_iff.mp idle
    simp [State.polyDrawn, State.finishPoly, State.complete, State.goto, State.setC, State.clearPvalid, point]

end Sys2Proof.Machine
end

section
/-! Blocks of MEM (20_memory.md R82) and of the coordinate table (10_state.md R46) after a write. -/

namespace Sys2Proof.Machine

theorem State.getD_readBytes (s : State) (a : ℕ) {i n : ℕ} (lt : i < n) : (s.readBytes a n).getD i 0 = s.readByte (a + i) := by
  simp [State.readBytes, lt]

section
variable (s : State) {a : ℕ} {bytes : List Byte}

theorem State.readByte_writeBytes_of_lt {i : ℕ} (lt : i < bytes.length) :
    (s.writeBytes a bytes).readByte (a + i) = bytes.getD i 0 := by
  simp [State.readByte, State.writeBytes, Memory.find_storeAll, lt]

theorem State.readByte_writeBytes_of_outside {b : ℕ} (outside : b < a ∨ a + bytes.length ≤ b) :
    (s.writeBytes a bytes).readByte b = s.readByte b := by
  have within : ¬(a ≤ b ∧ b < a + bytes.length) := by omega
  simp [State.readByte, State.writeBytes, State.unwrittenByte, Memory.find_storeAll, within]

theorem State.readBytes_writeBytes {off n : ℕ} (fits : off + n ≤ bytes.length) :
    (s.writeBytes a bytes).readBytes (a + off) n = (bytes.drop off).take n := by
  refine List.ext_getElem (by simp; omega) fun i lt _ => ?_
  rw [State.length_readBytes] at lt
  simp [State.readBytes, Nat.add_assoc, s.readByte_writeBytes_of_lt (show off + i < bytes.length by omega),
    show off + i < bytes.length by omega]

end

theorem State.setXs_x (s : State) (k : ℕ) (bs : List Byte) : (s.setXs k bs).x = storeFrom s.x k bs := by
  induction bs generalizing s k with
  | nil => rfl
  | cons b bs ih => exact ih (s.setX k b) (k + 1)

theorem take_toList_storeFrom_zero (coefs : Vector Byte 255) {bytes : List Byte} (fits : bytes.length ≤ 255) :
    (storeFrom coefs 0 bytes).toList.take bytes.length = bytes := by
  simpa using take_toList_storeFrom coefs (i := 0) (bytes := bytes) (by omega)

end Sys2Proof.Machine
end

section
/-! SPLIT's acceptance (43_engine.md R215): its checks in their order. -/

namespace Sys2Proof.Machine

section
variable {s : State}

theorem exec_split_of_invalid (invalid : splitValid s.cfgN.toNat s.cfgT.toNat = false) :
    exec .split s = .next (s.raise .validation) :=
  congrArg _ (if_pos invalid)

theorem exec_split_of_outside (valid : splitValid s.cfgN.toNat s.cfgT.toNat = true)
    (outside : inRange s.params s.cfgSrc.toNat s.cfgLen.toNat = false ∨
      inRange s.params s.cfgDst.toNat (s.cfgN.toNat * (s.cfgLen.toNat + 1)) = false) :
    exec .split s = .next (s.raise .bounds) := by
  refine congrArg _ ((if_neg (by simp [valid])).trans ?_)
  split
  · rfl
  · rename_i inside
    exact if_pos (outside.resolve_left inside)

theorem exec_split_of_fits (valid : splitValid s.cfgN.toNat s.cfgT.toNat = true)
    (source : inRange s.params s.cfgSrc.toNat s.cfgLen.toNat = true)
    (dest : inRange s.params s.cfgDst.toNat (s.cfgN.toNat * (s.cfgLen.toNat + 1)) = true) :
    exec .split s = .next (s.clearPvalid.startSampling s.splitJob) :=
  congrArg _ (((if_neg (by simp [valid])).trans (if_neg (by simp [source]))).trans (if_neg (by simp [dest])))

end

theorem inRange_eq_false_iff (p : Params) (a n : ℕ) : inRange p a n = false ↔ n ≠ 0 ∧ p.memBytes < a + n := by
  rw [← Bool.not_eq_true, inRange_iff, not_or, not_le]

/-- Settles O47: the check of N and T comes before those of the regions, and a command that fails one only raises. -/
theorem splitChecksComeInOrder : Obligations.SplitChecksComeInOrder := by
  refine fun s idle => ⟨fun bad => ?_, fun ge le outside => ?_⟩
  · have invalid : splitValid s.cfgN.toNat s.cfgT.toNat = false := by
      rw [← Bool.not_eq_true, splitValid_iff]
      omega
    rw [exec_split_of_invalid invalid, State.raise_of_idle idle]
    rfl
  · have valid : splitValid s.cfgN.toNat s.cfgT.toNat = true := (splitValid_iff _ _).mpr ⟨ge, le, Nat.le_of_lt_succ s.cfgN.isLt⟩
    have shares : s.cfgN.toNat * (s.cfgLen.toNat + 1) ≠ 0 := Nat.mul_ne_zero (by omega) (Nat.succ_ne_zero _)
    rw [exec_split_of_outside valid, State.raise_of_idle idle]
    · rfl
    · rw [inRange_eq_false_iff, inRange_eq_false_iff]
      exact outside.imp_right (And.intro shares)

end Sys2Proof.Machine
end

section
/-! COMBINE (43_engine.md R217, R220): the descriptors and their checks, then the reconstruction it leaves. -/

namespace Sys2Proof.Machine

/-! ## The descriptors -/

/-- A descriptor that passes its two checks (43_engine.md R220). -/
def Descriptor.fits (p : Params) (d : Descriptor) : Prop := d.len ≠ 0 ∧ inRange p d.addr d.len = true

section
variable {s : State} {tab k : ℕ}

theorem State.readDescriptors_succ_of_fits (fits : (s.descriptor tab k).fits s.params) (count : ℕ) :
    s.readDescriptors tab k (count + 1) = (s.readDescriptors tab (k + 1) count).map (s.descriptor tab k :: ·) := by
  obtain ⟨nonempty, inside⟩ := fits
  rw [State.readDescriptors, if_neg nonempty, if_neg (by simp [inside])]
  cases s.readDescriptors tab (k + 1) count <;> rfl

theorem State.readDescriptors_succ_of_empty (empty : (s.descriptor tab k).len = 0) (count : ℕ) :
    s.readDescriptors tab k (count + 1) = .error .validation :=
  if_pos empty

theorem State.readDescriptors_succ_of_outside (nonempty : (s.descriptor tab k).len ≠ 0)
    (outside : inRange s.params (s.descriptor tab k).addr (s.descriptor tab k).len = false) (count : ℕ) :
    s.readDescriptors tab k (count + 1) = .error .bounds :=
  (if_neg nonempty).trans (if_pos outside)

/-- The first descriptor that is refused decides the error (43_engine.md R220). -/
theorem State.readDescriptors_of_refused {e : ErrorKind} {j count : ℕ} (le : k ≤ j) (lt : j < k + count)
    (before : ∀ m, k ≤ m → m < j → (s.descriptor tab m).fits s.params)
    (refused : ∀ c, s.readDescriptors tab j (c + 1) = .error e) : s.readDescriptors tab k count = .error e := by
  induction count generalizing k with
  | zero => omega
  | succ count ih =>
    by_cases here : k = j
    · exact here ▸ refused count
    · have tail := ih (k := k + 1) (by omega) (by omega) fun m ge => before m (by omega)
      rw [State.readDescriptors_succ_of_fits (before k le_rfl (by omega)), tail]
      rfl

theorem State.readDescriptors_of_fits {count : ℕ} (fits : ∀ m, k ≤ m → m < k + count → (s.descriptor tab m).fits s.params) :
    s.readDescriptors tab k count = .ok ((List.range' k count).map (s.descriptor tab)) := by
  induction count generalizing k with
  | zero => rfl
  | succ count ih =>
    have tail := ih (k := k + 1) fun m ge lt => fits m (by omega) (by omega)
    rw [State.readDescriptors_succ_of_fits (fits k le_rfl (by omega)), tail]
    rfl

end

/-! ## The checks after the descriptors -/

theorem State.headD_len_descriptors (s : State) (tab : ℕ) {k : ℕ} (pos : 0 < k) :
    (((List.range k).map (s.descriptor tab)).map Descriptor.len).headD 0 = (s.descriptor tab 0).len := by
  obtain ⟨k, rfl⟩ := Nat.exists_eq_succ_of_ne_zero pos.ne'
  rw [List.range_succ_eq_map]
  rfl

section
variable {s : State} {dst len : ℕ} {ds : List Descriptor} (first : (ds.map Descriptor.len).headD 0 = len)
include first

theorem State.combineShares_of_unequal (unequal : ∃ d ∈ ds, d.len ≠ len) : s.combineShares dst ds = s.raise .sizeMismatch := by
  simp only [State.combineShares, first]
  exact if_pos (by simpa using unequal)

theorem State.combineShares_of_equal (equal : ∀ d ∈ ds, d.len = len) :
    s.combineShares dst ds =
      if inRange s.params dst (len - 1) = false then s.raise .bounds
      else if hasDuplicate (ds.map fun d => s.readByte d.addr) then s.raise .arithmetic
      else s.finishCombine dst (ds.map fun d => s.readByte d.addr)
        (combineBlock s.params.poly (ds.map fun d => s.readByte d.addr) (ds.map fun d => s.readBytes (d.addr + 1) (len - 1))
          (len - 1)) := by
  simp only [State.combineShares, first]
  exact if_neg (by simpa using equal)

end

/-! ## COMBINE -/

/-- The coordinates of the first `k` shares that the table at `tab` describes (43_engine.md R217). -/
def State.shareCoordinates (s : State) (tab k : ℕ) : List Byte := (List.range k).map fun j => s.readByte (s.descriptor tab j).addr

/-- Their slices of `len` bytes (43_engine.md R217). -/
def State.shareSlices (s : State) (tab k len : ℕ) : List (List Byte) :=
  (List.range k).map fun j => s.readBytes ((s.descriptor tab j).addr + 1) len

section
variable {s : State}

theorem exec_combine_of_count (count : ¬(2 ≤ s.cfgK.toNat ∧ s.cfgK.toNat ≤ 254)) :
    exec .combine s = .next (s.raise .validation) :=
  congrArg _ (if_pos (by rwa [← Bool.not_eq_true, combineCountValid_iff]))

variable (count : 2 ≤ s.cfgK.toNat ∧ s.cfgK.toNat ≤ 254)
include count

theorem exec_combine_of_table_outside (outside : inRange s.params s.cfgSrc.toNat (8 * s.cfgK.toNat) = false) :
    exec .combine s = .next (s.raise .bounds) :=
  congrArg _ ((if_neg (by simp [(combineCountValid_iff _).mpr count])).trans (if_pos outside))

variable (table : inRange s.params s.cfgSrc.toNat (8 * s.cfgK.toNat) = true)
include table

theorem exec_combine_of_error {e : ErrorKind} (read : s.readDescriptors s.cfgSrc.toNat 0 s.cfgK.toNat = .error e) :
    exec .combine s = .next (s.raise e) := by
  simp [exec, execCombine, (combineCountValid_iff _).mpr count, table, read]

theorem exec_combine_of_ok {ds : List Descriptor} (read : s.readDescriptors s.cfgSrc.toNat 0 s.cfgK.toNat = .ok ds) :
    exec .combine s = .next (s.combineShares s.cfgDst.toNat ds) := by
  simp [exec, execCombine, (combineCountValid_iff _).mpr count, table, read]

theorem exec_combine_of_refused {e : ErrorKind} {j : ℕ} (lt : j < s.cfgK.toNat)
    (before : ∀ m < j, (s.descriptor s.cfgSrc.toNat m).fits s.params)
    (refused : ∀ c, s.readDescriptors s.cfgSrc.toNat j (c + 1) = .error e) : exec .combine s = .next (s.raise e) :=
  exec_combine_of_error count table (State.readDescriptors_of_refused (Nat.zero_le j) (by omega) (fun m _ => before m) refused)

variable {len : ℕ}

theorem exec_combine_of_fits (fits : ∀ j < s.cfgK.toNat, (s.descriptor s.cfgSrc.toNat j).fits s.params) :
    exec .combine s =
      .next (s.combineShares s.cfgDst.toNat ((List.range s.cfgK.toNat).map (s.descriptor s.cfgSrc.toNat))) := by
  rw [List.range_eq_range']
  exact exec_combine_of_ok count table (State.readDescriptors_of_fits fun j _ lt => fits j (by omega))

theorem exec_combine_of_unequal (fits : ∀ j < s.cfgK.toNat, (s.descriptor s.cfgSrc.toNat j).fits s.params)
    (unequal : ∃ j < s.cfgK.toNat, (s.descriptor s.cfgSrc.toNat j).len ≠ (s.descriptor s.cfgSrc.toNat 0).len) :
    exec .combine s = .next (s.raise .sizeMismatch) := by
  rw [exec_combine_of_fits count table fits, State.combineShares_of_unequal (s.headD_len_descriptors _ (by omega))]
  simpa using unequal

/-- COMBINE on shares of one length (43_engine.md R217, R220 rows 5 and 6). -/
theorem exec_combine_of_equal (fits : ∀ j < s.cfgK.toNat, (s.descriptor s.cfgSrc.toNat j).fits s.params)
    (equal : ∀ j < s.cfgK.toNat, (s.descriptor s.cfgSrc.toNat j).len = len + 1) :
    exec .combine s = .next (
      if inRange s.params s.cfgDst.toNat len = false then s.raise .bounds
      else if hasDuplicate (s.shareCoordinates s.cfgSrc.toNat s.cfgK.toNat) then s.raise .arithmetic
      else s.finishCombine s.cfgDst.toNat (s.shareCoordinates s.cfgSrc.toNat s.cfgK.toNat)
        (combineBlock s.params.poly (s.shareCoordinates s.cfgSrc.toNat s.cfgK.toNat)
          (s.shareSlices s.cfgSrc.toNat s.cfgK.toNat len) len)) := by
  have first := (s.headD_len_descriptors s.cfgSrc.toNat (k := s.cfgK.toNat) (by omega)).trans (equal 0 (by omega))
  rw [exec_combine_of_fits count table fits, State.combineShares_of_equal first (by simpa using equal), List.map_map, List.map_map]
  rfl

theorem exec_combine_of_distinct (fits : ∀ j < s.cfgK.toNat, (s.descriptor s.cfgSrc.toNat j).fits s.params)
    (equal : ∀ j < s.cfgK.toNat, (s.descriptor s.cfgSrc.toNat j).len = len + 1) (inside : inRange s.params s.cfgDst.toNat len = true)
    (distinct : (s.shareCoordinates s.cfgSrc.toNat s.cfgK.toNat).Nodup) :
    exec .combine s = .next (s.finishCombine s.cfgDst.toNat (s.shareCoordinates s.cfgSrc.toNat s.cfgK.toNat)
      (combineBlock s.params.poly (s.shareCoordinates s.cfgSrc.toNat s.cfgK.toNat)
        (s.shareSlices s.cfgSrc.toNat s.cfgK.toNat len) len)) := by
  rw [exec_combine_of_equal count table fits equal, if_neg (by simp [inside]),
    if_neg (by simpa [← hasDuplicate_eq_false_iff] using distinct)]

end

/-- Settles O51: each check is reached when those before it pass, and a command that fails one only raises. -/
theorem combineChecksComeInOrder : Obligations.CombineChecksComeInOrder := by
  intro s idle k tab addr total xs tableOk shareOk endsWith
  have ends {e : ErrorKind} (raised : exec .combine s = .next (s.raise e)) : endsWith e.code := by
    show exec .combine s = _
    rw [raised, State.raise_of_idle idle]
  have equalLength (pos : 0 < k) (fits : ∀ m < k, shareOk m) (equal : ∀ j < k, total j = total 0) :
      ∀ j < k, (s.descriptor tab j).len = total 0 - 1 + 1 := fun j lt =>
    (equal j lt).trans (Nat.succ_pred (fits 0 pos).1).symm
  refine ⟨fun bad => ends (exec_combine_of_count bad), fun ge le outside => ends (exec_combine_of_table_outside ⟨ge, le⟩ outside),
    fun ⟨ge, le, table⟩ j lt before empty => ?_, fun ⟨ge, le, table⟩ j lt before nonempty outside => ?_,
    fun ⟨ge, le, table⟩ fits unequal => ?_, fun ⟨ge, le, table⟩ fits equal outside => ?_,
    fun ⟨ge, le, table⟩ fits equal inside repeated => ?_⟩
  · exact ends (exec_combine_of_refused ⟨ge, le⟩ table lt before (State.readDescriptors_succ_of_empty empty))
  · exact ends (exec_combine_of_refused ⟨ge, le⟩ table lt before (State.readDescriptors_succ_of_outside nonempty outside))
  · exact ends (exec_combine_of_unequal ⟨ge, le⟩ table fits unequal)
  · refine ends (e := .bounds) ?_
    rw [exec_combine_of_equal ⟨ge, le⟩ table fits (equalLength (by omega) fits equal), if_pos outside]
  · refine ends (e := .arithmetic) ?_
    rw [exec_combine_of_equal ⟨ge, le⟩ table fits (equalLength (by omega) fits equal), if_neg (by simp [inside]), if_pos]
    rw [← Bool.not_eq_false, hasDuplicate_eq_false_iff]
    exact repeated

/-- In an idle unit COMBINE's end touches MEM, X, XCOUNT, RLEN and the completion bits alone. -/
theorem State.finishCombine_of_idle {s : State} (idle : s.busy = false) (dst : ℕ) (xs out : List Byte) :
    s.finishCombine dst xs out = { s with
      mem := (s.writeBytes dst out).mem, x := storeFrom s.x 0 xs, xcount := BitVec.ofNat 9 xs.length
      rlen := BitVec.ofNat 32 out.length, errcode := 0, done := true, err := false } := by
  have point : s.fsm = .idle := s.busy_eq_false_iff.mp idle
  rw [State.finishCombine, State.setXs_fields, State.setXs_x]
  simp [State.complete, State.setXcount, State.setRlen, State.writeBytes, point]

theorem getD_combineBlock (p : Poly) (xs : List Byte) (ys : List (List Byte)) {i n : ℕ} (lt : i < n) :
    (combineBlock p xs ys n).getD i 0 = lagrange0 p xs (ys.map fun y => y.getD i 0) := by
  simp [combineBlock, lt]

theorem State.map_getD_shareSlices (s : State) (tab k : ℕ) {i len : ℕ} (lt : i < len) :
    ((s.shareSlices tab k len).map fun y => y.getD i 0) =
      (List.range k).map fun j => s.readByte ((s.descriptor tab j).addr + 1 + i) := by
  rw [State.shareSlices, List.map_map]
  exact List.map_congr_left fun j _ => s.getD_readBytes _ lt

/-- Settles O50: with every check passed COMBINE's end writes MEM, X, XCOUNT and RLEN from the shares as they stood. -/
theorem combineWritesTheReconstruction : Obligations.CombineWritesTheReconstruction := by
  intro s len k tab dst addr xs idle ge le table shares inside distinct
  have coordinates : xs.length = k := by simp [xs]
  have fits : ∀ j < k, (s.descriptor tab j).fits s.params := fun j lt => by
    obtain ⟨length, within⟩ := shares j lt
    exact ⟨length.trans_ne (Nat.succ_ne_zero len), (congrArg (inRange s.params (addr j)) length).trans within⟩
  have run := exec_combine_of_distinct ⟨ge, le⟩ table fits (fun j lt => (shares j lt).1) inside distinct
  rw [State.finishCombine_of_idle idle, length_combineBlock] at run
  refine ⟨_, run, fun i lt => ?_, fun b outside => ?_, ?_, fun j ge => ?_, ?_, rfl, rfl⟩
  · refine (s.readByte_writeBytes_of_lt (by simpa using lt)).trans ?_
    rw [getD_combineBlock _ _ _ lt, s.map_getD_shareSlices tab k lt]
    rfl
  · exact s.readByte_writeBytes_of_outside (by simpa using outside)
  · exact coordinates ▸ take_toList_storeFrom_zero s.x (by omega)
  · exact getElem_storeFrom_of_ge s.x 0 xs (by omega)
  · show (BitVec.ofNat 9 xs.length).toNat = k
    rw [coordinates, BitVec.toNat_ofNat, Nat.mod_eq_of_lt (by omega)]

end Sys2Proof.Machine
end

section
/-! Lagrange reconstruction (43_engine.md R219): as a sum over the shares in the field of residues it is the value at 0 of the
interpolation polynomial. -/

namespace Sys2Proof.Machine

open Polynomial

/-! ## Lagrange0 as a sum over the shares -/

theorem residue_foldl_gfadd {ι : Type} (p : Poly) (f : ι → Byte) (l : List ι) (a : Byte) :
    residue p (l.foldl (fun acc i => gfadd acc (f i)) a) = residue p a + (l.map fun i => residue p (f i)).sum := by
  induction l generalizing a with
  | nil => simp
  | cons i l ih => rw [List.foldl_cons, ih, gfadd, residue_xor, List.map_cons, List.sum_cons, add_assoc]

theorem residue_foldl_gfmul {ι : Type} (p : Poly) (f : ι → Byte) (l : List ι) (a : Byte) :
    residue p (l.foldl (fun acc i => gfmul p acc (f i)) a) = residue p a * (l.map fun i => residue p (f i)).prod := by
  induction l generalizing a with
  | nil => simp
  | cons i l ih => rw [List.foldl_cons, ih, residue_gfmul, List.map_cons, List.prod_cons, mul_assoc]

/-- The factor of share x's basis product that another share at y gives (43_engine.md R219). -/
noncomputable def basisFactor (p : Poly) (x y : Byte) : Residues p := residue p (gfdivNonzero p (gfadd 0 y) (gfadd x y))

theorem residue_lagrangeBasis (p : Poly) (xs : List Byte) (i : ℕ) :
    residue p (lagrangeBasis p xs i) = ((xs.eraseIdx i).map (basisFactor p (xs.getD i 0))).prod := by
  rw [lagrangeBasis, residue_foldl_gfmul, BitVec.ofNat_eq_ofNat, residue_one, one_mul]
  rfl

/-- What one share adds to the reconstruction from `pairs`, of which it is one. -/
noncomputable def shareTerm (p : Poly) (pairs : List (Byte × Byte)) (q : Byte × Byte) : Residues p :=
  residue p q.2 * ((pairs.erase q).map fun r => basisFactor p q.1 r.1).prod

theorem residue_lagrange0 (p : Poly) (pairs : List (Byte × Byte)) :
    residue p (lagrange0 p (pairs.map Prod.fst) (pairs.map Prod.snd)) = (pairs.map (shareTerm p pairs)).sum := by
  rw [lagrange0, residue_foldl_gfadd, BitVec.ofNat_eq_ofNat, residue_zero, zero_add]
  congr 1
  refine List.ext_getElem (by simp) fun i _ lt => ?_
  rw [List.length_map] at lt
  have others : (((pairs.map Prod.fst).eraseIdx i).map (basisFactor p pairs[i].1)).prod =
      ((pairs.erase pairs[i]).map fun r => basisFactor p pairs[i].1 r.1).prod := by
    rw [List.eraseIdx_map, List.map_map]
    exact ((List.erase_getElem lt).symm.map _).prod_eq
  simp [residue_lagrangeBasis, shareTerm, others, lt]

/-- Settles O53: the sum over the shares and each share's product over the others do not depend on the order. -/
theorem lagrangeIgnoresTheOrderOfShares : Obligations.LagrangeIgnoresTheOrderOfShares := by
  intro p pairs others perm
  apply residue_injective p
  have terms : shareTerm p pairs = shareTerm p others :=
    funext fun q => congrArg (residue p q.2 * ·) ((perm.erase q).map _).prod_eq
  rw [residue_lagrange0, residue_lagrange0, terms]
  exact (perm.map _).sum_eq

/-! ## Lagrange0 as the value at 0 of the interpolation polynomial -/

theorem residue_sub (p : Poly) (a b : Byte) : residue p a - residue p b = residue p (a ^^^ b) := by
  rw [residue_xor, sub_eq_add_neg, neg_eq_of_add_eq_zero_left]
  rw [← residue_xor, BitVec.xor_self, residue_zero]

section
variable {p : Poly} [Fact (Irreducible p.modulus)] {xs : List Byte}

theorem inv_residue {a : Byte} (nonzero : a ≠ 0) : (residue p a)⁻¹ = residue p (gfinvNonzero p a) :=
  inv_eq_of_mul_eq_one_right (by rw [← residue_gfmul, gfmul_gfinvNonzero p nonzero, residue_one])

theorem eval_zero_basisDivisor {x y : Byte} (distinct : x ≠ y) :
    (Lagrange.basisDivisor (residue p x) (residue p y)).eval 0 = basisFactor p x y := by
  have nonzero : x ^^^ y ≠ 0 := by simpa using distinct
  rw [Lagrange.basisDivisor, eval_mul, eval_C, eval_sub, eval_X, eval_C, residue_sub, inv_residue nonzero, ← residue_zero p 8,
    residue_sub, mul_comm, ← residue_gfmul]
  rfl

theorem eval_zero_basis (distinct : xs.Nodup) (x : Byte) :
    (Lagrange.basis xs.toFinset (residue p) x).eval 0 = ((xs.erase x).map (basisFactor p x)).prod := by
  have others : xs.toFinset.erase x = (xs.erase x).toFinset := by ext; simp [distinct.mem_erase_iff]
  rw [Lagrange.basis, eval_prod, others, List.prod_toFinset _ (distinct.erase x)]
  congr 1
  refine List.map_congr_left fun y mem => eval_zero_basisDivisor ?_
  exact (distinct.mem_erase_iff.mp mem).1.symm

theorem residue_lagrange0_eq_eval_zero (distinct : xs.Nodup) {f : (Residues p)[X]} (degree : f.degree < xs.length)
    {v : Byte → Byte} (values : ∀ x, residue p (v x) = f.eval (residue p x)) :
    residue p (lagrange0 p xs (xs.map v)) = f.eval 0 := by
  have card : f.degree < xs.toFinset.card := by rwa [List.toFinset_card_of_nodup distinct]
  have pairs : residue p (lagrange0 p xs (xs.map v)) =
      ((xs.map fun x => (x, v x)).map (shareTerm p (xs.map fun x => (x, v x)))).sum := by
    rw [← residue_lagrange0]
    simp [Function.comp_def]
  rw [Lagrange.eq_interpolate (residue_injective p).injOn card, Lagrange.interpolate_apply, eval_finsetSum,
    List.sum_toFinset _ distinct, pairs, List.map_map]
  congr 1
  refine List.map_congr_left fun x _ => ?_
  have erased := List.map_erase (f := fun x => (x, v x)) (fun a b h => (Prod.mk.inj h).1) (a := x) xs
  rw [eval_mul, eval_C, eval_zero_basis distinct, ← values, Function.comp_apply, shareTerm, ← erased, List.map_map]
  rfl

end

/-! ## Sharing and reconstruction -/

/-- The polynomial over the residues that a coefficient list stands for, constant term first (43_engine.md R214). -/
noncomputable def coefPoly (p : Poly) (cs : List Byte) : (Residues p)[X] :=
  ∑ i : Fin cs.length, C (residue p (cs.getD i 0)) * X ^ (i : ℕ)

theorem eval_coefPoly (p : Poly) (cs : List Byte) (x : Byte) : (coefPoly p cs).eval (residue p x) = residue p (evaluate p cs x) := by
  rw [evaluate_eq_horner, residue_horner, Finset.sum_range, coefPoly, eval_finsetSum]
  simp

/-- At least as many distinct shares as coefficients give back the constant term (43_engine.md R223). -/
theorem lagrange0_evaluate (p : Poly) {xs cs : List Byte} (distinct : xs.Nodup) (enough : cs.length ≤ xs.length) :
    lagrange0 p xs (xs.map (evaluate p cs)) = cs.headD 0 := by
  have irreducible : Fact (Irreducible p.modulus) := ⟨p.irreducible_modulus⟩
  have degree : (coefPoly p cs).degree < xs.length := (degree_sum_fin_lt _).trans_le (Nat.cast_le.mpr enough)
  apply residue_injective p
  rw [residue_lagrange0_eq_eval_zero distinct degree fun x => (eval_coefPoly p cs x).symm, ← residue_zero p 8, eval_coefPoly]
  exact congrArg (residue p) (evaluate_zero p cs)

theorem length_coefficientsOf_le (policy : Policy) (t : ℕ) (draws : List Byte) (i : ℕ) :
    (coefficientsOf policy t draws i).length ≤ t - 1 := by
  cases policy <;> exact List.length_take_le _ _

theorem getD_sliceOf (p : Poly) (policy : Policy) (t : ℕ) (block draws : List Byte) (x : Byte) {i : ℕ} (lt : i < block.length) :
    (sliceOf p policy t block draws x).getD i 0 = evaluate p (block.getD i 0 :: coefficientsOf policy t draws i) x := by
  simp [sliceOf, lt]

/-- Settles O52: each byte is the constant term of a polynomial with at most T coefficients, whose values the slices are. -/
theorem reconstructionRecoversTheSecret : Obligations.ReconstructionRecoversTheSecret := by
  intro p policy t secret draws xs ge enough distinct _
  refine List.ext_getElem (length_combineBlock _ _ _ _) fun i _ lt => ?_
  have few : (secret.getD i 0 :: coefficientsOf policy t draws i).length ≤ xs.length := by
    have upper := length_coefficientsOf_le policy t draws i
    rw [List.length_cons]
    omega
  have byte := lagrange0_evaluate p distinct few
  have column : (xs.map (sliceOf p policy t secret draws)).map (fun y => y.getD i 0) =
      xs.map (evaluate p (secret.getD i 0 :: coefficientsOf policy t draws i)) := by
    rw [List.map_map]
    exact List.map_congr_left fun x _ => getD_sliceOf p policy t secret draws x lt
  rw [← List.getD_eq_getElem _ 0, ← List.getD_eq_getElem _ 0, getD_combineBlock p xs _ lt, column, byte, List.headD_cons]

end Sys2Proof.Machine
end

section
/-! The draws of SPLIT and SSPLIT (43_engine.md R212, R214): what a unit that samples coordinates, or shares a block, does with the bytes
that the entropy port answers. -/

namespace Sys2Proof.Machine

/-! ## Draws -/

theorem run_add_of_run {M : Host.Core} {s t : M.State} {m : ℕ} (ran : M.run m s = .next t) (n : ℕ) :
    M.run (m + n) s = M.run n t := by
  induction m generalizing s with
  | zero =>
    cases ran
    rw [Nat.zero_add]
  | succ m ih =>
    cases stepped : M.step s with
    | next u =>
      rw [run_succ_of_step stepped] at ran
      rw [Nat.add_right_comm, run_succ_of_step stepped, ih ran]
    | fault r => rw [Host.Core.run, stepped] at ran; cases ran
    | refused r => rw [Host.Core.run, stepped] at ran; cases ran

/-- The record of the ports and the inputs still to come after these bytes have answered as many DRAWs. -/
def State.drew (s : State) (bytes : List Byte) (rest : List Event) : State :=
  { s with trace := s.trace ++ drawRecord bytes, agenda := rest }

theorem State.drew_nil (s : State) {rest : List Event} (agenda : s.agenda = rest) : s.drew [] rest = s := by
  simp [State.drew, drawRecord, ← agenda]

theorem State.drew_drew (s : State) (bytes more : List Byte) (answers rest : List Event) :
    (s.drew bytes answers).drew more rest = s.drew (bytes ++ more) rest := by
  simp [State.drew, drawRecord]

/-- No MEM transaction is released while the split `job` draws: none waits, or the split holds the port (20_memory.md R92). -/
def State.noRelease (s : State) (job : SplitJob) : Prop := s.heldMem = [] ∨ (Fsm.sampleDraw job []).holdsMem = true

theorem drawAnswers_append (bytes more : List Byte) (rest : List Event) :
    drawAnswers (bytes ++ more) ++ rest = drawAnswers bytes ++ (drawAnswers more ++ rest) := by
  rw [drawAnswers, List.map_append, List.append_assoc]
  rfl

section
variable {s : State} {job : SplitJob} {xs : List Byte} {b : Byte} {rest : List Event} (quiet : s.noRelease job)
  (next : s.agenda = .entropy (.byte b) :: rest)
include quiet next

theorem step_sampleDraw (point : s.fsm = .sampleDraw job xs) : step s = .next ((s.drew [b] rest).sampled job xs b) := by
  have held : (Fsm.sampleDraw job []).holdsMem = true → s.memHeld = true := by rw [State.memHeld, point]; exact id
  have point' : (s.withAgenda rest).fsm = .sampleDraw job xs := point
  rw [step_of_event next (quiet.imp_right (.inl ∘ held)), State.handle, State.entropyAnswer, point']
  rfl

theorem step_coefDraw {sh : Sharing} (point : s.fsm = .coefDraw job xs sh) :
    step s = .next ((s.drew [b] rest).coefDrawn job xs sh b) := by
  have held : (Fsm.sampleDraw job []).holdsMem = true → s.memHeld = true := by rw [State.memHeld, point]; exact id
  have point' : (s.withAgenda rest).fsm = .coefDraw job xs sh := point
  rw [step_of_event next (quiet.imp_right (.inl ∘ held)), State.handle, State.entropyAnswer, point']
  rfl

end

/-! ## The point of the FSM that is left does not matter -/

section
variable (s : State) (f : Fsm) (job : SplitJob) (xs : List Byte)

theorem State.finishBlock_goto (n : ℕ) (ys : List (List Byte)) : (s.goto f).finishBlock job xs n ys = s.finishBlock job xs n ys := by
  unfold State.finishBlock
  split <;> rfl

theorem State.startBlock_goto (block : List Byte) : (s.goto f).startBlock job xs block = s.startBlock job xs block := by
  cases block with
  | nil => exact s.finishBlock_goto f job xs 0 _
  | cons => rfl

theorem State.finishSampling_goto : (s.goto f).finishSampling job xs = s.finishSampling job xs := by
  unfold State.finishSampling
  split
  · exact (s.setXcount job.n).startBlock_goto f job xs _
  · rfl

end

/-! ## Sampling -/

section
variable {draws : List Byte} {b : Byte}

theorem acceptedCoordinates_concat_of_rejected (rejected : b = 0 ∨ b ∈ acceptedCoordinates draws) :
    acceptedCoordinates (draws ++ [b]) = acceptedCoordinates draws :=
  (List.foldl_concat _ _ _ _).trans (if_pos rejected)

theorem acceptedCoordinates_concat_of_accepted (accepted : ¬(b = 0 ∨ b ∈ acceptedCoordinates draws)) :
    acceptedCoordinates (draws ++ [b]) = acceptedCoordinates draws ++ [b] :=
  (List.foldl_concat _ _ _ _).trans (if_neg accepted)

end

theorem length_acceptedCoordinates_le_concat (draws : List Byte) (b : Byte) :
    (acceptedCoordinates draws).length ≤ (acceptedCoordinates (draws ++ [b])).length := by
  by_cases rejected : b = 0 ∨ b ∈ acceptedCoordinates draws
  · rw [acceptedCoordinates_concat_of_rejected rejected]
  · rw [acceptedCoordinates_concat_of_accepted rejected, List.length_append]
    exact Nat.le_add_right _ _

theorem coordinatesOk_acceptedCoordinates (draws : List Byte) : coordinatesOk (acceptedCoordinates draws) := by
  induction draws using List.reverseRecOn with
  | nil => exact ⟨List.nodup_nil, List.not_mem_nil⟩
  | append_singleton draws b ih =>
    by_cases rejected : b = 0 ∨ b ∈ acceptedCoordinates draws
    · rwa [acceptedCoordinates_concat_of_rejected rejected]
    · rw [acceptedCoordinates_concat_of_accepted rejected]
      exact ih.append rejected

theorem State.setXs_concat (s : State) (k : ℕ) (bs : List Byte) (b : Byte) :
    s.setXs k (bs ++ [b]) = (s.setXs k bs).setX (k + bs.length) b := by
  induction bs generalizing s k with
  | nil => rfl
  | cons c bs ih =>
    rw [List.cons_append, State.setXs, ih, List.length_cons, Nat.add_right_comm]
    rfl

/-- The state after these draws of SampleCoords, apart from the point of the FSM. -/
def State.sampledFrom (s : State) (draws : List Byte) (rest : List Event) : State :=
  (s.setXs 0 (acceptedCoordinates draws)).drew draws rest

/-- The unit after these draws of SampleCoords when it samples on. -/
def State.samplesOn (s : State) (job : SplitJob) (draws : List Byte) (rest : List Event) : State :=
  (s.sampledFrom draws rest).goto (.sampleDraw job (acceptedCoordinates draws))

section
variable (s : State) {job : SplitJob} {draws : List Byte} {b : Byte} (answers rest : List Event)

theorem State.sampledFrom_concat_of_rejected (rejected : b = 0 ∨ b ∈ acceptedCoordinates draws) :
    s.sampledFrom (draws ++ [b]) rest = (s.sampledFrom draws answers).drew [b] rest := by
  rw [State.sampledFrom, acceptedCoordinates_concat_of_rejected rejected, ← State.drew_drew _ draws [b] answers, State.sampledFrom]

theorem State.sampledFrom_concat_of_accepted (accepted : ¬(b = 0 ∨ b ∈ acceptedCoordinates draws)) :
    s.sampledFrom (draws ++ [b]) rest =
      ((s.sampledFrom draws answers).drew [b] rest).setX (acceptedCoordinates draws).length b := by
  rw [State.sampledFrom, acceptedCoordinates_concat_of_accepted accepted, State.setXs_concat, Nat.zero_add,
    ← State.drew_drew _ draws [b] answers]
  rfl

/-- An attempt after which N coordinates are still not collected (43_engine.md R212). -/
theorem State.sampled_of_few (few : (acceptedCoordinates (draws ++ [b])).length < job.n) :
    ((s.samplesOn job draws answers).drew [b] rest).sampled job (acceptedCoordinates draws) b = s.samplesOn job (draws ++ [b]) rest := by
  obtain ⟨rejected, sampled⟩ | ⟨accepted, -, sampled⟩ | ⟨accepted, enough, -⟩ :=
    ((s.samplesOn job draws answers).drew [b] rest).sampled_cases job (acceptedCoordinates draws) b
  · rw [sampled, State.samplesOn, State.samplesOn, s.sampledFrom_concat_of_rejected answers rest rejected,
      acceptedCoordinates_concat_of_rejected rejected]
    rfl
  · rw [sampled, State.samplesOn, State.samplesOn, s.sampledFrom_concat_of_accepted answers rest accepted,
      acceptedCoordinates_concat_of_accepted accepted]
    rfl
  · rw [acceptedCoordinates_concat_of_accepted accepted] at few
    exact absurd few enough

/-- The attempt that gives the last coordinate (43_engine.md R212). -/
theorem State.sampled_of_complete (few : (acceptedCoordinates draws).length < job.n)
    (all : (acceptedCoordinates (draws ++ [b])).length = job.n) :
    ((s.samplesOn job draws answers).drew [b] rest).sampled job (acceptedCoordinates draws) b =
      (s.sampledFrom (draws ++ [b]) rest).finishSampling job (acceptedCoordinates (draws ++ [b])) := by
  obtain ⟨rejected, -⟩ | ⟨accepted, more, -⟩ | ⟨accepted, -, sampled⟩ :=
    ((s.samplesOn job draws answers).drew [b] rest).sampled_cases job (acceptedCoordinates draws) b
  · rw [acceptedCoordinates_concat_of_rejected rejected] at all
    exact absurd all few.ne
  · rw [acceptedCoordinates_concat_of_accepted accepted] at all
    exact absurd all more.ne
  · rw [sampled, s.sampledFrom_concat_of_accepted answers rest accepted, acceptedCoordinates_concat_of_accepted accepted]
    exact State.finishSampling_goto (((s.sampledFrom draws answers).drew [b] rest).setX _ b) _ job _

end

section
variable {s : State} {job : SplitJob} {draws : List Byte} {rest : List Event} (quiet : s.noRelease job)
include quiet

/-- One more draw of SampleCoords is one more attempt. -/
theorem run_sampleDraw_concat {b : Byte}
    (ran : Sys2Proof.core.run draws.length s = .next (s.samplesOn job draws (drawAnswers [b] ++ rest))) :
    Sys2Proof.core.run (draws ++ [b]).length s =
      .next (((s.samplesOn job draws (drawAnswers [b] ++ rest)).drew [b] rest).sampled job (acceptedCoordinates draws) b) := by
  have held : (s.samplesOn job draws (drawAnswers [b] ++ rest)).noRelease job := by
    simpa [State.noRelease, State.samplesOn, State.sampledFrom, State.drew] using quiet
  rw [List.length_append]
  exact (run_add_of_run (M := Sys2Proof.core) ran 1).trans
    (run_succ_of_step (M := Sys2Proof.core) (step_sampleDraw held rfl rfl) 0)

variable (point : s.fsm = .sampleDraw job []) (answers : s.agenda = drawAnswers draws ++ rest)
include point answers

/-- While the draws do not give N coordinates the command samples on (43_engine.md R212). -/
theorem run_sampleDraw (few : (acceptedCoordinates draws).length < job.n) :
    Sys2Proof.core.run draws.length s = .next (s.samplesOn job draws rest) := by
  induction draws using List.reverseRecOn generalizing rest with
  | nil =>
    have same : s.goto (.sampleDraw job []) = s := point ▸ rfl
    exact congrArg _ (same.symm.trans (congrArg (State.goto · _) (s.drew_nil answers).symm))
  | append_singleton draws b ih =>
    have ran := ih (answers.trans (drawAnswers_append draws [b] rest)) ((length_acceptedCoordinates_le_concat draws b).trans_lt few)
    exact (run_sampleDraw_concat quiet ran).trans (congrArg _ (s.sampled_of_few _ rest few))

/-- The draw that gives the last coordinate ends the sampling (43_engine.md R212). -/
theorem run_sampleDraw_of_complete (all : (acceptedCoordinates draws).length = job.n)
    (few : (acceptedCoordinates draws.dropLast).length < job.n) :
    Sys2Proof.core.run draws.length s = .next ((s.sampledFrom draws rest).finishSampling job (acceptedCoordinates draws)) := by
  obtain rfl | ⟨draws, b, rfl⟩ := List.eq_nil_or_concat' draws
  · exact absurd all few.ne
  · rw [List.dropLast_concat] at few
    have ran := run_sampleDraw quiet point (answers.trans (drawAnswers_append draws [b] rest)) few
    exact (run_sampleDraw_concat quiet ran).trans (congrArg _ (s.sampled_of_complete _ rest few all))

end

/-! ## The state that the draws of SampleCoords leave -/

theorem State.sampledFrom_eq (s : State) (draws : List Byte) (rest : List Event) : s.sampledFrom draws rest = { s with
    x := storeFrom s.x 0 (acceptedCoordinates draws), trace := s.trace ++ drawRecord draws, agenda := rest } := by
  rw [State.sampledFrom, State.setXs_fields, State.setXs_x]
  rfl

/-- Settles O49: each draw is one sampling attempt, which keeps the accumulator distinct and free of 0. -/
theorem samplingCollectsDistinctNonzeroBytes : Obligations.SamplingCollectsDistinctNonzeroBytes := by
  refine ⟨fun s job draws rest point noHeld le few answers => ?_, coordinatesOk_acceptedCoordinates⟩
  have ran := run_sampleDraw (.inl noHeld) point answers few
  rw [State.samplesOn, State.sampledFrom_eq] at ran
  refine ⟨_, ran, rfl, take_toList_storeFrom_zero s.x (few.le.trans le), fun j ge => ?_,
    State.channelBytes_of_trace_append_drawRecord (bytes := draws) rfl, rfl⟩
  exact getElem_storeFrom_of_ge s.x 0 _ (by omega)

end Sys2Proof.Machine
end

section
/-! Share computation (43_engine.md R214): the slices that ShareBlock appends are those of `sliceOf`, under both policies. -/

namespace Sys2Proof.Machine

/-! ## Slices -/

/-- The slices with the bytes `f x` appended to the one of each coordinate `x`. -/
def appendSlices (xs : List Byte) (ys : List (List Byte)) (f : Byte → List Byte) : List (List Byte) :=
  List.zipWith (fun y x => y ++ f x) ys xs

theorem appendSlices_nil {xs : List Byte} {ys : List (List Byte)} (slices : ys.length = xs.length) :
    appendSlices xs ys (fun _ => []) = ys := by
  refine List.ext_getElem (by simp [appendSlices, slices]) fun i _ _ => ?_
  simp [appendSlices]

theorem appendSlices_appendColumn (p : Poly) (xs coefs : List Byte) (ys : List (List Byte)) (b : Byte) (f : Byte → List Byte) :
    appendSlices xs (appendColumn p xs coefs ys b) f = appendSlices xs ys (fun x => evaluate p (b :: coefs) x :: f x) := by
  refine List.ext_getElem (by simp [appendSlices]) fun i _ _ => ?_
  simp [appendSlices, appendColumn]

theorem appendSlices_replicate {xs : List Byte} {n : ℕ} (count : xs.length = n) (f : Byte → List Byte) :
    appendSlices xs (List.replicate n []) f = xs.map f := by
  refine List.ext_getElem (by simp [appendSlices, count]) fun i _ _ => ?_
  simp [appendSlices]

theorem foldl_appendColumn (p : Poly) {xs : List Byte} (coefs todo : List Byte) {ys : List (List Byte)}
    (slices : ys.length = xs.length) :
    todo.foldl (appendColumn p xs coefs) ys = appendSlices xs ys (fun x => todo.map fun b => evaluate p (b :: coefs) x) := by
  induction todo generalizing ys with
  | nil => exact (appendSlices_nil slices).symm
  | cons b todo ih => rw [List.foldl_cons, ih (by simp [slices]), appendSlices_appendColumn]; rfl

theorem sliceOf_perBlock (p : Poly) (t : ℕ) (block draws : List Byte) (x : Byte) :
    sliceOf p .perBlock t block draws x = block.map fun b => evaluate p (b :: draws.take (t - 1)) x := by
  refine List.ext_getElem (by simp [sliceOf]) fun i lt _ => ?_
  rw [sliceOf, List.length_map, List.length_range] at lt
  simp [sliceOf, coefficientsOf, lt]

theorem sliceOf_perByte_cons (p : Poly) {t : ℕ} (b : Byte) (block : List Byte) {coefs : List Byte} (draws : List Byte)
    (count : coefs.length = t - 1) (x : Byte) :
    sliceOf p .perByte t (b :: block) (coefs ++ draws) x = evaluate p (b :: coefs) x :: sliceOf p .perByte t block draws x := by
  have drop (i : ℕ) : (coefs ++ draws).drop ((t - 1) * i.succ) = draws.drop ((t - 1) * i) := by
    rw [Nat.mul_succ, Nat.add_comm, ← count, ← List.drop_drop, List.drop_left]
  rw [sliceOf, List.length_cons, List.range_succ_eq_map, List.map_cons, List.map_map]
  refine congrArg₂ _ ?_ (List.map_congr_left fun i _ => ?_)
  · simp [coefficientsOf, ← count]
  · simp [coefficientsOf, drop]

theorem sliceOf_nil (p : Poly) (policy : Policy) (t : ℕ) (draws : List Byte) (x : Byte) : sliceOf p policy t [] draws x = [] := rfl

section
variable (p : Poly) {t : ℕ} (xs : List Byte) (ys : List (List Byte)) (b : Byte) {coefs : List Byte} (count : coefs.length = t - 1)
include count

/-- Under the per-byte policy a byte's column comes before the slices of the bytes after it (43_engine.md R214). -/
theorem appendSlices_perByte_cons (block draws : List Byte) :
    appendSlices xs ys (sliceOf p .perByte t (b :: block) (coefs ++ draws)) =
      appendSlices xs (appendColumn p xs coefs ys b) (sliceOf p .perByte t block draws) := by
  rw [appendSlices_appendColumn]
  exact congrArg (appendSlices xs ys) (funext fun x => sliceOf_perByte_cons p b block draws count x)

theorem appendSlices_perByte_singleton :
    appendSlices xs ys (sliceOf p .perByte t [b] coefs) = appendColumn p xs coefs ys b := by
  have column (x : Byte) : sliceOf p .perByte t [b] coefs x = [evaluate p (b :: coefs) x] := by
    simpa [sliceOf_nil] using sliceOf_perByte_cons p b [] [] count x
  exact congrArg (appendSlices xs ys) (funext column)

end

/-! ## One polynomial -/

section
variable {s : State} {job : SplitJob} {xs : List Byte} {sh : Sharing} {b : Byte}

theorem State.coefDrawn_of_more (more : (sh.coefs ++ [b]).length < job.t - 1) :
    s.coefDrawn job xs sh b = s.goto (.coefDraw job xs { sh with coefs := sh.coefs ++ [b] }) := if_pos more

variable (full : ¬(sh.coefs ++ [b]).length < job.t - 1)
include full

theorem State.coefDrawn_of_perBlock (policy : job.policy = .perBlock) :
    s.coefDrawn job xs sh b =
      s.finishBlock job xs sh.n (sh.todo.foldl (appendColumn s.params.poly xs (sh.coefs ++ [b])) sh.ys) := by
  simp only [State.coefDrawn, if_neg full, policy]

theorem State.coefDrawn_of_last {c : Byte} (policy : job.policy = .perByte) (todo : sh.todo = [c]) :
    s.coefDrawn job xs sh b =
      s.finishBlock job xs sh.n (appendColumn s.params.poly xs (sh.coefs ++ [b]) sh.ys c) := by
  simp only [State.coefDrawn, if_neg full, policy, todo]
  rfl

theorem State.coefDrawn_of_next {c d : Byte} {todo : List Byte} (policy : job.policy = .perByte) (left : sh.todo = c :: d :: todo) :
    s.coefDrawn job xs sh b = s.goto (.coefDraw job xs { sh with
      todo := d :: todo, coefs := [], ys := appendColumn s.params.poly xs (sh.coefs ++ [b]) sh.ys c }) := by
  simp only [State.coefDrawn, if_neg full, policy, left]
  rfl

end

theorem State.coefDrawn_goto (s : State) (f : Fsm) (job : SplitJob) (xs : List Byte) (sh : Sharing) (b : Byte) :
    (s.goto f).coefDrawn job xs sh b = s.coefDrawn job xs sh b := by
  unfold State.coefDrawn
  dsimp only
  split
  · rfl
  · split
    · exact s.finishBlock_goto f job xs _ _
    · split
      · exact s.finishBlock_goto f job xs _ _
      · rfl

section
variable {s : State} {job : SplitJob} {xs : List Byte} {sh : Sharing} {draws : List Byte} {rest : List Event}

/-- The draws of one polynomial are taken one by one until its last coefficient (43_engine.md R214). -/
theorem run_polynomial {b : Byte} (point : s.fsm = .coefDraw job xs sh) (quiet : s.noRelease job)
    (count : sh.coefs.length + draws.length + 1 = job.t - 1) (answers : s.agenda = drawAnswers (draws ++ [b]) ++ rest) :
    Sys2Proof.core.run (draws.length + 1) s =
      .next ((s.drew (draws ++ [b]) rest).coefDrawn job xs { sh with coefs := sh.coefs ++ draws } b) := by
  induction draws generalizing s sh with
  | nil =>
    refine (run_succ_of_step (M := Sys2Proof.core) (step_coefDraw quiet answers point) 0).trans ?_
    rw [List.append_nil]
    rfl
  | cons c draws ih =>
    rw [List.length_cons] at count
    let drawn : State := s.drew [c] (drawAnswers (draws ++ [b]) ++ rest)
    let next : Fsm := .coefDraw job xs { sh with coefs := sh.coefs ++ [c] }
    have stepped : step s = .next (drawn.goto next) := by
      rw [← State.coefDrawn_of_more (by rw [List.length_append, List.length_singleton]; omega)]
      exact step_coefDraw quiet answers point
    have ran := ih (s := drawn.goto next) rfl quiet (by simp; omega) rfl
    refine (run_succ_of_step (M := Sys2Proof.core) stepped _).trans (ran.trans (congrArg _ ?_))
    rw [List.append_assoc, List.singleton_append, List.cons_append, ← List.singleton_append (x := c) (l := draws ++ [b]),
      ← s.drew_drew [c] (draws ++ [b]) (drawAnswers (draws ++ [b]) ++ rest)]
    exact State.coefDrawn_goto (drawn.drew (draws ++ [b]) rest) next job xs _ b

/-- As many draws as a polynomial has upper coefficients end in its last coefficient (43_engine.md R214). -/
theorem run_polynomial_of_fresh {block : List Byte} {ys : List (List Byte)} {n : ℕ}
    (point : s.fsm = .coefDraw job xs ⟨n, block, [], ys⟩) (quiet : s.noRelease job) (two : 2 ≤ job.t)
    (count : draws.length = job.t - 1) (answers : s.agenda = drawAnswers draws ++ rest) :
    ∃ init b, init ++ [b] = draws ∧
      Sys2Proof.core.run draws.length s = .next ((s.drew draws rest).coefDrawn job xs ⟨n, block, init, ys⟩ b) := by
  obtain rfl | ⟨init, b, rfl⟩ := List.eq_nil_or_concat' draws
  · rw [List.length_nil] at count
    omega
  · rw [List.length_append, List.length_singleton] at count ⊢
    exact ⟨init, b, rfl, run_polynomial point quiet (by simpa using count) answers⟩

end

/-! ## One block -/

section
variable {s : State} {job : SplitJob} {xs : List Byte} {ys : List (List Byte)} {n : ℕ} {draws : List Byte} {rest : List Event}

theorem run_shareBlock_perBlock {block : List Byte} (point : s.fsm = .coefDraw job xs ⟨n, block, [], ys⟩) (quiet : s.noRelease job)
    (two : 2 ≤ job.t) (policy : job.policy = .perBlock) (slices : ys.length = xs.length) (count : draws.length = job.t - 1)
    (answers : s.agenda = drawAnswers draws ++ rest) :
    Sys2Proof.core.run draws.length s = .next ((s.drew draws rest).finishBlock job xs n
      (appendSlices xs ys (sliceOf s.params.poly .perBlock job.t block draws))) := by
  obtain ⟨init, b, rfl, ran⟩ := run_polynomial_of_fresh point quiet two count answers
  refine ran.trans (congrArg _ ?_)
  rw [State.coefDrawn_of_perBlock count.not_lt policy, foldl_appendColumn _ _ _ slices]
  refine congrArg _ (congrArg _ (funext fun x => ?_))
  rw [sliceOf_perBlock, List.take_of_length_le count.le]
  rfl

/-- Under the per-byte policy each byte takes the next T - 1 draws (43_engine.md R214). -/
theorem run_shareBlock_perByte {c : Byte} {block : List Byte} (point : s.fsm = .coefDraw job xs ⟨n, c :: block, [], ys⟩)
    (quiet : s.noRelease job) (two : 2 ≤ job.t) (policy : job.policy = .perByte) (slices : ys.length = xs.length)
    (count : draws.length = (job.t - 1) * (block.length + 1)) (answers : s.agenda = drawAnswers draws ++ rest) :
    Sys2Proof.core.run draws.length s = .next ((s.drew draws rest).finishBlock job xs n
      (appendSlices xs ys (sliceOf s.params.poly .perByte job.t (c :: block) draws))) := by
  induction block generalizing s c ys draws with
  | nil =>
    rw [List.length_nil, Nat.zero_add, Nat.mul_one] at count
    obtain ⟨init, b, rfl, ran⟩ := run_polynomial_of_fresh point quiet two count answers
    rw [State.coefDrawn_of_last count.not_lt policy rfl] at ran
    rwa [appendSlices_perByte_singleton _ xs ys c count]
  | cons d block ih =>
    rw [List.length_cons, Nat.mul_succ] at count
    obtain ⟨coefs, later, rfl, first⟩ : ∃ coefs later, coefs ++ later = draws ∧ coefs.length = job.t - 1 :=
      ⟨_, _, draws.take_append_drop _, List.length_take_of_le (by omega)⟩
    rw [List.length_append] at count ⊢
    obtain ⟨init, b, rfl, ran⟩ := run_polynomial_of_fresh point quiet two first (answers.trans (drawAnswers_append _ _ _))
    rw [State.coefDrawn_of_next first.not_lt policy rfl] at ran
    let drawn : State := s.drew (init ++ [b]) (drawAnswers later ++ rest)
    let next : Fsm := .coefDraw job xs ⟨n, d :: block, [], appendColumn s.params.poly xs (init ++ [b]) ys c⟩
    have ran' := ih (s := drawn.goto next) (draws := later) rfl quiet (by simp [slices]) (by omega) rfl
    refine (run_add_of_run (M := Sys2Proof.core) ran _).trans (ran'.trans (congrArg _ ?_))
    rw [appendSlices_perByte_cons _ xs ys c first, ← s.drew_drew (init ++ [b]) later (drawAnswers later ++ rest)]
    exact State.finishBlock_goto (drawn.drew later rest) next job xs n _

end

end Sys2Proof.Machine
end

section
/-! SPLIT from its acceptance to its end (43_engine.md R215, R216): the draws of the coordinates, then those of the block, then the
shares in MEM. -/

namespace Sys2Proof.Machine

/-! ## A block from its start -/

/-- An empty block makes no draw (43_engine.md R214). -/
theorem coefficientDraws_zero (policy : Policy) (t : ℕ) : coefficientDraws policy t 0 = 0 := by
  cases policy <;> rfl

/-- ShareBlock takes its draws and hands the block's slices to the command (43_engine.md R214). -/
theorem run_startBlock {s : State} {job : SplitJob} {xs block draws : List Byte} {rest : List Event} (quiet : s.noRelease job)
    (two : 2 ≤ job.t) (all : xs.length = job.n) (count : draws.length = coefficientDraws job.policy job.t block.length)
    (answers : s.agenda = drawAnswers draws ++ rest) :
    Sys2Proof.core.run draws.length (s.startBlock job xs block) = .next ((s.drew draws rest).finishBlock job xs block.length
      (xs.map (sliceOf s.params.poly job.policy job.t block draws))) := by
  cases block with
  | nil =>
    rw [List.length_nil, coefficientDraws_zero] at count
    obtain rfl := List.eq_nil_of_length_eq_zero count
    have slices : List.replicate job.n [] = xs.map (sliceOf s.params.poly job.policy job.t [] []) := by
      rw [← all]
      exact List.map_const'.symm
    have unchanged : s.drew [] rest = s := s.drew_nil answers
    rw [unchanged, ← slices]
    rfl
  | cons c block =>
    have empty : (List.replicate job.n ([] : List Byte)).length = xs.length := by rw [List.length_replicate, all]
    let next : Fsm := .coefDraw job xs ⟨(c :: block).length, c :: block, [], List.replicate job.n []⟩
    have left := State.finishBlock_goto (s.drew draws rest) next job xs (c :: block).length
    rw [← appendSlices_replicate all, ← left]
    cases policy : job.policy with
    | perByte =>
      rw [policy] at count
      exact run_shareBlock_perByte (s := s.goto next) rfl quiet two policy empty count answers
    | perBlock =>
      rw [policy] at count
      exact run_shareBlock_perBlock (s := s.goto next) rfl quiet two policy empty count answers

/-! ## The shares -/

theorem sharesOf_map (xs : List Byte) (f : Byte → List Byte) : sharesOf xs (xs.map f) = xs.map fun x => x :: f x := by
  rw [sharesOf, List.zipWith_map_right, List.zipWith_self]

/-- Lists of one length, one after another: where the k-th stands. -/
theorem take_drop_flatten {l : List (List Byte)} {m : ℕ} (uniform : ∀ y ∈ l, y.length = m) {k : ℕ} (lt : k < l.length) :
    (l.flatten.drop (k * m)).take m = l[k] := by
  induction l generalizing k with
  | nil => cases lt
  | cons y l ih =>
    have head : y.length = m := uniform y List.mem_cons_self
    cases k with
    | zero => simp [← head]
    | succ k =>
      rw [List.flatten_cons, Nat.succ_mul, Nat.add_comm, ← head, ← List.drop_drop, List.drop_left, head]
      exact ih (fun z mem => uniform z (List.mem_cons_of_mem y mem)) (Nat.lt_of_succ_lt_succ lt)

theorem State.writeShares_eq (s : State) (a : ℕ) (shares : List (List Byte)) :
    s.writeShares a shares = s.writeBytes a shares.flatten := by
  rw [State.writeShares, Memory.storeShares_eq]
  rfl

@[simp] theorem length_sliceOf (p : Poly) (policy : Policy) (t : ℕ) (block draws : List Byte) (x : Byte) :
    (sliceOf p policy t block draws x).length = block.length := by
  simp [sliceOf]

/-! ## SPLIT -/

/-- The state once SPLIT, accepted in `s`, has drawn its coordinates and its coefficients, apart from MEM, RLEN and the end. -/
def State.splitDrew (s : State) (draws coefs : List Byte) (rest : List Event) : State :=
  { s with
    pvalid := false, x := storeFrom s.x 0 (acceptedCoordinates draws), xcount := BitVec.ofNat 9 s.cfgN.toNat
    trace := s.trace ++ drawRecord (draws ++ coefs), agenda := rest }

/-- The shares that SPLIT, accepted in `s`, makes of its draws (43_engine.md R216). -/
def State.splitShares (s : State) (draws coefs : List Byte) : List (List Byte) :=
  (acceptedCoordinates draws).map fun x => x :: sliceOf s.params.poly s.policy s.cfgT.toNat
    (s.readBytes s.cfgSrc.toNat s.cfgLen.toNat) coefs x

section
variable {s : State} {draws coefs : List Byte}

theorem State.length_of_mem_splitShares : ∀ y ∈ s.splitShares draws coefs, y.length = s.cfgLen.toNat + 1 := by
  simp [State.splitShares]

variable (all : (acceptedCoordinates draws).length = s.cfgN.toNat)
include all

theorem State.length_flatten_splitShares : (s.splitShares draws coefs).flatten.length = s.cfgN.toNat * (s.cfgLen.toNat + 1) := by
  rw [State.splitShares, ← sharesOf_map, length_flatten_sharesOf, all]
  exact ⟨List.length_map _, by simp⟩

theorem State.readBytes_splitShares (u : State) (dst : ℕ) {k : ℕ} (lt : k < s.cfgN.toNat) :
    (u.writeBytes dst (s.splitShares draws coefs).flatten).readBytes (dst + k * (s.cfgLen.toNat + 1)) (s.cfgLen.toNat + 1) =
      (acceptedCoordinates draws).getD k 0 :: sliceOf s.params.poly s.policy s.cfgT.toNat
        (s.readBytes s.cfgSrc.toNat s.cfgLen.toNat) coefs ((acceptedCoordinates draws).getD k 0) := by
  have within : k < (acceptedCoordinates draws).length := by omega
  rw [u.readBytes_writeBytes, take_drop_flatten State.length_of_mem_splitShares]
  · simp [State.splitShares, within]
  · rwa [State.splitShares, List.length_map, all]
  · rw [State.length_flatten_splitShares all, ← Nat.succ_mul]
    exact Nat.mul_le_mul_right _ lt

/-- SPLIT's answered draws lead to its end, with every share written (43_engine.md R215). -/
theorem run_split {rest : List Event} (two : 2 ≤ s.cfgT.toNat) (few : (acceptedCoordinates draws.dropLast).length < s.cfgN.toNat)
    (count : coefs.length = coefficientDraws s.policy s.cfgT.toNat s.cfgLen.toNat)
    (answers : s.agenda = drawAnswers (draws ++ coefs) ++ rest) :
    Sys2Proof.core.run (draws.length + coefs.length) (s.clearPvalid.startSampling s.splitJob) =
      .next ((((s.splitDrew draws coefs rest).writeBytes s.cfgDst.toNat (s.splitShares draws coefs).flatten).setRlen
        (BitVec.ofNat 32 (s.cfgN.toNat * (s.cfgLen.toNat + 1)))).complete) := by
  have sampled := run_sampleDraw_of_complete (s := s.clearPvalid.startSampling s.splitJob) (job := s.splitJob) (.inr rfl) rfl
    (answers.trans (drawAnswers_append draws coefs rest)) all few
  rw [State.sampledFrom_eq] at sampled
  refine (run_add_of_run (M := Sys2Proof.core) sampled _).trans ?_
  refine (run_startBlock (job := s.splitJob) (.inr rfl) two all (by rwa [State.length_readBytes]) rfl).trans (congrArg _ ?_)
  show ((State.writeShares _ _ _).setRlen (BitVec.ofNat 32 (_ * ((s.readBytes s.cfgSrc.toNat s.cfgLen.toNat).length + 1)))).complete = _
  have record : drawRecord (draws ++ coefs) = drawRecord draws ++ drawRecord coefs := List.map_append
  rw [State.length_readBytes, State.writeShares_eq, sharesOf_map, State.splitDrew, record, ← List.append_assoc]
  rfl

end

/-- Settles O48: the acceptance waits for the first coordinate, and the run of the draws writes the shares before it completes. -/
theorem splitWritesTheSharesOfTheSecret : Obligations.SplitWritesTheSharesOfTheSecret := by
  intro s draws coefs rest n t len src dst xs secret idle valid source dest all few count answers
  obtain ⟨two, le, byte⟩ := (splitValid_iff _ _).mp valid
  have written : (s.splitShares draws coefs).flatten.length = n * (len + 1) := State.length_flatten_splitShares all
  have point : s.fsm = .idle := s.busy_eq_false_iff.mp idle
  refine ⟨_, _, exec_split_of_fits valid source dest, ⟨rfl, rfl, rfl, rfl, rfl, rfl, rfl⟩, run_split all two few count answers,
    fun k lt => ?_, fun b outside => ?_, ?_, fun j ge => ?_, ?_, rfl,
    State.channelBytes_of_trace_append_drawRecord (bytes := draws ++ coefs) rfl, ?_⟩
  · exact State.readBytes_splitShares all (s.splitDrew draws coefs rest) dst lt
  · exact State.readByte_writeBytes_of_outside (s.splitDrew draws coefs rest) (by rwa [written])
  · exact all ▸ take_toList_storeFrom_zero s.x (all.trans_le byte)
  · exact getElem_storeFrom_of_ge s.x 0 xs (by omega)
  · exact (BitVec.toNat_ofNat _ _).trans (Nat.mod_eq_of_lt (by omega))
  · rw [State.complete, ← point]
    rfl

end Sys2Proof.Machine
end

section
/-! File names under the empty pattern (44_streaming.md R280-R283): a part's name is its index in decimal digits, and a name of digits
collapses to the token. -/

namespace Sys2Proof.Machine

theorem isAsciiDigit_decimal {d : ℕ} (lt : d < 10) : isAsciiDigit (Char.ofNat (48 + d)) = true := by
  interval_cases d <;> rfl

theorem decimalDigits_succ_ne_nil (fuel n : ℕ) : decimalDigits (fuel + 1) n ≠ [] := by
  simp [decimalDigits]

theorem isAsciiDigit_of_mem_decimalDigits {fuel n : ℕ} {c : Char} (mem : c ∈ decimalDigits fuel n) : isAsciiDigit c = true := by
  induction fuel generalizing n with
  | zero => cases mem
  | succ fuel ih =>
    rw [decimalDigits, List.mem_append, List.mem_singleton] at mem
    obtain upper | rfl := mem
    · split at upper
      · cases upper
      · exact ih upper
    · exact isAsciiDigit_decimal (Nat.mod_lt n (by decide))

/-- One maximal run of digits becomes one token (44_streaming.md R283). -/
theorem collapse_of_digits {c : Char} {cs : List Char} (digits : ∀ d ∈ c :: cs, isAsciiDigit d = true) :
    collapse (c :: cs) = ['%', 'i'] := by
  induction cs generalizing c with
  | nil => simp [collapse, digits c]
  | cons d cs ih =>
    have tail := ih fun e mem => digits e (List.mem_cons_of_mem c mem)
    have first : isAsciiDigit c = true := digits c List.mem_cons_self
    have second : isAsciiDigit d = true := digits d (List.mem_cons_of_mem c List.mem_cons_self)
    rw [collapse, if_pos first, tail]
    simp [second]

/-- The empty pattern stands for `%i`, which is replaced by the index (44_streaming.md R281, R282). -/
theorem partFileName_nil (k : ℕ) : partFileName [] k = decimalDigits 10 (k + 1) := List.append_nil _

theorem nameMatches_partFileName_nil (k : ℕ) : nameMatches (partFileName [] k) [] = true := by
  obtain ⟨c, cs, name⟩ := List.exists_cons_of_ne_nil (decimalDigits_succ_ne_nil 9 (k + 1))
  have digits : ∀ d ∈ c :: cs, isAsciiDigit d = true := fun d mem => isAsciiDigit_of_mem_decimalDigits (name ▸ mem)
  rw [nameMatches, partFileName_nil, name, collapse_of_digits digits]
  rfl

theorem splitHostError_of_noToken {pattern : List Char} (nonempty : pattern ≠ []) (noToken : hasToken pattern = false)
    (input : MainStream) : splitHostError pattern input = some .validation :=
  if_pos (by simp [splitPatternOk, nonempty, noToken])

/-- Settles O60: every index, not only the first 255, gives a name of digits; the pattern's check comes before the input's. -/
theorem emptyPatternNamesMatchAtCombine : Obligations.EmptyPatternNamesMatchAtCombine :=
  ⟨rfl, fun k => nameMatches_partFileName_nil k, fun _ input nonempty noToken _ => splitHostError_of_noToken nonempty noToken input⟩

end Sys2Proof.Machine
end

section
/-! The acceptance of SSPLIT and SCOMB (44_streaming.md R254, R260): their checks come before any request. -/

namespace Sys2Proof.Machine

section
variable {s : State}

/-- The checks of SSPLIT (44_streaming.md R254). -/
theorem exec_ssplit_of_invalid (invalid : splitValid s.cfgN.toNat s.cfgT.toNat = false ∨ blockValid s.params s.cfgBlock.toNat = false) :
    exec .ssplit s = .next (s.raise .validation) := by
  obtain bad | bad := invalid <;> simp [exec, execSsplit, bad]

theorem exec_ssplit_of_valid (valid : splitValid s.cfgN.toNat s.cfgT.toNat = true)
    (block : blockValid s.params s.cfgBlock.toNat = true) :
    exec .ssplit s = .next ((s.clearPvalid.setRlen 0).startSampling s.streamSplitJob) :=
  congrArg _ ((if_neg (by simp [valid])).trans (if_neg (by simp [block])))

/-- The checks of SCOMB (44_streaming.md R260). -/
theorem exec_scomb_of_invalid (invalid : combineCountValid s.cfgK.toNat = false ∨ blockValid s.params s.cfgBlock.toNat = false) :
    exec .scomb s = .next (s.raise .validation) := by
  obtain bad | bad := invalid <;> simp [exec, execScomb, bad]

theorem exec_scomb_of_valid (valid : combineCountValid s.cfgK.toNat = true) (block : blockValid s.params s.cfgBlock.toNat = true) :
    exec .scomb s = .next (((s.setRlen 0).setXcount 0).goto (.headerRead s.combJob [])) :=
  congrArg _ ((if_neg (by simp [valid])).trans (if_neg (by simp [block])))

end

/-- Settles O54: bounds that do not hold fail one of the two checks, and a command that fails one only raises. -/
theorem streamingChecksComeFirst : Obligations.StreamingChecksComeFirst := by
  refine fun s idle => ⟨fun bad => ?_, fun bad => ?_⟩
  · have invalid : splitValid s.cfgN.toNat s.cfgT.toNat = false ∨ blockValid s.params s.cfgBlock.toNat = false := by
      rw [← Bool.not_eq_true, ← Bool.not_eq_true, splitValid_iff, blockValid_iff]
      have := s.cfgN.isLt
      omega
    rw [exec_ssplit_of_invalid invalid, State.raise_of_idle idle]
    rfl
  · have invalid : combineCountValid s.cfgK.toNat = false ∨ blockValid s.params s.cfgBlock.toNat = false := by
      rw [← Bool.not_eq_true, ← Bool.not_eq_true, combineCountValid_iff, blockValid_iff]
      omega
    rw [exec_scomb_of_invalid invalid, State.raise_of_idle idle]
    rfl

end Sys2Proof.Machine
end

section
/-! The stream port (44_streaming.md R250): the answer to an outstanding request is recorded and taken, an illegal one ends the command,
and nothing that was written to a channel is taken back. -/

namespace Sys2Proof.Machine

/-! ## The record -/

/-- The state with these transactions recorded and these inputs still to come. -/
def State.recorded (s : State) (ts : List Transaction) (rest : List Event) : State :=
  { s with trace := s.trace ++ ts, agenda := rest }

theorem State.channelBytes_of_trace_append {s t : State} {ts : List Transaction} (trace : t.trace = s.trace ++ ts) (ch : Channel) :
    t.channelBytes ch = s.channelBytes ch ++ ts.flatMap (Transaction.bytesOn ch) := by
  rw [State.channelBytes, trace, List.flatMap_append, State.channelBytes]

@[simp] theorem Transaction.bytesOn_read (ch c : Channel) (max : ℕ) (a : StreamAnswer) :
    Transaction.bytesOn ch (.stream (.read c max) a) = [] := rfl

/-- Only a legal answer to a WRITE puts its bytes on the channel (44_streaming.md R250). -/
theorem Transaction.bytesOn_of_illegal {r : StreamRequest} {a : StreamAnswer} (illegal : legalAnswer r a = false) (ch : Channel) :
    Transaction.bytesOn ch (.stream r a) = [] := by
  cases r with
  | read => rfl
  | write =>
    cases a with
    | ok => cases illegal
    | _ => rfl

/-! ## The step that takes an answer -/

section
variable {s : State} {a : StreamAnswer} {rest : List Event} (next : s.eventIsNext (.stream a) rest)
include next

theorem step_stream {r : StreamRequest} (request : s.request = some (.stream r)) :
    step s = .next ((s.recorded [.stream r a] rest).streamResponse a) := by
  have request' : (s.withAgenda rest).request = some (.stream r) := request
  rw [step_of_event next.1 next.2, State.handle, State.streamAnswer, request']
  rfl

theorem step_headerRead {job : CombJob} {xs : List Byte} (point : s.fsm = .headerRead job xs) :
    step s = .next ((s.recorded [.stream (.read (.part xs.length) 1) a] rest).headerArrived job xs a) := by
  have point' : (s.recorded [.stream (.read (.part xs.length) 1) a] rest).fsm = .headerRead job xs := point
  rw [step_stream next (congrArg Fsm.request point), State.streamResponse, point']

theorem step_partRead {job : CombJob} {xs : List Byte} {chunks : List (List Byte)} (point : s.fsm = .partRead job xs chunks) :
    step s = .next ((s.recorded [.stream (.read (.part chunks.length) job.block) a] rest).partArrived job xs chunks a) := by
  have point' : (s.recorded [.stream (.read (.part chunks.length) job.block) a] rest).fsm = .partRead job xs chunks := point
  rw [step_stream next (congrArg Fsm.request point), State.streamResponse, point']

theorem step_endRead {job : CombJob} {k : ℕ} (point : s.fsm = .endRead job k) :
    step s = .next ((s.recorded [.stream (.read (.part k) job.block) a] rest).endArrived job k a) := by
  have point' : (s.recorded [.stream (.read (.part k) job.block) a] rest).fsm = .endRead job k := point
  rw [step_stream next (congrArg Fsm.request point), State.streamResponse, point']

end

/-! ## Illegal answers -/

section
variable {s : State} {a : StreamAnswer}

theorem State.headerArrived_of_illegal {job : CombJob} {xs : List Byte} {ch : Channel} (illegal : legalAnswer (.read ch 1) a = false) :
    s.headerArrived job xs a = s.raise .io := by
  unfold State.headerArrived
  split
  · cases illegal
  all_goals rfl

/-- An illegal answer to the outstanding request is an IOError at every point of the FSM (44_streaming.md R250). -/
theorem State.streamResponse_of_illegal {r : StreamRequest} (request : s.request = some (.stream r)) (illegal : legalAnswer r a = false) :
    s.streamResponse a = s.raise .io := by
  unfold State.streamResponse
  rw [State.request] at request
  generalize s.fsm = f at request
  cases f <;> cases request
  case headerRead => exact State.headerArrived_of_illegal illegal
  case headerWrite | sliceWrite | mainWrite =>
    cases a with
    | ok => cases illegal
    | _ => rfl
  case chunkRead | endRead =>
    cases a with
    | eof => cases illegal
    | chunk bytes => exact if_neg (Bool.eq_false_iff.mp illegal)
    | _ => rfl
  case partRead =>
    cases a with
    | eof => cases illegal
    | chunk bytes => exact if_pos illegal
    | _ => rfl

end

/-- Settles O57: the answer is recorded, puts no byte on a channel, and raises IOError. -/
theorem illegalStreamAnswersAreIoErrors : Obligations.IllegalStreamAnswersAreIoErrors := by
  intro s r a rest next request illegal
  have stepped := step_stream next request
  rw [State.streamResponse_of_illegal (s := s.recorded [.stream r a] rest) request illegal] at stepped
  refine ⟨_, stepped, fun ch => ?_, rfl⟩
  rw [State.channelBytes_of_trace_append (s := s) rfl, List.flatMap_singleton, Transaction.bytesOn_of_illegal illegal,
    List.append_nil]

/-! ## SCOMB's errors and ends -/

theorem State.headerArrived_of_repeated {s : State} {job : CombJob} {xs : List Byte} {x : Byte} (last : xs.length + 1 = job.k)
    (repeated : ¬(xs ++ [x]).Nodup) :
    s.headerArrived job xs (.chunk [x]) = ((s.setX xs.length x).setXcount job.k).raise .arithmetic := by
  have duplicate : hasDuplicate (xs ++ [x]) = true := by rwa [← Bool.not_eq_false, hasDuplicate_eq_false_iff]
  simp [State.headerArrived, last, duplicate]

theorem State.partArrived_of_otherLength {s : State} {job : CombJob} {xs c0 c : List Byte} {cs : List (List Byte)}
    (legal : legalChunk job.block c = true) (other : c.length ≠ c0.length) :
    s.partArrived job xs (c0 :: cs) (.chunk c) = s.raise .sizeMismatch :=
  (if_neg (by simp [legal])).trans (if_pos other)

/-- Settles O58: each case is one branch of the answer's effect, and a READ puts nothing on a channel. -/
theorem scombHeaderAndRoundErrors : Obligations.ScombHeaderAndRoundErrors := by
  have silent {s t : State} {c : Channel} {max : ℕ} {a : StreamAnswer} (trace : t.trace = s.trace ++ [.stream (.read c max) a])
      (ch : Channel) : t.channelBytes ch = s.channelBytes ch :=
    (State.channelBytes_of_trace_append trace ch).trans (List.append_nil _)
  refine ⟨fun s job xs x rest point => ⟨fun next => ?_, fun next le last repeated => ?_⟩,
    fun s job xs c0 cs c rest point => ⟨fun next => ?_, fun next legal other => ?_⟩⟩
  · exact ⟨_, step_headerRead next point, rfl, rfl, rfl, rfl, rfl⟩
  · refine ⟨_, step_headerRead next point, ?_⟩
    rw [State.headerArrived_of_repeated last repeated]
    exact ⟨rfl, rfl, rfl, (BitVec.toNat_ofNat _ _).trans (Nat.mod_eq_of_lt (by omega)), rfl, silent rfl⟩
  · exact ⟨_, step_partRead next point, rfl, rfl, rfl, rfl, silent rfl⟩
  · refine ⟨_, step_partRead next point, ?_⟩
    rw [State.partArrived_of_otherLength legal other]
    exact ⟨rfl, rfl, rfl, rfl, silent rfl⟩

/-- Settles O59: part 0's EOF by the end rule, a later part's by whether it is the last. -/
theorem endOfStreamRules : Obligations.EndOfStreamRules := by
  intro s job xs c k rest
  refine ⟨fun point next => ?_, fun point next => ?_, fun point next legal => ?_⟩
  · refine ⟨_, step_partRead next point, fun leader => ?_, fun symmetric => ?_⟩
    · rw [State.partArrived, State.leaderEnded, leader]
      exact ⟨rfl, rfl, rfl⟩
    · rw [State.partArrived, State.leaderEnded, symmetric]
      rfl
  · refine ⟨_, step_endRead next point, fun more => ?_, fun last => ?_⟩
    · rw [State.endArrived, if_pos more]
      rfl
    · rw [State.endArrived, if_neg (by omega)]
      exact ⟨rfl, rfl, rfl⟩
  · refine ⟨_, step_endRead next point, ?_⟩
    rw [State.endArrived, if_pos legal]
    exact ⟨rfl, rfl, rfl⟩

end Sys2Proof.Machine
end

section
/-! The record of the ports only grows (44_streaming.md R257, 70_reset_and_hazards.md R341): a command leaves it to the ports, and the
ports append to it. -/

namespace Sys2Proof.Machine

/-! ## Commands and answers -/

theorem State.trace_of_runs {s t : State} {i : Instr} (runs : s.Runs i t) : t.trace = s.trace := by
  cases runs with
  | combined => simp [State.finishCombine]
  | _ => rfl

section
variable (s : State)

theorem State.storeReg_trace (w : Word) (r : RegName) : (s.storeReg w r).trace = s.trace := by
  cases r <;> rfl

theorem State.polyAnswer_trace (c0 : Byte) (d i : ℕ) (a : EntropyAnswer) : (s.polyAnswer c0 d i a).trace = s.trace := by
  cases a with
  | fail => rfl
  | byte b =>
    simp only [State.polyAnswer]
    split <;> rfl

section
variable (job : SplitJob) (xs : List Byte)

theorem State.finishBlock_trace (n : ℕ) (ys : List (List Byte)) : (s.finishBlock job xs n ys).trace = s.trace := by
  unfold State.finishBlock
  split <;> rfl

theorem State.startBlock_trace (block : List Byte) : (s.startBlock job xs block).trace = s.trace := by
  cases block with
  | nil => exact s.finishBlock_trace job xs 0 _
  | cons => rfl

theorem State.finishSampling_trace : (s.finishSampling job xs).trace = s.trace := by
  unfold State.finishSampling
  split
  · exact (s.setXcount job.n).startBlock_trace job xs _
  · rfl

theorem State.sampleAnswer_trace (a : EntropyAnswer) : (s.sampleAnswer job xs a).trace = s.trace := by
  cases a with
  | fail => rfl
  | byte b =>
    obtain ⟨-, hs⟩ | ⟨-, -, hs⟩ | ⟨-, -, hs⟩ := s.sampled_cases job xs b <;> rw [State.sampleAnswer, hs]
    · rfl
    · rfl
    · exact (s.setX xs.length b).finishSampling_trace job _

theorem State.coefAnswer_trace (sh : Sharing) (a : EntropyAnswer) : (s.coefAnswer job xs sh a).trace = s.trace := by
  cases a with
  | fail => rfl
  | byte b =>
    obtain ⟨-, hs⟩ | ⟨-, -, -, hs⟩ | ⟨-, -, -, hs⟩ | ⟨-, -, hs⟩ := s.coefDrawn_cases job xs sh b <;> rw [State.coefAnswer, hs]
    · rfl
    · rfl
    · exact s.finishBlock_trace job xs _ _
    · exact s.finishBlock_trace job xs _ _

theorem State.headerWritten_trace (k : ℕ) (a : StreamAnswer) : (s.headerWritten job xs k a).trace = s.trace := by
  cases a with
  | ok =>
    simp only [State.headerWritten]
    split <;> rfl
  | _ => rfl

theorem State.chunkArrived_trace (a : StreamAnswer) : (s.chunkArrived job xs a).trace = s.trace := by
  cases a with
  | chunk bytes =>
    simp only [State.chunkArrived]
    split
    · exact s.startBlock_trace job xs bytes
    · rfl
  | _ => rfl

theorem State.sliceWritten_trace (n : ℕ) (ys : List (List Byte)) (k : ℕ) (a : StreamAnswer) :
    (s.sliceWritten job xs n ys k a).trace = s.trace := by
  cases a with
  | ok =>
    simp only [State.sliceWritten]
    split <;> rfl
  | _ => rfl

end

section
variable (job : CombJob) (xs : List Byte)

theorem State.headerArrived_trace (a : StreamAnswer) : (s.headerArrived job xs a).trace = s.trace := by
  unfold State.headerArrived
  split
  · dsimp only
    split
    · rfl
    · split <;> rfl
  all_goals rfl

theorem State.partArrived_trace (chunks : List (List Byte)) (a : StreamAnswer) :
    (s.partArrived job xs chunks a).trace = s.trace := by
  cases a with
  | eof =>
    simp only [State.partArrived]
    split
    · unfold State.leaderEnded
      split <;> rfl
    · rfl
  | chunk bytes =>
    simp only [State.partArrived]
    split
    · rfl
    · split
      · rfl
      · obtain ⟨-, hs⟩ | ⟨-, hs⟩ := s.chunkTaken_cases job xs (chunks ++ [bytes]) <;> rw [hs] <;> rfl
  | _ => rfl

theorem State.endArrived_trace (k : ℕ) (a : StreamAnswer) : (s.endArrived job k a).trace = s.trace := by
  cases a with
  | eof | chunk =>
    simp only [State.endArrived]
    split <;> rfl
  | _ => rfl

theorem State.mainWritten_trace (out : List Byte) (a : StreamAnswer) : (s.mainWritten job xs out a).trace = s.trace := by
  cases a <;> rfl

end

theorem State.streamResponse_trace (a : StreamAnswer) : (s.streamResponse a).trace = s.trace := by
  unfold State.streamResponse
  cases s.fsm with
  | headerWrite job xs k => exact s.headerWritten_trace job xs k a
  | chunkRead job xs => exact s.chunkArrived_trace job xs a
  | sliceWrite job xs n ys k => exact s.sliceWritten_trace job xs n ys k a
  | headerRead job xs => exact s.headerArrived_trace job xs a
  | partRead job xs chunks => exact s.partArrived_trace job xs chunks a
  | endRead job k => exact s.endArrived_trace job k a
  | mainWrite job xs out => exact s.mainWritten_trace job xs out a
  | _ => rfl

/-! ## Events -/

/-- The record in `t` is the one in `s` with what has happened since appended. -/
def State.RecordGrows (t : State) : Prop := ∃ ts, t.trace = s.trace ++ ts

variable {s} {t : State}

theorem State.recordGrows_of_same (same : t.trace = s.trace) : s.RecordGrows t := ⟨[], same.trans (List.append_nil _).symm⟩

theorem State.recordGrows_of_log {e : Transaction} (same : t.trace = (s.log e).trace) : s.RecordGrows t := ⟨[e], same⟩

variable (s)

theorem State.recordGrows_carryOut (m : MemTxn) : s.RecordGrows (s.carryOut m) := by
  obtain ⟨_, _, -, hs⟩ | ⟨_, _, -, -, hs⟩ | ⟨_, _, -, -, hs⟩ := s.carryOut_cases m <;> rw [hs]
  · exact State.recordGrows_of_log rfl
  · exact State.recordGrows_of_same rfl
  · exact State.recordGrows_of_same rfl

theorem State.countFree_trace (r : RegName) : (s.countFree r).trace = s.trace := by
  unfold State.countFree
  split
  · split <;> rfl
  · rfl

theorem State.recordGrows_hostRead (off : BitVec 12) : s.RecordGrows (s.hostRead off) :=
  State.recordGrows_of_log (congrArg (· ++ [_]) (s.countFree_trace (regAt off)))

theorem State.recordGrows_memAccess (m : MemTxn) : s.RecordGrows (s.memAccess m) := by
  cases held : s.memHeld with
  | true =>
    rw [State.memAccess_of_held held]
    exact State.recordGrows_of_same rfl
  | false =>
    rw [State.memAccess_of_free held]
    exact s.recordGrows_carryOut m

theorem State.recordGrows_releaseHeld : s.RecordGrows s.releaseHeld := by
  obtain ⟨m, rest, -, -, hs⟩ | ⟨-, hs⟩ := s.releaseHeld_cases <;> rw [hs]
  · exact (s.withHeld rest).recordGrows_carryOut m
  · exact State.recordGrows_of_same rfl

theorem State.recordGrows_entropyAnswer (a : EntropyAnswer) : s.RecordGrows (s.entropyAnswer a) := by
  unfold State.entropyAnswer
  cases s.fsm with
  | polyDraw c0 d i => exact State.recordGrows_of_log ((s.log _).polyAnswer_trace c0 d i a)
  | sampleDraw job xs => exact State.recordGrows_of_log ((s.log _).sampleAnswer_trace job xs a)
  | coefDraw job xs sh => exact State.recordGrows_of_log ((s.log _).coefAnswer_trace job xs sh a)
  | _ => exact State.recordGrows_of_same rfl

theorem State.recordGrows_streamAnswer (a : StreamAnswer) : s.RecordGrows (s.streamAnswer a) := by
  obtain ⟨r, -, hs⟩ | hs := s.streamAnswer_cases a <;> rw [hs]
  · exact State.recordGrows_of_log ((s.log _).streamResponse_trace a)
  · exact State.recordGrows_of_same rfl

variable {s}

theorem State.Handled.recordGrows {e : Event} (h : s.Handled e t) : s.RecordGrows t := by
  cases h with
  | command _ _ _ run =>
    have same := State.trace_of_runs (exec_runs run)
    exact State.recordGrows_of_same same
  | stored => exact State.recordGrows_of_same (s.storeReg_trace _ _)
  | read off => exact s.recordGrows_hostRead off
  | memPort m => exact s.recordGrows_memAccess m
  | entropy a => exact s.recordGrows_entropyAnswer a
  | stream a => exact s.recordGrows_streamAnswer a
  | memStep => exact s.recordGrows_releaseHeld
  | _ => exact State.recordGrows_of_same rfl

theorem State.recordGrows_of_step (h : step s = .next t) : s.RecordGrows t := by
  obtain ⟨e, rest, -, handled⟩ | ⟨m, rest, rfl⟩ | rfl := step_next_cases h
  · exact handled.recordGrows
  · exact (s.withHeld rest).recordGrows_carryOut m
  · exact State.recordGrows_of_same rfl

end

/-- Settles O29: a step only appends to the record, and a channel's bytes are read off the record in order. -/
theorem nothingWrittenToAChannelIsTakenBack : Obligations.NothingWrittenToAChannelIsTakenBack := by
  intro s t ch h
  obtain ⟨ts, trace⟩ := State.recordGrows_of_step h
  exact ⟨_, (State.channelBytes_of_trace_append trace ch).symm⟩

end Sys2Proof.Machine
end

section
/-! Runs of a streaming command over its answers: what a run of events leads to, one after another, and the loop over the parts. -/

namespace Sys2Proof.Machine

/-! ## Runs -/

/-- A run of one step for each of these events leads from `s` to `t`. -/
def State.Reaches (s : State) (events : List Event) (t : State) : Prop := Sys2Proof.core.run events.length s = .next t

theorem State.reaches_nil (s : State) : s.Reaches [] s := rfl

theorem State.Reaches.append {s t u : State} {first later : List Event} (h : s.Reaches first t) (h' : t.Reaches later u) :
    s.Reaches (first ++ later) u := by
  rw [State.Reaches, List.length_append]
  exact (run_add_of_run (M := Sys2Proof.core) h _).trans h'

theorem State.reaches_drawAnswers {s t : State} {bytes : List Byte} (ran : Sys2Proof.core.run bytes.length s = .next t) :
    s.Reaches (drawAnswers bytes) t := by
  rwa [State.Reaches, drawAnswers, List.length_map]

/-! ## What a streaming command has done so far -/

/-- The state `s` with these transactions recorded, `n` more bytes in RLEN (44_streaming.md R256) and these inputs still to come. -/
def State.streamed (s : State) (ts : List Transaction) (n : ℕ) (rest : List Event) : State :=
  { s with rlen := s.rlen + BitVec.ofNat 32 n, trace := s.trace ++ ts, agenda := rest }

section
variable (s : State) (ts us : List Transaction) (n m : ℕ) (answers rest : List Event)

theorem State.streamed_params : (s.streamed ts n rest).params = s.params := rfl

theorem State.streamed_zero : s.streamed ts 0 rest = s.recorded ts rest := by
  simp [State.streamed, State.recorded]

theorem State.recorded_streamed : (s.streamed ts n answers).recorded us rest = s.streamed (ts ++ us) n rest := by
  simp [State.streamed, State.recorded]

theorem State.drew_streamed (bytes : List Byte) :
    (s.streamed ts n answers).drew bytes rest = s.streamed (ts ++ drawRecord bytes) n rest :=
  s.recorded_streamed ts (drawRecord bytes) n answers rest

theorem State.setRlen_streamed :
    (s.streamed ts n rest).setRlen ((s.streamed ts n rest).rlen + BitVec.ofNat 32 m) = s.streamed ts (n + m) rest := by
  simp [State.streamed, State.setRlen, BitVec.ofNat_add, BitVec.add_assoc]

end

section
variable {s : State} (noHeld : s.heldMem = []) {ts : List Transaction} {c : ℕ} {a : StreamAnswer} {rest : List Event}
include noHeld

/-- The answer to the request at the point `f` is recorded and taken; the rest of the run follows. -/
theorem State.Reaches.cons {f : Fsm} {r : StreamRequest} {events : List Event} {t : State} (request : f.request = some (.stream r))
    (h : (((s.streamed (ts ++ [.stream r a]) c rest).goto f).streamResponse a).Reaches events t) :
    ((s.streamed ts c (.stream a :: rest)).goto f).Reaches (.stream a :: events) t := by
  have next : ((s.streamed ts c (.stream a :: rest)).goto f).eventIsNext (.stream a) rest := ⟨rfl, .inl noHeld⟩
  rw [← s.recorded_streamed ts _ c (.stream a :: rest)] at h
  exact (run_succ_of_step (M := Sys2Proof.core) (step_stream next request) _).trans h

/-! ## One request to each part -/

/-- The record of the requests to `m` parts from part `k` on, all answered with `a`. -/
def answeredParts (request : ℕ → StreamRequest) (a : StreamAnswer) (k m : ℕ) : List Transaction :=
  (List.range' k m).map fun j => .stream (request j) a

/-- A loop over the parts that takes one answer `a` at the point of each part: after part `n - 1` it does `finish`. -/
theorem reaches_parts {point : ℕ → Fsm} {request : ℕ → StreamRequest} {finish : State → State} {n : ℕ}
    (requests : ∀ k, (point k).request = some (.stream (request k)))
    (answered : ∀ (s : State) (k : ℕ),
      (s.goto (point k)).streamResponse a = if k + 1 < n then s.goto (point (k + 1)) else finish s)
    {k m : ℕ} (pos : 0 < m) (count : k + m = n) :
    ((s.streamed ts c (List.replicate m (.stream a) ++ rest)).goto (point k)).Reaches (List.replicate m (.stream a))
      (finish (s.streamed (ts ++ answeredParts request a k m) c rest)) := by
  induction m generalizing k ts with
  | zero => exact absurd pos (lt_irrefl 0)
  | succ m ih =>
    refine .cons noHeld (requests k) ?_
    rw [answered]
    by_cases more : k + 1 < n
    · have later := ih (ts := ts ++ [.stream (request k) a]) (k := k + 1) (by omega) (by omega)
      rw [List.append_assoc] at later
      rw [if_pos more]
      exact later
    · obtain rfl : m = 0 := by omega
      rw [if_neg more]
      exact State.reaches_nil _

end

/-! ## One round after another -/

/-- Rounds that each lead back to the point `f`, with their record and the bytes they add to RLEN. -/
theorem reaches_rounds {ρ : Type} {s : State} {f : Fsm} {answers : ρ → List Event} {record : ρ → List Transaction} {size : ρ → ℕ}
    {rounds : List ρ}
    (round : ∀ r ∈ rounds, ∀ (ts : List Transaction) (c : ℕ) (rest : List Event),
      ((s.streamed ts c (answers r ++ rest)).goto f).Reaches (answers r) ((s.streamed (ts ++ record r) (c + size r) rest).goto f))
    (ts : List Transaction) (c : ℕ) (rest : List Event) :
    ((s.streamed ts c (rounds.flatMap answers ++ rest)).goto f).Reaches (rounds.flatMap answers)
      ((s.streamed (ts ++ rounds.flatMap record) (c + (rounds.map size).sum) rest).goto f) := by
  induction rounds generalizing ts c with
  | nil => simpa using State.reaches_nil _
  | cons r rounds ih =>
    obtain ⟨here, later⟩ := List.forall_mem_cons.mp round
    have first := here ts c (rounds.flatMap answers ++ rest)
    have others := ih later (ts ++ record r) (c + size r)
    rw [List.append_assoc, Nat.add_assoc] at others
    rw [List.flatMap_cons, List.append_assoc]
    exact first.append others

/-! ## What a record puts on a channel -/

theorem bytesOn_drawRecord (ch : Channel) (bytes : List Byte) : (drawRecord bytes).flatMap (Transaction.bytesOn ch) = [] := by
  simp [drawRecord, Transaction.bytesOn]

/-- The record of one WRITE to each of `n` parts, answered OK. -/
def partWrites (bytes : ℕ → List Byte) (n : ℕ) : List Transaction := answeredParts (fun k => .write (.part k) (bytes k)) .ok 0 n

theorem partWrites_succ (bytes : ℕ → List Byte) (n : ℕ) :
    partWrites bytes (n + 1) = partWrites bytes n ++ [.stream (.write (.part n) (bytes n)) .ok] := by
  simp [partWrites, answeredParts, ← List.range_eq_range', List.range_succ]

theorem bytesOn_main_partWrites (bytes : ℕ → List Byte) (n : ℕ) :
    (partWrites bytes n).flatMap (Transaction.bytesOn .main) = [] := by
  simp [partWrites, answeredParts, Transaction.bytesOn]

theorem bytesOn_part_partWrites (bytes : ℕ → List Byte) (n k : ℕ) :
    (partWrites bytes n).flatMap (Transaction.bytesOn (.part k)) = if k < n then bytes k else [] := by
  induction n with
  | zero => rfl
  | succ n ih =>
    rw [partWrites_succ, List.flatMap_append, ih, List.flatMap_singleton, Transaction.bytesOn]
    obtain lt | rfl | gt := Nat.lt_trichotomy k n
    · simp [lt, lt.ne', Nat.lt_succ_of_lt lt]
    · simp
    · simp [gt.ne, gt.not_gt, Nat.not_lt.mpr gt]

end Sys2Proof.Machine
end

section
/-! SSPLIT from its acceptance to its end (44_streaming.md R254, R255): the draws of the coordinates, the headers, one round per chunk,
and the end of CH_MAIN. -/

namespace Sys2Proof.Machine

/-- The record of the header WRITEs (44_streaming.md R254). -/
def headerRecord (xs : List Byte) : ℕ → List Transaction := partWrites fun k => [xs.getD k 0]

/-- The record of one round (44_streaming.md R255): the chunk, its coefficients and the WRITE of each part's slice. -/
def SplitJob.roundRecord (job : SplitJob) (p : Poly) (xs : List Byte) (round : List Byte × List Byte) : List Transaction :=
  [.stream (.read .main job.target.block) (.chunk round.1)] ++ drawRecord round.2 ++
    partWrites (fun k => (xs.map (sliceOf p job.policy job.t round.1 round.2)).getD k []) job.n

theorem State.streamResponse_goto_chunkRead_of_legal (s : State) {job : SplitJob} (xs : List Byte) {bytes : List Byte}
    (legal : legalChunk job.target.block bytes = true) :
    (s.goto (.chunkRead job xs)).streamResponse (.chunk bytes) = s.startBlock job xs bytes :=
  (if_pos legal).trans (s.startBlock_goto _ job xs bytes)

theorem State.finishBlock_of_stream (s : State) {job : SplitJob} {block : ℕ} (target : job.target = .stream block) (xs : List Byte)
    (n : ℕ) (ys : List (List Byte)) : s.finishBlock job xs n ys = s.goto (.sliceWrite job xs n ys 0) := by
  rw [State.finishBlock, target]

section
variable {s : State} (noHeld : s.heldMem = []) {ts : List Transaction} {c : ℕ} {job : SplitJob} {xs : List Byte} {rest : List Event}
include noHeld

theorem reaches_chunkRead_eof :
    ((s.streamed ts c (.stream .eof :: rest)).goto (.chunkRead job xs)).Reaches [.stream .eof]
      (s.streamed (ts ++ [.stream (.read .main job.target.block) .eof]) c rest).complete :=
  .cons noHeld rfl (State.reaches_nil _)

variable (pos : 0 < job.n)
include pos

theorem reaches_headerWrites :
    ((s.streamed ts c (okAnswers job.n ++ rest)).goto (.headerWrite job xs 0)).Reaches (okAnswers job.n)
      ((s.streamed (ts ++ headerRecord xs job.n) c rest).goto (.chunkRead job xs)) :=
  reaches_parts noHeld (point := .headerWrite job xs) (finish := (State.goto · (.chunkRead job xs))) (fun _ => rfl) (fun _ _ => rfl) pos
    (Nat.zero_add _)

theorem reaches_sliceWrites {n : ℕ} {ys : List (List Byte)} :
    ((s.streamed ts c (okAnswers job.n ++ rest)).goto (.sliceWrite job xs n ys 0)).Reaches (okAnswers job.n)
      ((s.streamed (ts ++ partWrites (fun k => ys.getD k []) job.n) (c + n) rest).goto (.chunkRead job xs)) := by
  rw [← State.setRlen_streamed]
  exact reaches_parts noHeld (point := .sliceWrite job xs n ys)
    (finish := fun s => (s.setRlen (s.rlen + BitVec.ofNat 32 n)).goto (.chunkRead job xs)) (fun _ => rfl) (fun _ _ => rfl) pos
    (Nat.zero_add _)

variable {block : ℕ} (target : job.target = .stream block) (two : 2 ≤ job.t) (all : xs.length = job.n)
include target two all

/-- A legal chunk is shared as one block, and every part gets its slice (44_streaming.md R255). -/
theorem reaches_splitRound {round : List Byte × List Byte} (legal : legalChunk block round.1 = true)
    (count : round.2.length = coefficientDraws job.policy job.t round.1.length) :
    ((s.streamed ts c (splitRoundAnswers job.n round ++ rest)).goto (.chunkRead job xs)).Reaches (splitRoundAnswers job.n round)
      ((s.streamed (ts ++ job.roundRecord s.params.poly xs round) (c + round.1.length) rest).goto (.chunkRead job xs)) := by
  have legal' : legalChunk job.target.block round.1 = true := by rwa [target]
  rw [splitRoundAnswers, List.cons_append]
  refine .cons noHeld rfl ?_
  rw [State.streamResponse_goto_chunkRead_of_legal _ xs legal']
  have shared := run_startBlock (s := s.streamed (ts ++ [.stream (.read .main job.target.block) (.chunk round.1)]) c _) (xs := xs)
    (rest := okAnswers job.n ++ rest) (.inl noHeld) two all count rfl
  rw [State.finishBlock_of_stream _ target, State.drew_streamed] at shared
  simpa only [SplitJob.roundRecord, State.streamed_params, List.append_assoc] using
    (State.reaches_drawAnswers shared).append (reaches_sliceWrites noHeld pos)

end

/-! ## The whole command -/

/-- The record of an SSPLIT accepted in `s` with these draws and rounds (44_streaming.md R254, R255). -/
def State.ssplitRecord (s : State) (draws : List Byte) (rounds : List (List Byte × List Byte)) : List Transaction :=
  drawRecord draws ++ headerRecord (acceptedCoordinates draws) s.cfgN.toNat ++
    rounds.flatMap (s.streamSplitJob.roundRecord s.params.poly (acceptedCoordinates draws)) ++
    [.stream (.read .main s.cfgBlock.toNat) .eof]

/-- What an SSPLIT accepted in `s` has set once these draws have given its coordinates, apart from the record (44_streaming.md R254). -/
def State.ssplitSampled (s : State) (draws : List Byte) : State :=
  { s with pvalid := false, x := storeFrom s.x 0 (acceptedCoordinates draws), xcount := BitVec.ofNat 9 s.cfgN.toNat, rlen := 0 }

section
variable {s : State} {draws : List Byte} (noHeld : s.heldMem = []) (all : (acceptedCoordinates draws).length = s.cfgN.toNat)
  (few : (acceptedCoordinates draws.dropLast).length < s.cfgN.toNat)
include noHeld all few

theorem reaches_ssplitSampled {rest : List Event} (answers : s.agenda = drawAnswers draws ++ rest) :
    ((s.clearPvalid.setRlen 0).startSampling s.streamSplitJob).Reaches (drawAnswers draws)
      (((s.ssplitSampled draws).streamed (drawRecord draws) 0 rest).goto
        (.headerWrite s.streamSplitJob (acceptedCoordinates draws) 0)) := by
  have sampled := run_sampleDraw_of_complete (s := (s.clearPvalid.setRlen 0).startSampling s.streamSplitJob)
    (job := s.streamSplitJob) (.inl noHeld) rfl answers all few
  rw [State.sampledFrom_eq] at sampled
  rw [State.streamed_zero]
  exact State.reaches_drawAnswers sampled

theorem reaches_ssplitDone {rounds : List (List Byte × List Byte)} {rest : List Event} (two : 2 ≤ s.cfgT.toNat) (pos : 0 < s.cfgN.toNat)
    (legal : ∀ r ∈ rounds, legalChunk s.cfgBlock.toNat r.1 = true ∧
      r.2.length = coefficientDraws s.policy s.cfgT.toNat r.1.length)
    (answers : s.agenda = drawAnswers draws ++ (okAnswers s.cfgN.toNat ++ (rounds.flatMap (splitRoundAnswers s.cfgN.toNat) ++
      .stream .eof :: rest))) :
    ((s.clearPvalid.setRlen 0).startSampling s.streamSplitJob).Reaches
      (drawAnswers draws ++ okAnswers s.cfgN.toNat ++ rounds.flatMap (splitRoundAnswers s.cfgN.toNat) ++ [.stream .eof])
      ((s.ssplitSampled draws).streamed (s.ssplitRecord draws rounds) (0 + (rounds.map fun r => r.1.length).sum) rest).complete :=
  have noHeld' : (s.ssplitSampled draws).heldMem = [] := noHeld
  (((reaches_ssplitSampled noHeld all few answers).append (reaches_headerWrites (job := s.streamSplitJob) noHeld' pos)).append
    (reaches_rounds (fun r mem _ _ _ => reaches_splitRound (job := s.streamSplitJob) noHeld' pos rfl two all (legal r mem).1
      (legal r mem).2) _ _ _)).append (reaches_chunkRead_eof noHeld')

end

/-! ## The channels -/

/-- What a round puts on a part's channel is that part's slice (44_streaming.md R255). -/
theorem SplitJob.bytesOn_part_roundRecord (job : SplitJob) (p : Poly) {xs : List Byte} (all : xs.length = job.n)
    (round : List Byte × List Byte) (k : ℕ) :
    (job.roundRecord p xs round).flatMap (Transaction.bytesOn (.part k)) =
      if k < job.n then sliceOf p job.policy job.t round.1 round.2 (xs.getD k 0) else [] := by
  rw [SplitJob.roundRecord, List.flatMap_append, List.flatMap_append, bytesOn_drawRecord, bytesOn_part_partWrites]
  split
  · rename_i lt
    simp [all ▸ lt]
  · rfl

theorem SplitJob.bytesOn_main_roundRecord (job : SplitJob) (p : Poly) (xs : List Byte) (round : List Byte × List Byte) :
    (job.roundRecord p xs round).flatMap (Transaction.bytesOn .main) = [] := by
  rw [SplitJob.roundRecord, List.flatMap_append, List.flatMap_append, bytesOn_drawRecord, bytesOn_main_partWrites]
  rfl

section
variable {s : State} {draws : List Byte} {rounds : List (List Byte × List Byte)}

theorem State.bytesOn_main_ssplitRecord : (s.ssplitRecord draws rounds).flatMap (Transaction.bytesOn .main) = [] := by
  simp [State.ssplitRecord, headerRecord, bytesOn_drawRecord, bytesOn_main_partWrites, SplitJob.bytesOn_main_roundRecord,
    List.flatMap_assoc]

theorem State.bytesOn_part_ssplitRecord (all : (acceptedCoordinates draws).length = s.cfgN.toNat) (k : ℕ) :
    (s.ssplitRecord draws rounds).flatMap (Transaction.bytesOn (.part k)) =
      if k < s.cfgN.toNat then (acceptedCoordinates draws).getD k 0 :: rounds.flatMap fun r =>
        sliceOf s.params.poly s.policy s.cfgT.toNat r.1 r.2 ((acceptedCoordinates draws).getD k 0)
      else [] := by
  have count : (acceptedCoordinates draws).length = s.streamSplitJob.n := all
  simp only [State.ssplitRecord, headerRecord, List.flatMap_append, bytesOn_drawRecord, bytesOn_part_partWrites, List.flatMap_assoc,
    SplitJob.bytesOn_part_roundRecord _ _ count, List.flatMap_singleton, Transaction.bytesOn_read]
  by_cases lt : k < s.cfgN.toNat
  · have within : k < s.streamSplitJob.n := lt
    simp only [if_pos lt, if_pos within]
    exact List.append_nil _
  · have outside : ¬k < s.streamSplitJob.n := lt
    simp [lt, outside]

end

/-- Settles O55: the run of the answers, and what its record puts on each channel. -/
theorem ssplitStreamsTheShares : Obligations.SsplitStreamsTheShares := by
  intro s draws rounds rest n t b xs answers idle noHeld valid block all few legal agenda
  obtain ⟨two, le, byte⟩ := (splitValid_iff _ _).mp valid
  have point : s.fsm = .idle := s.busy_eq_false_iff.mp idle
  have run := reaches_ssplitDone noHeld all few two (by omega) legal (rest := rest) (by simpa [answers] using agenda)
  have channel := State.channelBytes_of_trace_append (s := s) (ts := s.ssplitRecord draws rounds)
    (t := ((s.ssplitSampled draws).streamed (s.ssplitRecord draws rounds) (0 + (rounds.map fun r => r.1.length).sum) rest).complete) rfl
  refine ⟨_, _, exec_ssplit_of_valid valid block, ⟨rfl, rfl, rfl, rfl, rfl, rfl, rfl⟩, run, fun k lt => ?_, fun k ge => ?_, ?_, ?_,
    fun j ge => ?_, ?_, ?_, ?_⟩
  · rw [channel, State.bytesOn_part_ssplitRecord all, if_pos lt]
  · rw [channel, State.bytesOn_part_ssplitRecord all, if_neg (Nat.not_lt.mpr ge), List.append_nil]
  · rw [channel, State.bytesOn_main_ssplitRecord, List.append_nil]
  · exact all ▸ take_toList_storeFrom_zero s.x (all.trans_le byte)
  · exact getElem_storeFrom_of_ge s.x 0 xs (by omega)
  · exact (BitVec.toNat_ofNat _ _).trans (Nat.mod_eq_of_lt (by omega))
  · simp [State.ssplitSampled, State.streamed]
  · rw [State.complete, ← point]
    rfl

end Sys2Proof.Machine
end

section
/-! SCOMB from its acceptance to its end (44_streaming.md R260-R263): the headers, one round of chunks after another, and the end of the
parts under either rule. -/

namespace Sys2Proof.Machine

/-! ## Answers taken in order -/

section
variable (s : State) {job : CombJob} (xs : List Byte)

theorem State.streamResponse_goto_headerRead_of_more {x : Byte} (more : (xs ++ [x]).length < job.k) :
    (s.goto (.headerRead job xs)).streamResponse (.chunk [x]) = (s.setX xs.length x).goto (.headerRead job (xs ++ [x])) := if_pos more

theorem State.streamResponse_goto_headerRead_of_last {x : Byte} (last : (xs ++ [x]).length = job.k) (distinct : (xs ++ [x]).Nodup) :
    (s.goto (.headerRead job xs)).streamResponse (.chunk [x]) =
      ((s.setX xs.length x).setXcount job.k).goto (.partRead job (xs ++ [x]) []) := by
  have noDuplicate : ¬hasDuplicate (xs ++ [x]) = true := by rwa [Bool.not_eq_true, hasDuplicate_eq_false_iff]
  exact (if_neg last.not_lt).trans (if_neg noDuplicate)

/-- A legal chunk as long as part 0's is taken (44_streaming.md R262). -/
theorem State.streamResponse_goto_partRead_of_legal {chunks : List (List Byte)} {bytes : List Byte}
    (legal : legalChunk job.block bytes = true) (same : bytes.length = (chunks.headD bytes).length) :
    (s.goto (.partRead job xs chunks)).streamResponse (.chunk bytes) =
      (s.goto (.partRead job xs chunks)).chunkTaken job xs (chunks ++ [bytes]) :=
  (if_neg (by simp [legal])).trans (if_neg (not_not.mpr same))

theorem State.streamResponse_goto_partRead_eof_of_leaderOnly (rule : job.eofpol = .leaderOnly) :
    (s.goto (.partRead job xs [])).streamResponse .eof = s.complete := by
  show (s.goto _).leaderEnded job = _
  rw [State.leaderEnded, rule]
  rfl

theorem State.streamResponse_goto_partRead_eof_of_symmetric (rule : job.eofpol = .symmetric) :
    (s.goto (.partRead job xs [])).streamResponse .eof = s.goto (.endRead job 1) := by
  show (s.goto _).leaderEnded job = _
  rw [State.leaderEnded, rule]
  rfl

end

/-- The record of the READs of the parts from part `k` on, answered with these chunks. -/
def partReads (max k : ℕ) : List (List Byte) → List Transaction
  | [] => []
  | c :: chunks => .stream (.read (.part k) max) (.chunk c) :: partReads max (k + 1) chunks

section
variable {s : State} (noHeld : s.heldMem = []) {ts : List Transaction} {c : ℕ} {job : CombJob} {rest : List Event}
include noHeld

/-- Distinct header bytes become the coordinates (44_streaming.md R261). -/
theorem reaches_headers {xs todo : List Byte} (nonempty : todo ≠ []) (count : xs.length + todo.length = job.k)
    (distinct : (xs ++ todo).Nodup) :
    ((s.streamed ts c ((todo.map fun x => .stream (.chunk [x])) ++ rest)).goto (.headerRead job xs)).Reaches
      (todo.map fun x => .stream (.chunk [x]))
      ((((s.setXs xs.length todo).setXcount job.k).streamed (ts ++ partReads 1 xs.length (todo.map fun x => [x])) c rest).goto
        (.partRead job (xs ++ todo) [])) := by
  induction todo generalizing s xs ts with
  | nil => exact absurd rfl nonempty
  | cons x todo ih =>
    refine .cons noHeld rfl ?_
    have grown : (xs ++ [x]).length = xs.length + 1 := List.length_append
    rw [List.length_cons] at count
    cases todo with
    | nil =>
      rw [State.streamResponse_goto_headerRead_of_last _ xs (by rw [grown, ← count]; rfl) distinct]
      exact State.reaches_nil _
    | cons y todo =>
      rw [List.length_cons] at count
      rw [State.streamResponse_goto_headerRead_of_more _ xs (by omega)]
      have later := ih (s := s.setX xs.length x) (xs := xs ++ [x]) noHeld
        (ts := ts ++ [.stream (.read (.part xs.length) 1) (.chunk [x])]) (by simp) (by simp; omega) (by simpa using distinct)
      rw [List.append_assoc, List.append_assoc, grown] at later
      exact later

variable {xs : List Byte}

/-- A chunk from every part leads to the WRITE of their reconstruction (44_streaming.md R262). -/
theorem reaches_partReads {chunks todo : List (List Byte)} {n : ℕ} (nonempty : todo ≠ [])
    (count : chunks.length + todo.length = job.k) (legal : ∀ y ∈ todo, legalChunk job.block y = true)
    (same : ∀ y ∈ chunks ++ todo, y.length = n) :
    ((s.streamed ts c ((todo.map fun y => .stream (.chunk y)) ++ rest)).goto (.partRead job xs chunks)).Reaches
      (todo.map fun y => .stream (.chunk y))
      ((s.streamed (ts ++ partReads job.block chunks.length todo) c rest).goto
        (.mainWrite job xs (combineBlock s.params.poly xs (chunks ++ todo) n))) := by
  induction todo generalizing chunks ts with
  | nil => exact absurd rfl nonempty
  | cons y todo ih =>
    refine .cons noHeld rfl ?_
    obtain ⟨here, later⟩ := List.forall_mem_cons.mp legal
    have grown : (chunks ++ [y]).length = chunks.length + 1 := List.length_append
    have first : y.length = (chunks.headD y).length := by
      cases chunks with
      | nil => rfl
      | cons z chunks => rw [same y (by simp)]; exact (same z (by simp)).symm
    have block : ((chunks ++ [y]).headD []).length = n := by
      cases chunks with
      | nil => exact same y (by simp)
      | cons z chunks => exact same z (by simp)
    rw [List.length_cons] at count
    rw [State.streamResponse_goto_partRead_of_legal _ xs here first, State.chunkTaken]
    cases todo with
    | nil =>
      rw [if_neg (by rw [grown, ← count]; exact lt_irrefl _), block]
      exact State.reaches_nil _
    | cons z todo =>
      rw [List.length_cons] at count
      rw [if_pos (by omega)]
      have others := ih (chunks := chunks ++ [y]) (ts := ts ++ [.stream (.read (.part chunks.length) job.block) (.chunk y)])
        (by simp) (by simp; omega) later (by simpa using same)
      rw [List.append_assoc, List.append_assoc, grown] at others
      exact others

end

/-! ## Rounds -/

/-- The record of one round (44_streaming.md R262): a chunk from each part and the WRITE of the reconstruction. -/
def CombJob.roundRecord (job : CombJob) (p : Poly) (xs : List Byte) (chunks : List (List Byte)) : List Transaction :=
  partReads job.block 0 chunks ++ [.stream (.write .main (combineBlock p xs chunks (chunks.headD []).length)) .ok]

/-- The record of the end of the parts (44_streaming.md R262, R263). -/
def CombJob.endRecord (job : CombJob) : List Transaction :=
  answeredParts (fun k => .read (.part k) job.block) .eof 0 (endAnswers job.eofpol job.k)

section
variable {s : State} (noHeld : s.heldMem = []) {ts : List Transaction} {c : ℕ} {job : CombJob} {xs : List Byte} {rest : List Event}
include noHeld

theorem reaches_mainWrite {out : List Byte} :
    ((s.streamed ts c (.stream .ok :: rest)).goto (.mainWrite job xs out)).Reaches [.stream .ok]
      ((s.streamed (ts ++ [.stream (.write .main out) .ok]) (c + out.length) rest).goto (.partRead job xs [])) := by
  rw [← State.setRlen_streamed]
  exact .cons noHeld rfl (State.reaches_nil _)

theorem reaches_combineRound (pos : 0 < job.k) {chunks : List (List Byte)} (count : chunks.length = job.k)
    (legal : ∀ y ∈ chunks, legalChunk job.block y = true ∧ y.length = (chunks.headD []).length) :
    ((s.streamed ts c (combineRoundAnswers chunks ++ rest)).goto (.partRead job xs [])).Reaches (combineRoundAnswers chunks)
      ((s.streamed (ts ++ job.roundRecord s.params.poly xs chunks) (c + (chunks.headD []).length) rest).goto (.partRead job xs [])) := by
  have nonempty : chunks ≠ [] := List.ne_nil_of_length_pos (by omega)
  have read := reaches_partReads noHeld (ts := ts) (c := c) (xs := xs) (rest := .stream .ok :: rest) (chunks := []) nonempty
    (by simpa using count) (fun y mem => (legal y mem).1) (fun y mem => (legal y mem).2)
  have round := read.append (reaches_mainWrite noHeld)
  rw [length_combineBlock, List.append_assoc] at round
  rw [combineRoundAnswers, List.append_assoc]
  exact round

/-- The end of part 0 alone, or of every part in turn (44_streaming.md R262, R263). -/
theorem reaches_combineEnd (pos : 2 ≤ job.k) :
    ((s.streamed ts c (List.replicate (endAnswers job.eofpol job.k) (.stream .eof) ++ rest)).goto (.partRead job xs [])).Reaches
      (List.replicate (endAnswers job.eofpol job.k) (.stream .eof)) (s.streamed (ts ++ job.endRecord) c rest).complete := by
  rw [CombJob.endRecord]
  cases rule : job.eofpol with
  | leaderOnly =>
    refine .cons noHeld rfl ?_
    rw [State.streamResponse_goto_partRead_eof_of_leaderOnly _ xs rule]
    exact State.reaches_nil _
  | symmetric =>
    obtain ⟨m, parts⟩ : ∃ m, job.k = m + 1 := ⟨job.k - 1, by omega⟩
    rw [endAnswers, parts]
    refine .cons noHeld rfl ?_
    have others := reaches_parts noHeld (ts := ts ++ [.stream (.read (.part 0) job.block) .eof]) (c := c) (rest := rest)
      (point := .endRead job) (finish := State.complete) (a := .eof) (k := 1) (fun _ => rfl) (fun _ _ => rfl) (m := m)
      (by omega) (by omega)
    rw [List.append_assoc] at others
    rw [State.streamResponse_goto_partRead_eof_of_symmetric _ xs rule]
    exact others

end

/-! ## The whole command -/

/-- The record of an SCOMB accepted in `s` with these headers and rounds (44_streaming.md R261-R263). -/
def State.scombRecord (s : State) (xs : List Byte) (rounds : List (List (List Byte))) : List Transaction :=
  partReads 1 0 (xs.map fun x => [x]) ++ rounds.flatMap (s.combJob.roundRecord s.params.poly xs) ++ s.combJob.endRecord

/-- What an SCOMB accepted in `s` has set once it has read these headers, apart from the record (44_streaming.md R260, R261). -/
def State.scombHeaded (s : State) (xs : List Byte) : State :=
  { s with x := storeFrom s.x 0 xs, xcount := BitVec.ofNat 9 s.cfgK.toNat, rlen := 0 }

section
variable {s : State} {xs : List Byte} {rest : List Event} (noHeld : s.heldMem = []) (two : 2 ≤ s.cfgK.toNat)
  (all : xs.length = s.cfgK.toNat) (distinct : xs.Nodup)
include noHeld two all distinct

theorem reaches_scombHeaded (answers : s.agenda = (xs.map fun x => .stream (.chunk [x])) ++ rest) :
    (((s.setRlen 0).setXcount 0).goto (.headerRead s.combJob [])).Reaches (xs.map fun x => .stream (.chunk [x]))
      (((s.scombHeaded xs).streamed (partReads 1 0 (xs.map fun x => [x])) 0 rest).goto (.partRead s.combJob xs [])) := by
  have start : ((s.setRlen 0).setXcount 0).streamed [] 0 s.agenda = (s.setRlen 0).setXcount 0 := by
    simp [State.streamed, State.setRlen, State.setXcount]
  have headed : (((s.setRlen 0).setXcount 0).setXs 0 xs).setXcount s.combJob.k = s.scombHeaded xs := by
    rw [State.setXs_fields, State.setXs_x]
    rfl
  have headers := reaches_headers (s := (s.setRlen 0).setXcount 0) noHeld (ts := []) (c := 0) (rest := rest) (job := s.combJob)
    (xs := []) (List.ne_nil_of_length_pos (by omega)) ((Nat.zero_add _).trans all) distinct
  rwa [← answers, start, List.length_nil, headed] at headers

theorem reaches_scombDone {rounds : List (List (List Byte))}
    (legal : ∀ r ∈ rounds, r.length = s.cfgK.toNat ∧
      ∀ y ∈ r, legalChunk s.cfgBlock.toNat y = true ∧ y.length = (r.headD []).length)
    (answers : s.agenda = (xs.map fun x => .stream (.chunk [x])) ++ (rounds.flatMap combineRoundAnswers ++
      (List.replicate (endAnswers s.eofpol s.cfgK.toNat) (.stream .eof) ++ rest))) :
    (((s.setRlen 0).setXcount 0).goto (.headerRead s.combJob [])).Reaches
      ((xs.map fun x => .stream (.chunk [x])) ++ rounds.flatMap combineRoundAnswers ++
        List.replicate (endAnswers s.eofpol s.cfgK.toNat) (.stream .eof))
      ((s.scombHeaded xs).streamed (s.scombRecord xs rounds) (0 + (rounds.map fun r => (r.headD []).length).sum) rest).complete := by
  have pos : 0 < s.combJob.k := by show 0 < s.cfgK.toNat; omega
  have noHeld' : (s.scombHeaded xs).heldMem = [] := noHeld
  exact ((reaches_scombHeaded noHeld two all distinct answers).append
    (reaches_rounds (fun r mem _ _ _ => reaches_combineRound (job := s.combJob) noHeld' pos (legal r mem).1 (legal r mem).2)
      _ _ _)).append (reaches_combineEnd (job := s.combJob) noHeld' two)

end

/-! ## The channels -/

theorem bytesOn_partReads (ch : Channel) (max k : ℕ) (chunks : List (List Byte)) :
    (partReads max k chunks).flatMap (Transaction.bytesOn ch) = [] := by
  induction chunks generalizing k with
  | nil => rfl
  | cons c chunks ih => exact ih (k + 1)

theorem CombJob.bytesOn_endRecord (job : CombJob) (ch : Channel) : job.endRecord.flatMap (Transaction.bytesOn ch) = [] := by
  simp [CombJob.endRecord, answeredParts]

theorem CombJob.bytesOn_roundRecord (job : CombJob) (p : Poly) (xs : List Byte) (chunks : List (List Byte)) (ch : Channel) :
    (job.roundRecord p xs chunks).flatMap (Transaction.bytesOn ch) =
      if .main = ch then combineBlock p xs chunks (chunks.headD []).length else [] := by
  rw [CombJob.roundRecord, List.flatMap_append, bytesOn_partReads, List.nil_append, List.flatMap_singleton]
  rfl

theorem State.bytesOn_scombRecord (s : State) (xs : List Byte) (rounds : List (List (List Byte))) (ch : Channel) :
    (s.scombRecord xs rounds).flatMap (Transaction.bytesOn ch) =
      rounds.flatMap fun r => if .main = ch then combineBlock s.params.poly xs r (r.headD []).length else [] := by
  simp only [State.scombRecord, List.flatMap_append, bytesOn_partReads, CombJob.bytesOn_endRecord, List.flatMap_assoc,
    CombJob.bytesOn_roundRecord, List.nil_append, List.append_nil]

/-- Settles O56: the run of the answers, and what its record puts on each channel. -/
theorem scombStreamsTheReconstruction : Obligations.ScombStreamsTheReconstruction := by
  intro s xs rounds rest k b answers idle noHeld valid block all distinct legal agenda
  obtain ⟨two, le⟩ := (combineCountValid_iff _).mp valid
  have point : s.fsm = .idle := s.busy_eq_false_iff.mp idle
  have run := reaches_scombDone noHeld two all distinct legal (rest := rest) (by simpa [answers] using agenda)
  have channel := State.channelBytes_of_trace_append (s := s) (ts := s.scombRecord xs rounds)
    (t := ((s.scombHeaded xs).streamed (s.scombRecord xs rounds)
      (0 + (rounds.map fun r => (r.headD []).length).sum) rest).complete) rfl
  refine ⟨_, _, exec_scomb_of_valid valid block, ⟨rfl, rfl, rfl, rfl, rfl, rfl⟩, run, ?_, fun j => ?_, ?_, fun j ge => ?_, ?_, ?_, ?_⟩
  · rw [channel, State.bytesOn_scombRecord]
    rfl
  · rw [channel, State.bytesOn_scombRecord]
    simp
  · exact all ▸ take_toList_storeFrom_zero s.x (by omega)
  · exact getElem_storeFrom_of_ge s.x 0 xs (by omega)
  · exact (BitVec.toNat_ofNat _ _).trans (Nat.mod_eq_of_lt (by omega))
  · simp [State.scombHeaded, State.streamed]
  · rw [State.complete, ← point]
    rfl

end Sys2Proof.Machine
end

section
/-! How commands end (60_exceptions.md R305, R314, R327): the codes they can raise at acceptance and on an answer, and ERRCODE, which only
an end or a reset changes (10_state.md R40). -/

namespace Sys2Proof.Machine

/-- Settles O5: the write to CMD is submitted, and `endsIllegal` says how an idle unit ends an ILLEGAL word. -/
theorem illegalWordEndsWithIllegalCommand : Obligations.IllegalWordEndsWithIllegalCommand := by
  intro s off w rest e next cmd idle illegal
  rw [step_regWrite_cmd next cmd]
  exact endsIllegal_of_decode_error illegal (s.withAgenda rest) idle

/-! ## A failed draw -/

/-- At every point that waits for a byte, FAIL only raises EntropyError (60_exceptions.md R327). -/
theorem State.entropyAnswer_fail {s : State} (request : s.request = some .draw) :
    s.entropyAnswer .fail = (s.log (.draw .fail)).raise .entropy := by
  unfold State.entropyAnswer
  rw [State.request] at request
  cases point : s.fsm with
  | polyDraw | sampleDraw | coefDraw => rfl
  | _ => rw [point] at request; cases request

/-- Settles O43: the failed draw is recorded, puts no byte on a channel, and raises EntropyError. -/
theorem entropyFailureEndsTheCommand : Obligations.EntropyFailureEndsTheCommand := by
  intro s rest next request
  have stepped := step_of_event next.1 next.2
  rw [State.handle, State.entropyAnswer_fail (s := s.withAgenda rest) request] at stepped
  exact ⟨_, stepped, fun ch => (State.channelBytes_of_trace_append (s := s) rfl ch).trans (List.append_nil _), rfl⟩

/-! ## Ending within a list of codes -/

/-- A command's work on `s` has led to `t`: it has not ended, and ERR and ERRCODE are as before, or it has succeeded, or it has
raised an error whose code is listed. -/
inductive State.EndsWithin (s : State) (codes : List ℕ) : State → Prop
  | goesOn {t : State} (err : t.err = s.err := by rfl) (errcode : t.errcode = s.errcode := by rfl) : s.EndsWithin codes t
  | succeeded (u : State) : s.EndsWithin codes u.complete
  | raised (u : State) {e : ErrorKind} (listed : e.code.toNat ∈ codes := by decide) : s.EndsWithin codes (u.raise e)

namespace State.EndsWithin

variable {s t u : State} {codes : List ℕ}

theorem of_same (h : u.EndsWithin codes t) (err : u.err = s.err := by rfl) (errcode : u.errcode = s.errcode := by rfl) :
    s.EndsWithin codes t := by
  cases h with
  | goesOn err' errcode' => exact .goesOn (err'.trans err) (errcode'.trans errcode)
  | succeeded u => exact .succeeded u
  | raised u listed => exact .raised u listed

theorem ite {c : Prop} [Decidable c] (h : s.EndsWithin codes t) (h' : s.EndsWithin codes u) :
    s.EndsWithin codes (if c then t else u) := by
  split
  · exact h
  · exact h'

theorem errcode_mem (h : s.EndsWithin codes t) (clear : s.err = false) (ended : t.err = true) : t.errcode.toNat ∈ codes := by
  cases h with
  | goesOn err => exact absurd (ended.symm.trans (err.trans clear)) nofun
  | succeeded => cases ended
  | raised _ listed => exact listed

theorem ended_of_errcode_ne (h : s.EndsWithin codes t) (changed : t.errcode ≠ s.errcode) :
    t.busy = false ∧ (t.done = true ∨ t.err = true) := by
  cases h with
  | goesOn _ errcode => exact absurd errcode changed
  | succeeded => exact ⟨rfl, .inl rfl⟩
  | raised => exact ⟨rfl, .inr rfl⟩

end State.EndsWithin

/-! ## Acceptance -/

section
variable (s : State)

theorem State.endsWithin_writeField (rd : Reg) (r : Option Byte) : s.EndsWithin [2] (s.writeField rd r) := by
  obtain ⟨v, -, hs⟩ | ⟨-, hs⟩ := s.writeField_cases rd r <;> rw [hs]
  · exact .succeeded _
  · exact .raised s

/-- The checks of a descriptor fail with ValidationError or BoundsError (43_engine.md R220). -/
theorem State.code_mem_of_readDescriptors {tab k count : ℕ} {e : ErrorKind} (h : s.readDescriptors tab k count = .error e) :
    e.code.toNat ∈ [1, 9] := by
  induction count generalizing k with
  | zero => cases h
  | succ count ih =>
    rw [State.readDescriptors] at h
    split at h
    · cases h
      decide
    · split at h
      · cases h
        decide
      · split at h
        · cases h
        · rename_i failed
          cases h
          exact ih failed

theorem State.endsWithin_combineShares (dst : ℕ) (ds : List Descriptor) : s.EndsWithin [1, 2, 4, 9] (s.combineShares dst ds) := by
  unfold State.combineShares
  exact .ite (.raised s) (.ite (.raised s) (.ite (.raised s) (.succeeded _)))

end

section
variable {s t : State}

theorem endsWithin_of_execCombine (h : execCombine s = .next t) : s.EndsWithin [1, 2, 4, 9] t := by
  cases h
  refine .ite (.raised s) (.ite (.raised s) ?_)
  split
  · rename_i read
    have refusals : [1, 9] ⊆ [1, 2, 4, 9] := by decide
    exact .raised s (refusals (s.code_mem_of_readDescriptors read))
  · exact s.endsWithin_combineShares _ _

/-- At acceptance a command ends with no code but its row's (60_exceptions.md R305, columns "1st" and "yes"). -/
theorem endsWithin_of_exec {i : Instr} (h : exec i s = .next t) : s.EndsWithin (acceptErrors i) t := by
  cases i with
  | nop | ldi | gadd | gmul => cases h; exact .succeeded _
  | gdiv rd ra rb => cases h; exact s.endsWithin_writeField rd _
  | ginv rd ra => cases h; exact s.endsWithin_writeField rd _
  | pnew => cases h; exact .ite (codes := [1]) (.raised s) (.ite (.succeeded _) .goesOn)
  | pseti | peval => cases h; exact .ite (codes := [8]) (.succeeded _) (.raised s)
  | split => cases h; exact .ite (.raised s) (.ite (.raised s) (.ite (.raised s) .goesOn))
  | combine => exact endsWithin_of_execCombine h
  | ssplit | scomb => cases h; exact .ite (.raised s) (.ite (.raised s) .goesOn)

end

/-! ## Answers on the entropy port -/

section
variable (s : State)

theorem State.endsWithin_polyAnswer (c0 : Byte) (d i : ℕ) (a : EntropyAnswer) : s.EndsWithin [3] (s.polyAnswer c0 d i a) := by
  cases a with
  | fail => exact .raised s
  | byte b => exact .ite .goesOn (.succeeded _)

section
variable (codes : List ℕ) (job : SplitJob) (xs : List Byte)

/-- ShareBlock raises no error (43_engine.md R214). -/
theorem State.endsWithin_finishBlock (n : ℕ) (ys : List (List Byte)) : s.EndsWithin codes (s.finishBlock job xs n ys) := by
  obtain ⟨_, _, -, hs⟩ | ⟨_, -, hs⟩ := s.finishBlock_cases job xs n ys <;> rw [hs]
  · exact .succeeded _
  · exact .goesOn

theorem State.endsWithin_startBlock (block : List Byte) : s.EndsWithin codes (s.startBlock job xs block) := by
  obtain ⟨-, hs⟩ | ⟨-, hs⟩ := s.startBlock_cases job xs block <;> rw [hs]
  · exact s.endsWithin_finishBlock codes job xs 0 _
  · exact .goesOn

theorem State.endsWithin_finishSampling : s.EndsWithin codes (s.finishSampling job xs) := by
  obtain ⟨_, secret, -, hs⟩ | ⟨_, -, hs⟩ := s.finishSampling_cases job xs <;> rw [hs]
  · exact ((s.setXcount job.n).endsWithin_startBlock codes job xs secret).of_same
  · exact .goesOn

end

theorem State.endsWithin_sampleAnswer (job : SplitJob) (xs : List Byte) (a : EntropyAnswer) :
    s.EndsWithin [3] (s.sampleAnswer job xs a) := by
  cases a with
  | fail => exact .raised s
  | byte b =>
    obtain ⟨-, hs⟩ | ⟨-, -, hs⟩ | ⟨-, -, hs⟩ := s.sampled_cases job xs b <;> rw [State.sampleAnswer, hs]
    · exact .goesOn
    · exact .goesOn
    · exact ((s.setX xs.length b).endsWithin_finishSampling [3] job (xs ++ [b])).of_same

theorem State.endsWithin_coefAnswer (job : SplitJob) (xs : List Byte) (sh : Sharing) (a : EntropyAnswer) :
    s.EndsWithin [3] (s.coefAnswer job xs sh a) := by
  cases a with
  | fail => exact .raised s
  | byte b =>
    obtain ⟨-, hs⟩ | ⟨-, -, -, hs⟩ | ⟨-, -, -, hs⟩ | ⟨-, -, hs⟩ := s.coefDrawn_cases job xs sh b <;>
      rw [State.coefAnswer, hs]
    · exact .goesOn
    · exact .goesOn
    · exact s.endsWithin_finishBlock [3] job xs _ _
    · exact s.endsWithin_finishBlock [3] job xs _ _

theorem State.endsWithin_entropyAnswer (a : EntropyAnswer) : s.EndsWithin (runErrors s.fsm) (s.entropyAnswer a) := by
  unfold State.entropyAnswer
  cases s.fsm with
  | polyDraw c0 d i => exact ((s.log _).endsWithin_polyAnswer c0 d i a).of_same
  | sampleDraw job xs => exact ((s.log _).endsWithin_sampleAnswer job xs a).of_same
  | coefDraw job xs sh => exact ((s.log _).endsWithin_coefAnswer job xs sh a).of_same
  | _ => exact .goesOn

/-! ## Answers on the stream port -/

theorem State.endsWithin_headerWritten (job : SplitJob) (xs : List Byte) (k : ℕ) (a : StreamAnswer) :
    s.EndsWithin [6] (s.headerWritten job xs k a) := by
  cases a with
  | ok => exact .ite .goesOn .goesOn
  | _ => exact .raised s

theorem State.endsWithin_chunkArrived (job : SplitJob) (xs : List Byte) (a : StreamAnswer) :
    s.EndsWithin [6] (s.chunkArrived job xs a) := by
  cases a with
  | eof => exact .succeeded s
  | chunk bytes => exact .ite (s.endsWithin_startBlock [6] job xs bytes) (.raised s)
  | _ => exact .raised s

theorem State.endsWithin_sliceWritten (job : SplitJob) (xs : List Byte) (n : ℕ) (ys : List (List Byte)) (k : ℕ) (a : StreamAnswer) :
    s.EndsWithin [6] (s.sliceWritten job xs n ys k a) := by
  cases a with
  | ok => exact .ite .goesOn .goesOn
  | _ => exact .raised s

theorem State.endsWithin_headerArrived (job : CombJob) (xs : List Byte) (a : StreamAnswer) :
    s.EndsWithin [2, 6] (s.headerArrived job xs a) := by
  unfold State.headerArrived
  split
  · exact .ite .goesOn (.ite (.raised _) .goesOn)
  all_goals exact .raised s

theorem State.endsWithin_leaderEnded (job : CombJob) : s.EndsWithin [4, 5, 6] (s.leaderEnded job) := by
  unfold State.leaderEnded
  split
  · exact .succeeded s
  · exact .goesOn

theorem State.endsWithin_partArrived (job : CombJob) (xs : List Byte) (chunks : List (List Byte)) (a : StreamAnswer) :
    s.EndsWithin [4, 5, 6] (s.partArrived job xs chunks a) := by
  cases a with
  | eof =>
    cases chunks with
    | nil => exact s.endsWithin_leaderEnded job
    | cons => exact .raised s
  | chunk bytes =>
    refine .ite (.raised s) (.ite (.raised s) ?_)
    obtain ⟨-, hs⟩ | ⟨-, hs⟩ := s.chunkTaken_cases job xs (chunks ++ [bytes]) <;> rw [hs] <;> exact .goesOn
  | _ => exact .raised s

theorem State.endsWithin_endArrived (job : CombJob) (k : ℕ) (a : StreamAnswer) : s.EndsWithin [5, 6] (s.endArrived job k a) := by
  cases a with
  | eof => exact .ite .goesOn (.succeeded s)
  | chunk bytes => exact .ite (.raised s) (.raised s)
  | _ => exact .raised s

theorem State.endsWithin_mainWritten (job : CombJob) (xs out : List Byte) (a : StreamAnswer) :
    s.EndsWithin [6] (s.mainWritten job xs out a) := by
  cases a with
  | ok => exact .goesOn
  | _ => exact .raised s

theorem State.endsWithin_streamResponse (a : StreamAnswer) : s.EndsWithin (runErrors s.fsm) (s.streamResponse a) := by
  unfold State.streamResponse
  cases s.fsm with
  | headerWrite job xs k => exact s.endsWithin_headerWritten job xs k a
  | chunkRead job xs => exact s.endsWithin_chunkArrived job xs a
  | sliceWrite job xs n ys k => exact s.endsWithin_sliceWritten job xs n ys k a
  | headerRead job xs => exact s.endsWithin_headerArrived job xs a
  | partRead job xs chunks => exact s.endsWithin_partArrived job xs chunks a
  | endRead job k => exact s.endsWithin_endArrived job k a
  | mainWrite job xs out => exact s.endsWithin_mainWritten job xs out a
  | _ => exact .goesOn

theorem State.endsWithin_streamAnswer (a : StreamAnswer) : s.EndsWithin (runErrors s.fsm) (s.streamAnswer a) := by
  obtain ⟨r, -, hs⟩ | hs := s.streamAnswer_cases a <;> rw [hs]
  · exact ((s.log (.stream r a)).endsWithin_streamResponse a).of_same
  · exact .goesOn

end

/-! ## Every step -/

section
variable {s t : State}

/-- A stored write sets neither status bit (10_state.md R39). -/
theorem State.err_of_storeReg {w : Word} {r : RegName} (h : (s.storeReg w r).err = true) : s.err = true := by
  cases r with
  | status => exact (Bool.and_eq_true_iff.mp h).1
  | _ => exact h

/-- A busy unit ends with an error only on an answer, and with no code but its point's (60_exceptions.md R305, entries "run"). -/
theorem State.Handled.errcode_mem_runErrors {e : Event} (h : s.Handled e t) (busy : s.busy = true) (clear : s.err = false)
    (ended : t.err = true) : t.errcode.toNat ∈ runErrors s.fsm := by
  have of_same_err : t.err = s.err → t.errcode.toNat ∈ runErrors s.fsm := fun same =>
    absurd (ended.symm.trans (same.trans clear)) nofun
  cases h with
  | hardReset | softReset => cases ended
  | command _ idle | illegal _ idle => exact absurd (busy.symm.trans idle) nofun
  | dropped | lateEntropy | lateStream => exact of_same_err rfl
  | stored => exact absurd ((State.err_of_storeReg ended).symm.trans clear) nofun
  | read off => exact of_same_err (s.sameRegisters_hostRead off).err
  | memPort m => exact of_same_err (s.sameRegisters_memAccess m).err
  | entropy a => exact (s.endsWithin_entropyAnswer a).errcode_mem clear ended
  | stream a => exact (s.endsWithin_streamAnswer a).errcode_mem clear ended
  | memStep => exact of_same_err s.sameRegisters_releaseHeld.err

theorem State.errcode_mem_runErrors_of_step (h : step s = .next t) (busy : s.busy = true) (clear : s.err = false)
    (ended : t.err = true) : t.errcode.toNat ∈ runErrors s.fsm := by
  obtain ⟨e, rest, -, handled⟩ | ⟨m, rest, rfl⟩ | rfl := step_next_cases h
  · exact handled.errcode_mem_runErrors busy clear ended
  · exact absurd (ended.symm.trans ((s.sameRegisters_carryOut rest m).err.trans clear)) nofun
  · exact absurd (ended.symm.trans clear) nofun

/-- An answer changes ERRCODE only where a command executes, which it ends (10_state.md R40, 70_reset_and_hazards.md R341). -/
theorem State.ended_of_entropyAnswer_errcode_ne {a : EntropyAnswer} (changed : (s.entropyAnswer a).errcode ≠ s.errcode) :
    s.busy = true ∧ (s.entropyAnswer a).busy = false ∧ ((s.entropyAnswer a).done = true ∨ (s.entropyAnswer a).err = true) := by
  refine ⟨?_, (s.endsWithin_entropyAnswer a).ended_of_errcode_ne changed⟩
  by_contra idle
  have same : s.entropyAnswer a = s := by rw [State.entropyAnswer, s.busy_eq_false_iff.mp (Bool.eq_false_iff.mpr idle)]
  exact changed (congrArg State.errcode same)

theorem State.ended_of_streamAnswer_errcode_ne {a : StreamAnswer} (changed : (s.streamAnswer a).errcode ≠ s.errcode) :
    s.busy = true ∧ (s.streamAnswer a).busy = false ∧ ((s.streamAnswer a).done = true ∨ (s.streamAnswer a).err = true) := by
  refine ⟨?_, (s.endsWithin_streamAnswer a).ended_of_errcode_ne changed⟩
  by_contra idle
  have same : s.streamAnswer a = s := by
    rw [State.streamAnswer, State.request, s.busy_eq_false_iff.mp (Bool.eq_false_iff.mpr idle)]
    rfl
  exact changed (congrArg State.errcode same)

end

/-- Settles O30: what acceptance and an answer lead to is `EndsWithin` the row's codes, and ERRCODE changes at an end or a reset. -/
theorem commandsEndOnlyWithTheirErrors : Obligations.CommandsEndOnlyWithTheirErrors := by
  refine ⟨fun i s t clear run => (endsWithin_of_exec run).errcode_mem clear,
    fun s t clear busy h => State.errcode_mem_runErrors_of_step h busy clear, fun s t h changed => ?_⟩
  obtain ⟨e, rest, first, quiet, hs⟩ | ⟨m, rest, -, -, -, hs⟩ | ⟨-, -, hs⟩ := step_cases s
  · refine ⟨e, rest, ⟨first, quiet⟩, ?_⟩
    cases State.handled_of_handle (hs.symm.trans h) with
    | hardReset => rfl
    | softReset ctrl srst => exact .inl ⟨ctrl, srst, rfl⟩
    | command cmd idle _ run => exact .inr ⟨cmd, idle, (endsWithin_of_exec run).ended_of_errcode_ne changed⟩
    | illegal cmd idle => exact .inr ⟨cmd, idle, rfl, .inr rfl⟩
    | dropped | lateEntropy | lateStream => exact absurd rfl changed
    | stored => exact absurd ((s.withAgenda rest).sameCommand_storeReg _ _).errcode changed
    | read off => exact absurd ((s.withAgenda rest).sameRegisters_hostRead off).errcode changed
    | memPort m => exact absurd ((s.withAgenda rest).sameRegisters_memAccess m).errcode changed
    | entropy a => exact State.ended_of_entropyAnswer_errcode_ne (s := s.withAgenda rest) changed
    | stream a => exact State.ended_of_streamAnswer_errcode_ne (s := s.withAgenda rest) changed
    | memStep => exact absurd (s.withAgenda rest).sameRegisters_releaseHeld.errcode changed
  · cases hs.symm.trans h
    exact absurd (s.sameRegisters_carryOut rest m).errcode changed
  · cases hs.symm.trans h
    exact absurd rfl changed

end Sys2Proof.Machine
end

section
/-! What the two resets leave (70_reset_and_hazards.md R341, R342). -/

namespace Sys2Proof.Machine

/-- Every register of `t` but G is at the value `State.reset` names, with no command executing; the parameters are those of
`s`. Free are G and MEM, on which the two resets differ, and what lies outside the unit. -/
def State.ResetTo (s t : State) : Prop :=
  t = { State.reset with
    params := s.params, g := t.g, gWritten := t.gWritten, mem := t.mem, epoch := t.epoch, freeCount := t.freeCount
    heldMem := t.heldMem, trace := t.trace, agenda := t.agenda }

theorem State.resetTo_softReset (s : State) : s.ResetTo s.softReset := rfl

theorem State.resetTo_hardReset (s : State) : s.ResetTo s.hardReset := rfl

/-- Either reset is carried out by the step that takes it, whatever the unit is doing (70_reset_and_hazards.md R340). -/
theorem exists_step_resetTo {s : State} {e : Event} {rest : List Event} (next : s.eventIsNext e rest)
    (reset : e = .rst ∨ ∃ off w, e = .regWrite off w ∧ regAt off = .ctrl ∧ w.getLsbD 31 = true) :
    ∃ t, step s = .next t ∧ s.ResetTo t := by
  obtain rfl | ⟨off, w, rfl, ctrl, srst⟩ := reset
  · exact ⟨_, step_of_event next.1 next.2, (s.withAgenda rest).resetTo_hardReset⟩
  · exact ⟨_, step_regWrite_reset next ctrl srst, (s.withAgenda rest).resetTo_softReset⟩

/-- Settles O11: the step leaves a state `ResetTo` the values of `State.reset`, which are the listed ones. -/
theorem eitherResetLeavesTheUnitIdle : Obligations.EitherResetLeavesTheUnitIdle := by
  intro s e rest next reset
  obtain ⟨t, hs, resetTo⟩ := exists_step_resetTo next reset
  refine ⟨t, hs, ?_⟩
  rw [resetTo]
  exact ⟨rfl, rfl, rfl, rfl, rfl, rfl, rfl, rfl, rfl, rfl, rfl, rfl, rfl, rfl, rfl, rfl, rfl, rfl, rfl, rfl, rfl, rfl, rfl, rfl⟩

/-- Settles O12: the step is `softReset`, which leaves the FSM idle and keeps G, MEM and the record of the ports, on which alone the
kept readings depend. -/
theorem softResetKeepsRegistersAndMemory : Obligations.SoftResetKeepsRegistersAndMemory := by
  intro s off w rest next ctrl srst
  exact ⟨_, step_regWrite_reset next ctrl srst, State.getG_congr rfl, State.readByte_congr rfl rfl, rfl, rfl, rfl, rfl,
    State.channelBytes_congr rfl, rfl, rfl⟩

end Sys2Proof.Machine
end

section
/-! Steps on which the unit does nothing: no input comes (60_exceptions.md R323, R328), or an answer comes to no outstanding request
(70_reset_and_hazards.md R341). -/

namespace Sys2Proof.Machine

variable {s : State}

/-! ## No input -/

/-- With no event and no released MEM transaction the step leaves the unit as it is (log 8). -/
theorem step_of_agenda_nil (noEvent : s.agenda = []) (quiet : s.heldMem = [] ∨ s.memHeld = true) : step s = .next s := by
  obtain ⟨e, rest, first, -⟩ | ⟨m, waiting, held, free, -⟩ | ⟨-, -, hs⟩ := step_cases s
  · exact absurd (noEvent.symm.trans first) nofun
  · obtain noneHeld | hold := quiet
    · exact absurd (noneHeld.symm.trans held) nofun
    · exact absurd (hold.symm.trans free) nofun
  · exact hs

/-- A state that is its own next state is where any number of steps leads. -/
theorem run_of_step_self {M : Host.Core} {s : M.State} (stays : M.step s = .next s) (n : ℕ) : M.run n s = .next s := by
  induction n with
  | zero => rfl
  | succ n ih => rw [run_succ_of_step stays, ih]

/-- Settles O9, by induction on the number of steps: the state is its own next state. -/
theorem unansweredUnitStaysAsItIs : Obligations.UnansweredUnitStaysAsItIs :=
  fun _ n noEvent quiet => run_of_step_self (M := Sys2Proof.core) (step_of_agenda_nil noEvent quiet) n

/-! ## Answers without a request -/

/-- A point of the FSM that takes an entropy answer has a DRAW outstanding. -/
theorem State.entropyAnswer_of_request_ne (noDraw : s.request ≠ some .draw) (a : EntropyAnswer) : s.entropyAnswer a = s := by
  unfold State.entropyAnswer
  cases point : s.fsm with
  | polyDraw | sampleDraw | coefDraw => exact absurd (congrArg Fsm.request point) noDraw
  | _ => rfl

theorem State.streamAnswer_of_request_ne (noStream : ∀ r, s.request ≠ some (.stream r)) (a : StreamAnswer) :
    s.streamAnswer a = s := by
  obtain ⟨r, request, -⟩ | ignored := s.streamAnswer_cases a
  · exact absurd request (noStream r)
  · exact ignored

/-- Settles O10: the step hands the event to its port, which ignores it; the request does not depend on the agenda. -/
theorem answersWithoutRequestAreIgnored : Obligations.AnswersWithoutRequestAreIgnored := by
  intro s rest a b
  refine ⟨fun next noDraw => ?_, fun next noStream => ?_, fun next => step_of_event next.1 next.2,
    fun next => step_of_event next.1 next.2⟩
  · exact (step_of_event next.1 next.2).trans
      (congrArg _ (State.entropyAnswer_of_request_ne (s := s.withAgenda rest) noDraw a))
  · exact (step_of_event next.1 next.2).trans
      (congrArg _ (State.streamAnswer_of_request_ne (s := s.withAgenda rest) noStream b))

end Sys2Proof.Machine
end
